-- ==== Sys2Proof/Word.lean ====
section
/-! DEFINITION. The widths of 00_scope.md R6 as types, and four bytes held as a length field. -/

namespace Sys2Proof

/-- `BYTE_W` = 8 (R6, R40). -/
abbrev Byte := BitVec 8

/-- `LEN_W` = 32: a wire length, an index, a count of bytes (R6, R40). -/
abbrev Len := BitVec 32

/-- `FLAG_IN_W` = 32: the flag operand of SEND_TOKEN (R6, D1). -/
abbrev FlagIn := BitVec 32

/-- `LEN_IN_W` = 64: the token length operand of SEND_TOKEN (R6, D2). -/
abbrev LenIn := BitVec 64

/-- `HANDLE_W` = 64: an allocator handle or a token-store base (R6, D5). -/
abbrev Handle := BitVec 64

/-- `ERR_W` = 32: the transport's platform error code (R6, D4). -/
abbrev ErrCode := BitVec 32

/-- A command word of port WCMD with the widths of R6 (R68). -/
abbrev WcmdWord := BitVec 162

/-- A command word of port RCMD with the widths of R6 (R70). -/
abbrev RcmdWord := BitVec 99

/-- Four bytes, element 0 first on the wire and most significant (R17, R22, R45). -/
structure Be4 where
  b0 : Byte
  b1 : Byte
  b2 : Byte
  b3 : Byte
  deriving DecidableEq, Repr

end Sys2Proof
end

