-- ==== Sys2Proof/Syntax.lean ====
section
/-! DEFINITION. The instructions: one constructor per row of spec/opcode_table.json, in its order. -/

namespace Sys2Proof

/-- A row of the opcode table with its operands. A bit the spec says is ignored (R67, R69, R71) is no operand. -/
inductive Instr where
  /-- SEND_TOKEN on WCMD (R68, R110). -/
  | sendToken (flag : FlagIn) (len : LenIn) (base : Handle)
  /-- A word on WCMD with the reserved `op` 00 (R71). -/
  | illegalWcmdOp00
  /-- A word on WCMD with the RECV `op` 10 (R71). -/
  | illegalWcmdOp10
  /-- A word on WCMD with the RELEASE `op` 11 (R71). -/
  | illegalWcmdOp11
  /-- RECV_TOKEN on RCMD (R69, R130). -/
  | recvToken
  /-- RELEASE_TOKEN on RCMD with its descriptor (R70, R150). -/
  | releaseToken (valid : Bool) (handle : Handle) (length : Len)
  /-- A word on RCMD with the reserved `op` 00 (R71). -/
  | illegalRcmdOp00
  /-- A word on RCMD with the SEND `op` 01 (R71). -/
  | illegalRcmdOp01
  /-- A 4-byte wire header: its first byte is 00 and is the top byte of `length` (R61, R64). -/
  | frameZeroFlag (length : Len)
  /-- A 5-byte wire header: its first byte is `flag`, not 00 (R61, R64). -/
  | frameNonzeroFlag (flag : Byte) (length : Len)
  /-- The length encoder (R80). -/
  | encBe32 (len : Len)
  /-- The length decoder, `b0` received first (R81). -/
  | decBe32 (b0 b1 b2 b3 : Byte)
  /-- Engine WX moves `req` bytes out (R91 to R94, R105). -/
  | xferTx (req : Len)
  /-- Engine RX moves `req` bytes in (R91, R92, R95 to R98, R105). -/
  | xferRx (req : Len)
  deriving DecidableEq, Repr

end Sys2Proof
end

