-- ==== Sys2Proof/WellFormed.lean ====
section
/-! DEFINITION. Which instructions are well formed: the two checks of R64 on a wire header. -/

namespace Sys2Proof

/-- R64: a zero-flag header begins with the byte 00, which is length bits 31 to 24. Every other operand value of every
other row is legal (R63, R65, R80, R81, R90). -/
def Instr.wellFormed : Instr → Bool
  | .frameZeroFlag length => length.extractLsb' 24 8 == 0#8
  | .frameNonzeroFlag flag _ => flag != 0#8
  | .sendToken _ _ _ => true
  | .illegalWcmdOp00 => true
  | .illegalWcmdOp10 => true
  | .illegalWcmdOp11 => true
  | .recvToken => true
  | .releaseToken _ _ _ => true
  | .illegalRcmdOp00 => true
  | .illegalRcmdOp01 => true
  | .encBe32 _ => true
  | .decBe32 _ _ _ _ => true
  | .xferTx _ => true
  | .xferRx _ => true

end Sys2Proof
end

