-- ==== Sys2Proof/Decode.lean ====
section
/-! DEFINITION. The decoder and, after it, the encoder: command words (R67 to R71), wire headers (R61, R64), operands of the
internal operations (opcode table), and the byte order of a length (R80, R81). -/

namespace Sys2Proof

/-! ## Byte order of a length -/

/-- `ENC_BE32` of R80. -/
def encBytes (l : Len) : Be4 :=
  { b0 := l.extractLsb' 24 8, b1 := l.extractLsb' 16 8, b2 := l.extractLsb' 8 8, b3 := l.extractLsb' 0 8 }

/-- `DEC_BE32` of R81: each byte is zero-extended to 32 bits before it is shifted. -/
def decBytes (b : Be4) : Len :=
  (b.b0.setWidth 32 <<< 24) ||| (b.b1.setWidth 32 <<< 16) ||| (b.b2.setWidth 32 <<< 8) ||| b.b3.setWidth 32

/-- The four bytes in wire order. -/
def Be4.toList (b : Be4) : List Byte := [b.b0, b.b1, b.b2, b.b3]

/-- The flag byte, which is sent when the whole flag operand is not 0 (R62). -/
def flagBytes (flag : FlagIn) : List Byte := if flag = 0#32 then [] else [flag.setWidth 8]

/-- `Frame(f, p)` of R60: what the writer puts on the wire for a payload of at most 2^32-1 bytes. -/
def frameBytes (flag : FlagIn) (payload : List Byte) : List Byte :=
  flagBytes flag ++ (encBytes (BitVec.ofNat 32 payload.length)).toList ++ payload

/-! ## Decoding -/

/-- Why a bit pattern is no instruction. -/
inductive DecodeError where
  /-- the bytes end before the header does (R64) -/
  | headerIncomplete
  /-- bytes follow the header where one header alone was asked for -/
  | afterHeader
  deriving DecidableEq, Repr

/-- The internal operations, which have operand bits and no command word (R80, R81, R105). -/
inductive InternalOp where
  | enc
  | dec
  | tx
  | rx
  deriving DecidableEq, Repr

/-- An instruction's bits and the place they are read at: a command port, the wire, or an internal operation's operand. -/
inductive Encoded where
  | wcmd (word : WcmdWord)
  | rcmd (word : RcmdWord)
  | wire (header : List Byte)
  | internal (op : InternalOp) (operand : BitVec 32)
  deriving DecidableEq, Repr

/-- A word accepted on WCMD: total (R67, R68, R71). -/
def decodeWcmd (w : WcmdWord) : Instr :=
  match (w.extractLsb' 0 2).toNat with
  | 0 => .illegalWcmdOp00
  | 1 => .sendToken (w.extractLsb' 2 32) (w.extractLsb' 34 64) (w.extractLsb' 98 64)
  | 2 => .illegalWcmdOp10
  | _ => .illegalWcmdOp11

/-- A word accepted on RCMD: total (R67, R69 to R71). -/
def decodeRcmd (w : RcmdWord) : Instr :=
  match (w.extractLsb' 0 2).toNat with
  | 0 => .illegalRcmdOp00
  | 1 => .illegalRcmdOp01
  | 2 => .recvToken
  | _ => .releaseToken (w.getLsbD 2) (w.extractLsb' 3 64) (w.extractLsb' 67 32)

/-- R64: the header at the front of a byte stream and the bytes after it. -/
def decodeHeader : List Byte → Except DecodeError (Instr × List Byte)
  | b :: c0 :: c1 :: c2 :: rest =>
    if b = 0#8 then .ok (.frameZeroFlag (decBytes ⟨b, c0, c1, c2⟩), rest)
    else
      match rest with
      | c3 :: rest' => .ok (.frameNonzeroFlag b (decBytes ⟨c0, c1, c2, c3⟩), rest')
      | [] => .error .headerIncomplete
  | _ => .error .headerIncomplete

/-- The operand bits of an internal operation (opcode table). -/
def decodeInternal (op : InternalOp) (w : BitVec 32) : Instr :=
  match op with
  | .enc => .encBe32 w
  | .dec => .decBe32 (w.extractLsb' 24 8) (w.extractLsb' 16 8) (w.extractLsb' 8 8) (w.extractLsb' 0 8)
  | .tx => .xferTx w
  | .rx => .xferRx w

/-- The decoder over every place an instruction is read at. -/
def decode : Encoded → Except DecodeError Instr
  | .wcmd w => .ok (decodeWcmd w)
  | .rcmd w => .ok (decodeRcmd w)
  | .internal op w => .ok (decodeInternal op w)
  | .wire bytes =>
    match decodeHeader bytes with
    | .ok (i, []) => .ok i
    | .ok (_, _ :: _) => .error .afterHeader
    | .error e => .error e

/-! ## Encoding -/

/-- The SEND_TOKEN word of R68. -/
def encodeSend (flag : FlagIn) (len : LenIn) (base : Handle) : WcmdWord :=
  base ++ len ++ flag ++ 1#2

/-- The RELEASE_TOKEN word of R70. -/
def encodeRelease (valid : Bool) (handle : Handle) (length : Len) : RcmdWord :=
  length ++ handle ++ BitVec.ofBool valid ++ 3#2

/-- The bits of an instruction; bits the spec ignores are 0. -/
def encode : Instr → Encoded
  | .sendToken flag len base => .wcmd (encodeSend flag len base)
  | .illegalWcmdOp00 => .wcmd 0#162
  | .illegalWcmdOp10 => .wcmd 2#162
  | .illegalWcmdOp11 => .wcmd 3#162
  | .recvToken => .rcmd 2#99
  | .releaseToken valid handle length => .rcmd (encodeRelease valid handle length)
  | .illegalRcmdOp00 => .rcmd 0#99
  | .illegalRcmdOp01 => .rcmd 1#99
  | .frameZeroFlag length => .wire (encBytes length).toList
  | .frameNonzeroFlag flag length => .wire (flag :: (encBytes length).toList)
  | .encBe32 len => .internal .enc len
  | .decBe32 b0 b1 b2 b3 => .internal .dec (decBytes ⟨b0, b1, b2, b3⟩)
  | .xferTx req => .internal .tx req
  | .xferRx req => .internal .rx req

/-! ## A bare word of the opcode table -/

/-- The bytes of a wire header given as one number, first byte received most significant (opcode table). A 4-byte pattern is
followed by the byte 00, which is read only where the header has 5 bytes. -/
def headerOfWord (nbits w : Nat) : List Byte :=
  if nbits = 40 then (List.range 5).map fun i => BitVec.ofNat 8 (w >>> (8 * (4 - i)))
  else ((List.range 4).map fun i => BitVec.ofNat 8 (w >>> (8 * (3 - i)))) ++ [0#8]

/-- R67: the port that serves the `op` of a word too short to belong to a port; the reserved `op` is taken on WCMD. -/
def decodeBareOp (w : Nat) : Instr :=
  match w % 4 with
  | 0 => .illegalWcmdOp00
  | 1 => decodeWcmd (BitVec.ofNat 162 w)
  | 2 => .recvToken
  | _ => decodeRcmd (BitVec.ofNat 99 w)

/-- The instruction read from `nbits` bits of the opcode table with no port named. The width tells the port: 162 bits
WCMD, 99 bits RCMD, 32 or 40 bits a wire header. An internal operation has no word of its own (R80, R81): DESIGN CHOICE, assumption 9. -/
def decodeTableWord (nbits w : Nat) : Option Instr :=
  if nbits < 32 then some (decodeBareOp w)
  else if nbits = 32 ∨ nbits = 40 then
    match decodeHeader (headerOfWord nbits w) with
    | .ok (i, _) => some i
    | .error _ => none
  else if 99 ≤ nbits ∧ nbits ≤ 104 then some (decodeRcmd (BitVec.ofNat 99 w))
  else if 162 ≤ nbits ∧ nbits ≤ 168 then some (decodeWcmd (BitVec.ofNat 162 w))
  else none

end Sys2Proof
end

