-- ==== Sys2Proof/Config.lean ====
section
/-! DEFINITION. What an implementation fixes (R6), the alphabet of the environment's inputs (R8), and the free values. -/

namespace Sys2Proof

/-- TXT's answer to the outstanding `TxAttempt` (R8, R94). -/
inductive TxAnswer where
  | moved (k : Nat)
  | err (c : ErrCode)
  deriving DecidableEq, Repr, Inhabited

/-- RXT's answer to the outstanding `RxAttempt`: the k bytes it delivers are the next k of WIRE_RX (R8, R42, R96). -/
inductive RxAnswer where
  | moved (k : Nat)
  | err (c : ErrCode)
  deriving DecidableEq, Repr, Inhabited

/-- ALLOC's answer (R8, R47). -/
inductive AllocAnswer where
  | ok (h : Handle)
  | noMem
  deriving DecidableEq, Repr, Inhabited

/-- What an environment agent did about a request that a reset has forgotten (R190). -/
inductive LateAnswer where
  /-- the transport moved k bytes -/
  | moved (k : Nat)
  /-- the allocator set storage aside -/
  | ok (h : Handle)
  /-- an error, no memory, or nothing moved -/
  | nothing
  deriving DecidableEq, Repr, Inhabited

/-- One event: an agent of the block takes its enabled step, or an environment agent acts (R5, R8, R176, R182). WR and RD may
both be busy, as over a duplex transport (R53, R182, U13; DESIGN CHOICE, assumption 15). -/
inductive Event where
  /-- agent WR takes its next step, if it has one enabled -/
  | wr
  /-- agent RD takes its next step, if it has one enabled -/
  | rd
  /-- the answer to WR's outstanding attempt arrives: WR's step R94 -/
  | txAnswer (a : TxAnswer)
  /-- the answer to RD's outstanding attempt arrives: RD's step R96 -/
  | rxAnswer (a : RxAnswer)
  /-- the allocator's answer arrives: RD's step R134 -/
  | allocAnswer (a : AllocAnswer)
  /-- one `Tick` arrives: RD's step R98 where it is enabled -/
  | tick
  /-- RXT sets the level `RxReady` -/
  | rxReady (ready : Bool)
  /-- bytes arrive at the back of WIRE_RX -/
  | arrive (bytes : List Byte)
  /-- the host presents a word on WCMD -/
  | presentW (word : WcmdWord)
  /-- the host presents a word on RCMD -/
  | presentR (word : RcmdWord)
  /-- the host writes DIAG_EN -/
  | writeDiag (on : Bool)
  /-- the host places byte `index` of the token at `base` in TOKSRC, at any time (R193 d, R201; assumption 12) -/
  | placeTok (base : Handle) (index : Len) (value : Byte)
  /-- the host writes byte `index` of the storage at `h`, which it owns after a successful receive (R44, R176; that it may
  write there and not only read is DESIGN CHOICE, assumption 14) -/
  | hostWrite (h : Handle) (index : Len) (value : Byte)
  /-- the host asserts reset (R190) -/
  | reset
  /-- request number `i` of those a reset has forgotten is answered at last (R190) -/
  | lateAnswer (i : Nat) (a : LateAnswer)
  /-- the platform reclaims storage that neither the reader nor the host holds (R192 b) -/
  | reclaim
  deriving DecidableEq, Repr, Inhabited

/-- One less than RX_TIMEOUT_TICKS: the parameter is open and at least 1 (R6, D3). A free value: DESIGN CHOICE, assumption 5. -/
opaque Config.rxTimeoutTicksPred : Nat

/-- RX_TIMEOUT_TICKS, at least 1 (R6). -/
def Config.rxTimeoutTicks : Nat := Config.rxTimeoutTicksPred + 1

/-- One less than MAX_LIVE, or `none` for an unbounded scoreboard (R6, R14, D21). A free value: DESIGN CHOICE, assumption 5. -/
opaque Config.maxLivePred : Option Nat

/-- MAX_LIVE, at least 1 or unbounded (R6). -/
def Config.maxLive : Option Nat := Config.maxLivePred.map (· + 1)

/-- Which of a token byte's values since the accept `TokRead` yields, for draw n and byte i, where the host has changed the byte
meanwhile (R201, U12). A free value: DESIGN CHOICE, assumption 12. -/
opaque Config.freePick : Nat → Nat → Nat

/-- The event that happens at turn n when the script says nothing: a free value (DESIGN CHOICE, assumption 3). Nothing constrains it, so a
claim holds whatever the host, the transport, the allocator and the clock do, and however WR and RD interleave (R53). -/
opaque Config.freeEvent : Nat → Event

end Sys2Proof
end

