-- ==== Sys2Proof/Machine/State.lean ====
section
/-! DEFINITION. The state: every register of 10_state.md, the ports and byte spaces around the block, the reasons a step can
stop, and the machine after reset. -/

namespace Sys2Proof.Machine

/-! ## Named codes -/

/-- `W_PH` (R11). Codes 5 and 6 are never written and have no name (U18). -/
inductive WPhase where
  | idle
  | flag
  | chk
  | len
  | pay
  | halt
  deriving DecidableEq, Repr

/-- `R_PH` (R11). Codes 5 to 7 are never written and have no name (U18). -/
inductive RPhase where
  | idle
  | first
  | len
  | alloc
  | pay
  deriving DecidableEq, Repr

/-- `E_PH` (R18). -/
inductive EPhase where
  | check
  | wait
  | att
  | done
  deriving DecidableEq, Repr

/-- `E_KIND`: the Transfer Result kind (R18, R102). -/
inductive XKind where
  | kNone
  | kComplete
  | kPartial
  | kClosed
  | kError
  deriving DecidableEq, Repr

/-- `W_STATUS`, `R_STATUS` (R72). -/
inductive Status where
  | stNone
  | stOk
  | stTransportError
  | stShortTransfer
  | stAllocFailure
  | stOversized
  | stReleaseError
  | stBadCommand
  deriving DecidableEq, Repr

/-- `W_STAGE`, `R_STAGE` and the stage of a Report (R73). -/
inductive Stage where
  | stgNone
  | stgFlag
  | stgLength
  | stgPayload
  deriving DecidableEq, Repr

/-- A unit of the block (R9). -/
inductive UnitId where
  | wr
  | rd
  deriving DecidableEq, Repr

/-! ## Registers -/

/-- The registers of a Reliable Transfer engine (R18). -/
structure Engine where
  ph : EPhase
  req : Len
  cnt : Len
  kind : XKind
  code : ErrCode
  deriving DecidableEq, Repr

/-- A token descriptor (R27). -/
structure Descriptor where
  valid : Bool
  handle : Handle
  length : Len
  deriving DecidableEq, Repr

/-- `EMPTY` (R27). -/
def Descriptor.empty : Descriptor := { valid := false, handle := 0, length := 0 }

/-- The registers of WR (R11, R15 to R18, R20). -/
structure Writer where
  ph : WPhase
  flagIn : FlagIn
  tlen : LenIn
  tbase : Handle
  fb : Byte
  lenbuf : Be4
  wx : Engine
  status : Status
  stage : Stage
  got : Len
  exp : Len
  errcode : ErrCode
  deriving DecidableEq, Repr

/-- The registers of RD (R11, R18, R19, R21 to R25, R27). -/
structure Reader where
  ph : RPhase
  b0 : Byte
  zf : Bool
  flag : Byte
  lenbuf : Be4
  len32 : Len
  h : Handle
  hv : Bool
  rx : Engine
  tmr : Nat
  status : Status
  stage : Stage
  got : Len
  exp : Len
  errcode : ErrCode
  flagOut : Byte
  tok : Descriptor
  deriving DecidableEq, Repr

/-! ## Ports and byte spaces -/

/-- What the block issues to the environment: requests and one-way events (R8, R75, R76). -/
inductive Issue where
  | txAttempt (bytes : List Byte)
  | rxAttempt (n : Nat)
  | alloc (n : Len)
  | free (h : Handle)
  | report (unit : UnitId) (stage : Stage) (done expected : Len)
  | resultW (status : Status) (stage : Stage) (got exp : Len) (errcode : ErrCode)
  | resultR (status : Status) (stage : Stage) (got exp : Len) (errcode : ErrCode) (flagOut : Byte) (tok : Descriptor)
  deriving DecidableEq, Repr

/-- A request that a reset forgot while it was outstanding (R190). -/
inductive Request where
  | tx (bytes : List Byte)
  | rx (n : Nat)
  | alloc (n : Nat)
  deriving DecidableEq, Repr

/-- Bytes of an addressed byte space, by cell address, in strictly rising order; an unlisted address has no value. -/
abbrev Memory := List Host.Cell

/-- What stands at the block's ports and in the byte spaces it reaches (R8, R40, R66). R30: not state of the block. -/
structure Env where
  /-- WCMD: the first word is the one presented; the host, held, presents the others in turn (R66; DESIGN CHOICE,
  assumption 13) -/
  wcmd : List WcmdWord
  /-- RCMD, likewise -/
  rcmd : List RcmdWord
  /-- the bytes of WR's outstanding TxAttempt (R93) -/
  offer : List Byte
  /-- requests forgotten by a reset and not yet answered (R190) -/
  forgotten : List Request
  /-- the level RxReady (R8) -/
  rxReady : Bool
  /-- WIRE_TX: the bytes the transport has taken, in order (R41) -/
  wireTx : List Byte
  /-- WIRE_RX: the bytes the transport holds for the reader, front first (R42) -/
  wireRx : List Byte
  /-- TOKSRC (R43) -/
  toksrc : Memory
  /-- the model's own: values that token bytes had since the accept and have no more, with their cells (R201, U12; DESIGN CHOICE,
  assumption 12) -/
  older : List Host.Cell
  /-- the model's own: the counter that Config.freePick is applied to, one draw an offer (DESIGN CHOICE, assumption 12) -/
  draws : Nat
  /-- RXBUF (R44) -/
  rxbuf : Memory
  /-- the storage Alloc gave and Free has not taken back: handle and size in bytes (R47; DEDUCED, assumption 6) -/
  pool : List (Handle × Nat)
  /-- everything the block has issued, oldest first -/
  out : List Issue
  /-- the model's own: the events to come, oldest first -/
  script : List Event
  /-- the model's own: the counter that Config.freeEvent is applied to (DESIGN CHOICE, assumption 3) -/
  turn : Nat
  deriving DecidableEq, Repr

/-- The machine: the block's registers (R10) and the environment around them. -/
structure State where
  /-- FATAL (R12) -/
  fatal : Bool
  /-- DIAG_EN (R13) -/
  diagEn : Bool
  /-- LIVE: a set, kept as a list without repeats (R14) -/
  live : List Handle
  w : Writer
  r : Reader
  env : Env
  deriving DecidableEq, Repr

/-! ## Why a step stops -/

/-- The machine stops. -/
inductive Fault where
  /-- FATAL = 1: raised when WR or RD is to take a step, or an instruction is to run (R12, R168, R208, U16). Safe. -/
  | fatalStop
  /-- WR reads a token byte that the host never placed in TOKSRC (R93, R193 d, R201). Safe. -/
  | tokenByteAbsent
  /-- RD writes a byte that no storage of its handle holds (R40, R96). Safe. No run from reset reaches it. -/
  | bufferByteAbsent
  deriving DecidableEq, Repr

/-- The model gives the situation no meaning. -/
inductive Refusal where
  /-- An instruction without a meaning in this model: raised by exec alone. Safe. -/
  | notModelled (mnemonic : String)
  /-- TXT answers an attempt with more bytes than were offered (R101, D19, U8). Safe. -/
  | txAnswerOutOfRange
  /-- RXT answers an attempt with more bytes than were asked for (R101, D19, U8). Safe. -/
  | rxAnswerOutOfRange
  /-- RXT delivers more bytes than WIRE_RX holds (R42). Safe. -/
  | rxAnswerBeyondStream
  /-- ALLOC answers with a handle whose storage is in use (R47). Safe. -/
  | allocHandleInUse
  /-- The host writes storage that is not its own: not of a live handle, or beyond its size (R176, R202, U2). Safe. -/
  | storageNotTheHosts
  deriving DecidableEq, Repr

/-- The outcome of one step. -/
abbrev Res := Host.Outcome State Fault Refusal

/-! ## Reset -/

/-- R29: an engine after reset. `code` is unspecified there: DESIGN CHOICE, assumption 1. -/
def Engine.reset : Engine := { ph := .done, req := 0, cnt := 0, kind := .kNone, code := 0 }

/-- R29: WR after reset. The registers R29 leaves unspecified are 0: DESIGN CHOICE, assumption 1. -/
def Writer.reset : Writer :=
  { ph := .idle, flagIn := 0, tlen := 0, tbase := 0, fb := 0, lenbuf := ⟨0, 0, 0, 0⟩, wx := Engine.reset,
    status := .stNone, stage := .stgNone, got := 0, exp := 0, errcode := 0 }

/-- R29: RD after reset. The registers R29 leaves unspecified are 0: DESIGN CHOICE, assumption 1. -/
def Reader.reset : Reader :=
  { ph := .idle, b0 := 0, zf := false, flag := 0, lenbuf := ⟨0, 0, 0, 0⟩, len32 := 0, h := 0, hv := false,
    rx := Engine.reset, tmr := 0, status := .stNone, stage := .stgNone, got := 0, exp := 0, errcode := 0,
    flagOut := 0, tok := Descriptor.empty }

/-- The environment at power-on: nothing presented, moved, stored or allocated yet (DESIGN CHOICE, assumption 2). -/
def Env.reset : Env :=
  { wcmd := [], rcmd := [], offer := [], forgotten := [], rxReady := false, wireTx := [], wireRx := [],
    toksrc := [], older := [], draws := 0, rxbuf := [], pool := [], out := [], script := [], turn := 0 }

/-- The machine after reset (R29, R191). -/
def State.reset : State :=
  { fatal := false, diagEn := true, live := [], w := Writer.reset, r := Reader.reset, env := Env.reset }

end Sys2Proof.Machine
end

