-- ==== Sys2Proof/Machine/Ops.lean ====
section
/-! DEFINITION. The operations every meaning is built from: bytes at addresses, storage, LIVE, the engine's registers, issuing to
the environment, and the failure and fatal procedures (R166, R168), which are this block's taking of an exception. There is no
return from one (R171): the next command's accept is what follows. -/

namespace Sys2Proof.Machine

/-! ## When a step is enabled -/

/-- R12: while FATAL = 1 no agent of the block takes any step. -/
def running (s : State) (k : Res) : Res :=
  if s.fatal then .fault .fatalStop else k

/-- R66: a word presented to WR is accepted when `W_PH` = `W_IDLE`; otherwise it is held and nothing changes (DESIGN CHOICE,
assumption 8). -/
def acceptW (s : State) (k : State) : Res :=
  running s (if s.w.ph = .idle then .next k else .next s)

/-- R66: a word presented to RD is accepted when `R_PH` = `R_IDLE`; otherwise it is held and nothing changes (DESIGN CHOICE,
assumption 8). -/
def acceptR (s : State) (k : State) : Res :=
  running s (if s.r.ph = .idle then .next k else .next s)

/-! ## Addressed bytes (R40) -/

/-- The cell of byte `i` of the storage at a handle or base: the index is 32 bits wide (R40), so no two pairs share a cell. -/
def cellAddr (h : Handle) (i : Nat) : Nat := h.toNat * 4294967296 + i

/-- The byte at a cell; `none` where nothing is listed (DESIGN CHOICE, assumption 4). -/
def Memory.read : Memory → Nat → Option Byte
  | [], _ => none
  | (x, v) :: m, a => if x = a then some v else Memory.read m a

/-- Writes the byte at a cell, keeping the cells in strictly rising order. -/
def Memory.write : Memory → Nat → Byte → Memory
  | [], a, v => [(a, v)]
  | (x, u) :: m, a, v =>
    if a < x then (a, v) :: (x, u) :: m
    else if a = x then (a, v) :: m
    else (x, u) :: Memory.write m a v

/-- The canonical form: cells in strictly rising order. -/
def Memory.wf : Memory → Bool
  | [] => true
  | c :: m =>
    (match m with
      | [] => true
      | d :: _ => decide (c.1 < d.1)) && Memory.wf m

/-- Writes consecutive bytes of the storage at `h` from index `i` on, in increasing order (R44, R96). -/
def Memory.writeRun (m : Memory) (h : Handle) (i : Nat) : List Byte → Memory
  | [] => m
  | b :: bs => Memory.writeRun (Memory.write m (cellAddr h i) b) h (i + 1) bs

/-- The storage at `h` loses its contents: they are undefined from here on (R47, R58, U2). -/
def Memory.drop (m : Memory) (h : Handle) : Memory :=
  m.filter fun c => c.1 / 4294967296 != h.toNat

/-- The `n` bytes that `read` gives from index `i` on, or `none` where one of them is absent. -/
def readRun (read : Nat → Option Byte) (i : Nat) : Nat → Option (List Byte)
  | 0 => some []
  | n + 1 =>
    match read i, readRun read (i + 1) n with
    | some b, some bs => some (b :: bs)
    | _, _ => none

/-- One of several values: the only one there is, else the one numbered n, counting round. -/
def pickOne (n : Nat) : List Byte → Option Byte
  | [] => none
  | [v] => some v
  | v :: u :: vs => (v :: u :: vs)[n % (vs.length + 2)]?

/-! ## Storage and LIVE -/

/-- The size of the storage that `h` names, if the allocator has given it out (R47). -/
def poolSize (pool : List (Handle × Nat)) (h : Handle) : Option Nat :=
  match pool with
  | [] => none
  | (x, n) :: rest => if x = h then some n else poolSize rest h

/-- The allocator takes the storage of `h` back (R48). -/
def poolFree (pool : List (Handle × Nat)) (h : Handle) : List (Handle × Nat) :=
  pool.filter fun p => p.1 != h

/-- `LIVE + {h}` (R14). -/
def liveInsert (live : List Handle) (h : Handle) : List Handle :=
  if h ∈ live then live else live ++ [h]

/-- `LIVE - {h}` (R14). -/
def liveErase (live : List Handle) (h : Handle) : List Handle :=
  live.filter fun x => x != h

/-- `max(n, 1)` (R133, C6). -/
def allocSize (n : Len) : Len := if n = 0#32 then 1#32 else n

/-! ## Issuing -/

/-- Issues a request or a one-way event to the environment (R8). -/
def issue (e : Issue) (s : State) : State :=
  { s with env := { s.env with out := s.env.out ++ [e] } }

/-- `Result(unit)` with the unit's result registers (R75). -/
def result (u : UnitId) (s : State) : State :=
  match u with
  | .wr => issue (.resultW s.w.status s.w.stage s.w.got s.w.exp s.w.errcode) s
  | .rd => issue (.resultR s.r.status s.r.stage s.r.got s.r.exp s.r.errcode s.r.flagOut s.r.tok) s

/-- `Report`, let out by DIAG_EN (R13, R172). -/
def report (u : UnitId) (stage : Stage) (done expected : Len) (s : State) : State :=
  if s.diagEn then issue (.report u stage done expected) s else s

/-- `Free(h)`: one-way; the allocator has the storage again and its contents are undefined (R48). -/
def free (h : Handle) (s : State) : State :=
  let s' := issue (.free h) s
  { s' with env := { s'.env with pool := poolFree s'.env.pool h, rxbuf := Memory.drop s'.env.rxbuf h } }

/-! ## Result registers -/

/-- The no-result values of R111 with the given status (R20, R71). -/
def Writer.cleared (w : Writer) (st : Status) : Writer :=
  { w with status := st, stage := .stgNone, got := 0#32, exp := 0#32, errcode := 0#32 }

/-- The no-result values of R131 with the given status (R25, R27, R71, R156). `R_HV` is not among them. -/
def Reader.cleared (r : Reader) (st : Status) : Reader :=
  { r with
    status := st, stage := .stgNone, got := 0#32, exp := 0#32, errcode := 0#32, flagOut := 0#8, tok := Descriptor.empty }

/-! ## Engine registers (R18) -/

/-- `StartXfer(E, n)`: `E_CODE` is left as it was (R91). -/
def Engine.start (e : Engine) (n : Len) : Engine := { e with req := n, cnt := 0#32, kind := .kNone, ph := .check }

/-- The transfer ends with this kind and its count as it is (R92, R94, R96, R98). -/
def Engine.finish (e : Engine) (k : XKind) : Engine := { e with kind := k, ph := .done }

/-- The transfer ends with a platform error code (R94, R96). -/
def Engine.fail (e : Engine) (c : ErrCode) : Engine := { e with kind := .kError, code := c, ph := .done }

/-- An attempt moved k bytes and was no ending (R94, R96). -/
def Engine.moved (e : Engine) (k : Nat) : Engine := { e with cnt := e.cnt + BitVec.ofNat 32 k, ph := .check }

/-- The bytes the stage still lacks: `E_REQ - E_CNT` (R83, R93, R95). -/
def Engine.left (e : Engine) : Nat := e.req.toNat - e.cnt.toNat

/-! ## Ending a command badly (R160) -/

/-- R166: the status of a failed transfer. -/
def failStatus : XKind → Status
  | .kError => .stTransportError
  | .kNone => .stShortTransfer
  | .kComplete => .stShortTransfer
  | .kPartial => .stShortTransfer
  | .kClosed => .stShortTransfer

/-- R166: the error code of a failed transfer. -/
def failCode (k : XKind) (code : ErrCode) : ErrCode := if k = .kError then code else 0#32

/-- `Fail(unit, kind, stage, got, exp, code)` of R166, for both units. -/
def fail (u : UnitId) (k : XKind) (stage : Stage) (got exp : Len) (code : ErrCode) (s : State) : State :=
  match u with
  | .wr =>
    result .wr (report .wr stage got exp
      { s with
        w := { s.w with
          status := failStatus k, errcode := failCode k code, stage := stage, got := got, exp := exp, ph := .idle } })
  | .rd =>
    result .rd (report .rd stage got exp
      { s with
        r := { s.r with
          status := failStatus k, errcode := failCode k code, stage := stage, got := got, exp := exp, ph := .idle } })

/-- `Fatal` of R168. `W_ERRCODE` is not among the registers it writes. -/
def fatalStop (s : State) : State :=
  result .wr
    { s with
      fatal := true
      w := { s.w with status := .stOversized, stage := .stgNone, got := 0#32, exp := 0#32, ph := .halt } }

/-- `AllocFail(n)` of R134: no Report and no Free. -/
def allocFail (n : Len) (s : State) : State :=
  result .rd
    { s with
      r := { s.r with
        status := .stAllocFailure, stage := .stgNone, got := 0#32, exp := n, tok := Descriptor.empty, ph := .idle } }

end Sys2Proof.Machine
end

