-- ==== Sys2Proof/Machine/Flags.lean ====
section
/-! DEFINITION. The status outputs (R26), every test a step branches on, and the code numbers of R11, R18, R72, R73. -/

namespace Sys2Proof.Machine

/-! ## Status outputs (R26) -/

/-- `w_busy`. -/
def State.wBusy (s : State) : Bool := s.w.ph != .idle

/-- `r_busy`. -/
def State.rBusy (s : State) : Bool := s.r.ph != .idle

/-- `w_ready`. -/
def State.wReady (s : State) : Bool := s.w.ph == .idle && !s.fatal

/-- `r_ready`. -/
def State.rReady (s : State) : Bool := s.r.ph == .idle && !s.fatal

/-! ## Tests -/

/-- R111, R62: a flag byte is sent when the whole flag operand is not 0. -/
def flagSent (flag : FlagIn) : Bool := flag != 0#32

/-- R113: the token length does not fit the wire's 32 bits. -/
def oversized (len : LenIn) : Bool := decide (4294967295 < len.toNat)

/-- R132, R64: the first byte is taken as a length byte. -/
def zeroFirst (b : Byte) : Bool := b == 0#8

/-- R133: `|LIVE| = MAX_LIVE`, for the given MAX_LIVE less 1 (never for an unbounded one). -/
def liveFull (boundPred : Option Nat) (live : List Handle) : Bool :=
  match live with
  | [] => false
  | _ :: rest =>
    match boundPred with
    | none => false
    | some m => rest.length == m

/-- R133: a complete header stands in the staging registers. -/
def headerDone (s : State) : Bool :=
  s.r.ph == .len && s.r.rx.ph == .done && s.r.rx.kind == .kComplete

/-! ## Code numbers -/

/-- R72. -/
def Status.code : Status → BitVec 3
  | .stNone => 0
  | .stOk => 1
  | .stTransportError => 2
  | .stShortTransfer => 3
  | .stAllocFailure => 4
  | .stOversized => 5
  | .stReleaseError => 6
  | .stBadCommand => 7

/-- R73. -/
def Stage.code : Stage → BitVec 2
  | .stgNone => 0
  | .stgFlag => 1
  | .stgLength => 2
  | .stgPayload => 3

/-- R18. -/
def XKind.code : XKind → BitVec 3
  | .kNone => 0
  | .kComplete => 1
  | .kPartial => 2
  | .kClosed => 3
  | .kError => 4

/-- R18. -/
def EPhase.code : EPhase → BitVec 2
  | .check => 0
  | .wait => 1
  | .att => 2
  | .done => 3

/-- R11. -/
def WPhase.code : WPhase → BitVec 3
  | .idle => 0
  | .flag => 1
  | .chk => 2
  | .len => 3
  | .pay => 4
  | .halt => 7

/-- R11. -/
def RPhase.code : RPhase → BitVec 3
  | .idle => 0
  | .first => 1
  | .len => 2
  | .alloc => 3
  | .pay => 4

/-- R76: the `unit` bit of a Report. -/
def UnitId.code : UnitId → BitVec 1
  | .wr => 0
  | .rd => 1

end Sys2Proof.Machine
end

