-- ==== Sys2Proof/Machine/Marshal.lean ====
section
/-! DEFINITION. ENC_BE32 and DEC_BE32: pure functions (R80, R81) whose results go to `W_LENBUF` (R17) and `R_LEN32` (R23):
DEDUCED, assumption 10. -/

namespace Sys2Proof.Machine

/-- `W_LENBUF[i] <- ENC_BE32(len)[i]` (R17, R80, R113). -/
def encodeLength (len : Len) (s : State) : State := { s with w := { s.w with lenbuf := encBytes len } }

/-- `R_LEN32 <- DEC_BE32(b)` (R23, R81, R133). -/
def decodeLength (b : Be4) (s : State) : State := { s with r := { s.r with len32 := decBytes b } }

/-- ENC_BE32 (R80): total, no exception. Its only caller in the spec is the step R113, in `W_CHK` on `W_TLEN[31:0]`; run by itself
it writes `W_LENBUF` in any phase and with any operand (DESIGN CHOICE, assumption 18). -/
def execEncBe32 (len : Len) (s : State) : Res := running s (.next (encodeLength len s))

/-- DEC_BE32 (R81): total, no exception. Its only caller in the spec is the step R133, in `R_LEN` with the length stage complete,
on `R_LENBUF`; run by itself it writes `R_LEN32` in any phase and with any operand (DESIGN CHOICE, assumption 18). -/
def execDecBe32 (b0 b1 b2 b3 : Byte) (s : State) : Res := running s (.next (decodeLength ⟨b0, b1, b2, b3⟩ s))

end Sys2Proof.Machine
end

