-- ==== Sys2Proof/Machine/Frame.lean ====
section
/-! DEFINITION. What the reader does with a complete wire header: R64 and the success branch of R133. -/

namespace Sys2Proof.Machine

/-- The instruction that the staging registers hold once the length stage is complete (R64): `R_ZF` tells the format, `R_FLAG`
is the resolved flag and `R_LENBUF` holds the length. -/
def headerInstr (s : State) : Instr :=
  if s.r.zf then .frameZeroFlag (decBytes s.r.lenbuf) else .frameNonzeroFlag s.r.flag (decBytes s.r.lenbuf)

/-- The header's fields as R132 and engine RX leave them in the staging registers (R21, R22, R64). -/
def stageHeader (zf : Bool) (flag : Byte) (len : Len) (s : State) : State :=
  { s with r := { s.r with zf := zf, flag := flag, lenbuf := encBytes len } }

/-- R133: the length is decoded; with a full scoreboard the command ends in AllocFail, else storage is asked for. The first
argument is MAX_LIVE less 1. -/
def allocateFor (boundPred : Option Nat) (s : State) : State :=
  let s' := decodeLength s.r.lenbuf s
  if liveFull boundPred s.live then allocFail (allocSize s'.r.len32) s'
  else issue (.alloc (allocSize s'.r.len32)) { s' with r := { s'.r with ph := .alloc } }

/-- A header is taken when it is complete (DEDUCED, assumption 10); otherwise there is no header to take and nothing changes
(DESIGN CHOICE, assumption 8). -/
def takeHeader (zf : Bool) (flag : Byte) (len : Len) (s : State) : Res :=
  running s
    (if headerDone s then .next (allocateFor Config.maxLivePred (stageHeader zf flag len s)) else .next s)

/-- FRAME_ZERO_FLAG (R64): resolved flag 0. -/
def execFrameZeroFlag (length : Len) (s : State) : Res := takeHeader true 0#8 length s

/-- FRAME_NONZERO_FLAG (R64): resolved flag the first byte. -/
def execFrameNonzeroFlag (flag : Byte) (length : Len) (s : State) : Res := takeHeader false flag length s

end Sys2Proof.Machine
end

