-- ==== Sys2Proof/Machine/Illegal.lean ====
section
/-! DEFINITION. Command words whose `op` the port does not serve (R71). -/

namespace Sys2Proof.Machine

/-- R71 on WCMD: no-result values, `ST_BAD_COMMAND`, `Result(WR)`, nothing else. -/
def badCommandW (s : State) : State := result .wr { s with w := s.w.cleared .stBadCommand }

/-- R71 on RCMD: no-result values, `ST_BAD_COMMAND`, `Result(RD)`, nothing else. -/
def badCommandR (s : State) : State := result .rd { s with r := s.r.cleared .stBadCommand }

/-- The reserved `op` 00 on WCMD (R71). -/
def execIllegalWcmdOp00 (s : State) : Res := acceptW s (badCommandW s)

/-- The RECV `op` 10 on WCMD (R71). -/
def execIllegalWcmdOp10 (s : State) : Res := acceptW s (badCommandW s)

/-- The RELEASE `op` 11 on WCMD (R71). -/
def execIllegalWcmdOp11 (s : State) : Res := acceptW s (badCommandW s)

/-- The reserved `op` 00 on RCMD (R71). -/
def execIllegalRcmdOp00 (s : State) : Res := acceptR s (badCommandR s)

/-- The SEND `op` 01 on RCMD (R71). -/
def execIllegalRcmdOp01 (s : State) : Res := acceptR s (badCommandR s)

end Sys2Proof.Machine
end

