-- ==== Sys2Proof/Machine/Operands.lean ====
section
/-! DEFINITION. Where a transfer's bytes come from and go to: the source and sink table of R107. -/

namespace Sys2Proof.Machine

/-- Byte i of a length buffer is written (R22, R107). The buffer has no other bytes: one beyond the stage's, which only an XFER_RX
with a count not the stage's delivers, is dropped (DESIGN CHOICE, assumption 16). -/
def Be4.set (b : Be4) (i : Nat) (v : Byte) : Be4 :=
  match i with
  | 0 => { b with b0 := v }
  | 1 => { b with b1 := v }
  | 2 => { b with b2 := v }
  | 3 => { b with b3 := v }
  | _ => b

/-- Consecutive bytes of a length buffer are written from element i on, in increasing order (R96). -/
def Be4.setRun (b : Be4) (i : Nat) : List Byte → Be4
  | [] => b
  | v :: vs => Be4.setRun (Be4.set b i v) (i + 1) vs

/-- The values that byte i of the token has had since the accept of the SEND_TOKEN in progress: the one that stands, and those
the host has changed (R201, U12). -/
def tokValues (s : State) (i : Nat) : List Byte :=
  (Memory.read s.env.toksrc (cellAddr s.w.tbase i)).toList ++
    (s.env.older.filter fun c => c.1 == cellAddr s.w.tbase i).map Prod.snd

/-- `TokRead(W_TBASE, i)` (R43): any value the byte has had since the accept, which is the byte itself unless the host changed
it (R201, U12; the choice is free: DESIGN CHOICE, assumption 12). `none` where the host never placed it. -/
def tokRead (s : State) (i : Nat) : Option Byte := pickOne (Config.freePick s.env.draws i) (tokValues s i)

/-- The bytes `[Src(WX_CNT), ..., Src(WX_REQ - 1)]` of R93, by the phase (R107); `none` where a token byte is absent. In the
phases that move nothing there is no source; where an XFER_TX run by itself asked for more than the stage has, what
`W_FB` or `W_LENBUF` has is offered, while in `W_PAY` TOKSRC is read on past `W_TLEN[31:0]`, which R43 does not let a stage do
(DESIGN CHOICE, assumption 16). -/
def txSource (s : State) : Option (List Byte) :=
  match s.w.ph with
  | .flag => some (([s.w.fb].drop s.w.wx.cnt.toNat).take s.w.wx.left)
  | .len => some ((s.w.lenbuf.toList.drop s.w.wx.cnt.toNat).take s.w.wx.left)
  | .pay => readRun (tokRead s) s.w.wx.cnt.toNat s.w.wx.left
  | .idle => some []
  | .chk => some []
  | .halt => some []

/-- R40: the storage of `h` holds the bytes from index i to i + k - 1. -/
def storageHolds (pool : List (Handle × Nat)) (h : Handle) (i k : Nat) : Bool :=
  match poolSize pool h with
  | some n => decide (i + k ≤ n)
  | none => false

/-- `Sink(RX_CNT + j, d[j])` for every j, in increasing order, by the phase (R96, R107); `none` where the storage has no such
byte. In the phases that move nothing there is no sink. Bytes beyond the stage's sink, which only an XFER_RX with a count not
the stage's delivers, are dropped, but for storage (DESIGN CHOICE, assumption 16). -/
def rxSink (d : List Byte) (s : State) : Option State :=
  match s.r.ph with
  | .first => some { s with r := { s.r with b0 := if s.r.rx.cnt = 0#32 then d.headD s.r.b0 else s.r.b0 } }
  | .len =>
    some { s with
      r := { s.r with lenbuf := Be4.setRun s.r.lenbuf (s.r.rx.cnt.toNat + s.r.zf.toNat) d } }
  | .pay =>
    if storageHolds s.env.pool s.r.h s.r.rx.cnt.toNat d.length then
      some { s with env := { s.env with rxbuf := Memory.writeRun s.env.rxbuf s.r.h s.r.rx.cnt.toNat d } }
    else none
  | .idle => some s
  | .alloc => some s

end Sys2Proof.Machine
end

