-- ==== Sys2Proof/Machine/Xfer.lean ====
section
/-! DEFINITION. The Reliable Transfer primitive: XFER_TX and XFER_RX (R90 to R108). -/

namespace Sys2Proof.Machine

/-! ## Starting a transfer -/

/-- `StartXfer(WX, n)` (R91). -/
def startTx (n : Len) (s : State) : State := { s with w := { s.w with wx := s.w.wx.start n } }

/-- `StartXfer(RX, n)` (R91). -/
def startRx (n : Len) (s : State) : State := { s with r := { s.r with rx := s.r.rx.start n } }

/-- XFER_TX is started with the requested count (R91); R92 to R94 carry it on. A transfer in progress is not restarted: one
ending per start (R90; DESIGN CHOICE, assumption 8). R91 has it only inside a step that starts a stage: started outside a stage,
the engine stays in `T_CHECK`, with any count (DESIGN CHOICE, assumption 16). -/
def execXferTx (req : Len) (s : State) : Res :=
  running s (if s.w.wx.ph = .done then .next (startTx req s) else .next s)

/-- XFER_RX is started with the requested count (R91); R92 and R95 to R98 carry it on. A transfer in progress is not
restarted: one ending per start (R90; DESIGN CHOICE, assumption 8). R91 has it only inside a step that starts a stage: started
outside a stage, the engine stays in `T_CHECK`, with any count (DESIGN CHOICE, assumption 16). -/
def execXferRx (req : Len) (s : State) : Res :=
  running s (if s.r.rx.ph = .done then .next (startRx req s) else .next s)

/-! ## Engine WX -/

/-- The engine's registers replaced. -/
def setWx (e : Engine) (s : State) : State := { s with w := { s.w with wx := e } }

/-- The engine's registers replaced. -/
def setRx (e : Engine) (s : State) : State := { s with r := { s.r with rx := e } }

/-- `WX_PH` = `T_CHECK`: the transfer is complete (R92), or every byte not yet moved is offered (R93), each token byte as it was
drawn (assumption 12). -/
def txCheck (s : State) : Res :=
  let e := s.w.wx
  if e.cnt = e.req then .next (setWx (e.finish .kComplete) s)
  else if e.cnt < e.req then
    match txSource s with
    | none => .fault .tokenByteAbsent
    | some bytes =>
      let s' := issue (.txAttempt bytes) (setWx { e with ph := .att } s)
      .next { s' with env := { s'.env with offer := bytes, draws := s.env.draws + 1 } }
  else .next s

/-- `WX_PH` = `T_ATT` and TXT answers (R94, R101). The offer is no longer outstanding. -/
def txAnswered (a : TxAnswer) (s : State) : Res :=
  let e := s.w.wx
  let s' := { s with env := { s.env with offer := [] } }
  match a with
  | .err c => .next (setWx (e.fail c) s')
  | .moved 0 => .next (setWx (e.finish .kClosed) s')
  | .moved (k + 1) =>
    if e.left < k + 1 then .refused .txAnswerOutOfRange
    else
      .next (setWx (e.moved (k + 1)) { s' with env := { s'.env with wireTx := s.env.wireTx ++ s.env.offer.take (k + 1) } })

/-! ## Engine RX -/

/-- `RX_PH` = `T_CHECK`: the transfer is complete (R92), or the wait is armed (R97). -/
def rxCheck (s : State) : Res :=
  let e := s.r.rx
  if e.cnt = e.req then .next (setRx (e.finish .kComplete) s)
  else if e.cnt < e.req then .next { s with r := { s.r with tmr := 0, rx := { e with ph := .wait } } }
  else .next s

/-- `RX_PH` = `T_WAIT` and `RxReady` = 1: every byte not yet moved is asked for (R95). -/
def rxAttempt (s : State) : Res :=
  .next (issue (.rxAttempt s.r.rx.left) (setRx { s.r.rx with ph := .att } s))

/-- `RX_PH` = `T_WAIT`, `RxReady` = 0 and a Tick arrives (R98), for the given RX_TIMEOUT_TICKS. -/
def rxTick (timeout : Nat) (s : State) : State :=
  if s.r.tmr + 1 < timeout then { s with r := { s.r with tmr := s.r.tmr + 1 } }
  else { s with r := { s.r with tmr := timeout, rx := s.r.rx.finish .kPartial } }

/-- `RX_PH` = `T_ATT` and RXT answers (R96, R101): the bytes delivered are the next ones of WIRE_RX (R42). -/
def rxAnswered (a : RxAnswer) (s : State) : Res :=
  let e := s.r.rx
  match a with
  | .err c => .next (setRx (e.fail c) s)
  | .moved 0 => .next (setRx (e.finish .kClosed) s)
  | .moved (k + 1) =>
    if e.left < k + 1 then .refused .rxAnswerOutOfRange
    else if s.env.wireRx.length < k + 1 then .refused .rxAnswerBeyondStream
    else
      match rxSink (s.env.wireRx.take (k + 1)) s with
      | none => .fault .bufferByteAbsent
      | some s' =>
        .next (setRx (e.moved (k + 1)) { s' with env := { s'.env with wireRx := s.env.wireRx.drop (k + 1) } })

end Sys2Proof.Machine
end

