-- ==== Sys2Proof/Machine/Recv.lean ====
section
/-! DEFINITION. RECV_TOKEN: its accept (R131); Reader.lean and Frame.lean carry it on (R130). -/

namespace Sys2Proof.Machine

/-- R131: the result registers are cleared and the first-byte stage is started. -/
def acceptRecv (s : State) : State :=
  let r := s.r.cleared .stNone
  { s with r := { r with hv := false, rx := r.rx.start 1#32, ph := .first } }

/-- RECV_TOKEN (R130): accepted when RD is idle, else held (R66). -/
def execRecvToken (s : State) : Res :=
  acceptR s (acceptRecv s)

end Sys2Proof.Machine
end

