-- ==== Sys2Proof/Machine/Release.lean ====
section
/-! DEFINITION. RELEASE_TOKEN, whole in one step (R150 to R156). -/

namespace Sys2Proof.Machine

/-- R156: the result registers with the status of the release, and `Result(RD)`. -/
def releaseEnd (st : Status) (s : State) : State :=
  result .rd { s with r := s.r.cleared st }

/-- R151 (empty), R152 (live) or R153 (neither): exactly one of them for any operand. No rule reads the length (R70). -/
def releaseStep (valid : Bool) (handle : Handle) (s : State) : State :=
  if valid = false then releaseEnd .stOk s
  else if handle ∈ s.live then
    let s' := free handle s
    releaseEnd .stOk { s' with live := liveErase s.live handle }
  else releaseEnd .stReleaseError s

/-- RELEASE_TOKEN (R150): accepted when RD is idle, else held (R66, R155 b). -/
def execReleaseToken (valid : Bool) (handle : Handle) (_length : Len) (s : State) : Res :=
  acceptR s (releaseStep valid handle s)

end Sys2Proof.Machine
end

