-- ==== Sys2Proof/Machine/Send.lean ====
section
/-! DEFINITION. SEND_TOKEN: its accept (R111); Writer.lean carries it on (R110). -/

namespace Sys2Proof.Machine

/-- R111: the operand and result registers are written, then the flag stage is started or skipped. No token byte has changed
since this accept (U12, assumption 12). -/
def acceptSend (flag : FlagIn) (len : LenIn) (base : Handle) (s : State) : State :=
  let w := { s.w.cleared .stNone with flagIn := flag, tlen := len, tbase := base, fb := flag.setWidth 8 }
  let env := { s.env with older := [] }
  if flagSent flag then { s with w := { w with wx := w.wx.start 1#32, ph := .flag }, env := env }
  else { s with w := { w with ph := .chk }, env := env }

/-- SEND_TOKEN (R110): accepted when WR is idle, else held (R66). -/
def execSendToken (flag : FlagIn) (len : LenIn) (base : Handle) (s : State) : Res :=
  acceptW s (acceptSend flag len base s)

end Sys2Proof.Machine
end

