-- ==== Sys2Proof/Machine/Dispatch.lean ====
section
/-! DEFINITION. The meaning of every instruction. -/

namespace Sys2Proof.Machine

def exec (i : Instr) (s : State) : Host.Outcome State Fault Refusal :=
  match i with
  | .sendToken flag len base => Sys2Proof.Machine.execSendToken flag len base s
  | .illegalWcmdOp00 => Sys2Proof.Machine.execIllegalWcmdOp00 s
  | .illegalWcmdOp10 => Sys2Proof.Machine.execIllegalWcmdOp10 s
  | .illegalWcmdOp11 => Sys2Proof.Machine.execIllegalWcmdOp11 s
  | .recvToken => Sys2Proof.Machine.execRecvToken s
  | .releaseToken valid handle length => Sys2Proof.Machine.execReleaseToken valid handle length s
  | .illegalRcmdOp00 => Sys2Proof.Machine.execIllegalRcmdOp00 s
  | .illegalRcmdOp01 => Sys2Proof.Machine.execIllegalRcmdOp01 s
  | .frameZeroFlag length => Sys2Proof.Machine.execFrameZeroFlag length s
  | .frameNonzeroFlag flag length => Sys2Proof.Machine.execFrameNonzeroFlag flag length s
  | .encBe32 len => Sys2Proof.Machine.execEncBe32 len s
  | .decBe32 b0 b1 b2 b3 => Sys2Proof.Machine.execDecBe32 b0 b1 b2 b3 s
  | .xferTx req => Sys2Proof.Machine.execXferTx req s
  | .xferRx req => Sys2Proof.Machine.execXferRx req s

end Sys2Proof.Machine
end

