-- ==== Sys2Proof/Machine/Reader.lean ====
section
/-! DEFINITION. The Frame Reader's sequencer after the accept of RECV_TOKEN (R132 to R136); a complete header is taken by
Frame.lean. -/

namespace Sys2Proof.Machine

/-- R132: the first byte ended. -/
def firstEnded (s : State) : State :=
  if s.r.rx.kind ≠ .kComplete then fail .rd s.r.rx.kind .stgFlag s.r.rx.cnt 1#32 s.r.rx.code s
  else if zeroFirst s.r.b0 then
    let s' := startRx 3#32 s
    { s' with r := { s'.r with zf := true, flag := 0#8, lenbuf := { s.r.lenbuf with b0 := 0#8 }, ph := .len } }
  else
    let s' := startRx 4#32 s
    { s' with r := { s'.r with zf := false, flag := s.r.b0, ph := .len } }

/-- R133: how many length bytes the stage was to read. -/
def lengthExpected (s : State) : Len := if s.r.zf then 3#32 else 4#32

/-- R133, the failure branch: the length stage ended short. -/
def lengthFailed (s : State) : State :=
  fail .rd s.r.rx.kind .stgLength s.r.rx.cnt (lengthExpected s) s.r.rx.code s

/-- R134: the allocator answered. A handle whose storage is in use is outside the allocator's contract (R47). -/
def allocAnswered (a : AllocAnswer) (s : State) : Res :=
  match a with
  | .noMem => .next (allocFail (allocSize s.r.len32) s)
  | .ok h =>
    if (poolSize s.env.pool h).isSome ∨ h ∈ s.live then .refused .allocHandleInUse
    else
      let s' := startRx s.r.len32 s
      .next { s' with
        r := { s'.r with h := h, hv := true, ph := .pay }
        env := { s'.env with
          pool := (h, (allocSize s.r.len32).toNat) :: s'.env.pool, rxbuf := Memory.drop s'.env.rxbuf h } }

/-- R135: the payload ended, success. -/
def payloadReceived (s : State) : State :=
  result .rd
    { s with
      live := liveInsert s.live s.r.h
      r := { s.r with
        tok := { valid := true, handle := s.r.h, length := s.r.len32 }, flagOut := s.r.flag, status := .stOk,
        hv := false, ph := .idle } }

/-- R136: the payload ended, failure. -/
def payloadFailed (s : State) : State :=
  let s' := free s.r.h s
  fail .rd s.r.rx.kind .stgPayload s.r.rx.cnt s.r.len32 s.r.rx.code { s' with r := { s'.r with hv := false } }

/-- RD in a stage: its engine's step, or the given sequencer step once the engine is done (R92, R95, R97, R100). Waiting for
readiness or an answer it has no enabled step (R104, R184). -/
def rxStage (ended : Res) (s : State) : Res :=
  match s.r.rx.ph with
  | .check => rxCheck s
  | .wait => if s.env.rxReady then rxAttempt s else .next s
  | .att => .next s
  | .done => ended

end Sys2Proof.Machine
end

