-- ==== Sys2Proof/Machine/Writer.lean ====
section
/-! DEFINITION. The Frame Writer's sequencer after the accept of SEND_TOKEN (R112 to R115). -/

namespace Sys2Proof.Machine

/-- R112: the flag stage ended. -/
def flagEnded (s : State) : State :=
  if s.w.wx.kind = .kComplete then { s with w := { s.w with ph := .chk } }
  else fail .wr s.w.wx.kind .stgFlag s.w.wx.cnt 1#32 s.w.wx.code s

/-- R113: the oversize test, after the flag stage (C5), then the length's encoding and the length stage. -/
def checkLength (s : State) : State :=
  if oversized s.w.tlen then fatalStop s
  else
    let s' := startTx 4#32 (encodeLength (s.w.tlen.setWidth 32) s)
    { s' with w := { s'.w with ph := .len } }

/-- R114: the length stage ended. -/
def lengthEnded (s : State) : State :=
  if s.w.wx.kind = .kComplete then
    let s' := startTx (s.w.tlen.setWidth 32) s
    { s' with w := { s'.w with ph := .pay } }
  else fail .wr s.w.wx.kind .stgLength s.w.wx.cnt 4#32 s.w.wx.code s

/-- R115: the payload stage ended. -/
def payloadEnded (s : State) : State :=
  if s.w.wx.kind = .kComplete then result .wr { s with w := { s.w with status := .stOk, ph := .idle } }
  else fail .wr s.w.wx.kind .stgPayload s.w.wx.cnt (s.w.tlen.setWidth 32) s.w.wx.code s

/-- WR in a stage: its engine's step, or the given sequencer step once the engine is done (R92, R93, R100). Waiting for an
answer it has no enabled step (R104, R184); WX never waits for readiness (R19). -/
def txStage (ended : State) (s : State) : Res :=
  match s.w.wx.ph with
  | .check => txCheck s
  | .att => .next s
  | .wait => .next s
  | .done => .next ended

/-- The step of WR in a phase other than W_IDLE. Outside a stage no step is the engine's, whatever an XFER_TX run by itself has
started (DESIGN CHOICE, assumption 16). -/
def writerBusyStep (s : State) : Res :=
  match s.w.ph with
  | .flag => txStage (flagEnded s) s
  | .chk => .next (checkLength s)
  | .len => txStage (lengthEnded s) s
  | .pay => txStage (payloadEnded s) s
  | .idle => .next s
  | .halt => .next s

end Sys2Proof.Machine
end

