-- ==== Sys2Proof/Machine/Agents.lean ====
section
/-! DEFINITION. The agents: WR's step, RD's step, what each event does, reset, and the placing of an instruction for the next
step. -/

namespace Sys2Proof.Machine

/-! ## The agents of the block (R5) -/

/-- WR idle: the word presented on WCMD, if any, leaves the port and runs (R66, R71, R111). -/
def writerAccept (s : State) : Res :=
  match s.env.wcmd with
  | [] => .next s
  | word :: rest => exec (decodeWcmd word) { s with env := { s.env with wcmd := rest } }

/-- WR takes its enabled step, if it has one: in `W_IDLE` only an accept (assumption 16). -/
def writerStep (s : State) : Res :=
  running s (if s.w.ph = .idle then writerAccept s else writerBusyStep s)

/-- RD idle: the word presented on RCMD, if any, leaves the port and runs (R66, R71, R131, R156). -/
def readerAccept (s : State) : Res :=
  match s.env.rcmd with
  | [] => .next s
  | word :: rest => exec (decodeRcmd word) { s with env := { s.env with rcmd := rest } }

/-- R133: a complete header runs as the instruction it is; a length stage that ended short fails. -/
def lengthStageEnded (s : State) : Res :=
  if headerDone s then exec (headerInstr s) s else .next (lengthFailed s)

/-- R135 or R136. -/
def payloadStageEnded (s : State) : State :=
  if s.r.rx.kind = .kComplete then payloadReceived s else payloadFailed s

/-- RD takes its enabled step, if it has one. Waiting for the allocator it has none (R104, R134). Outside a stage no step is the
engine's, whatever an XFER_RX run by itself has started (DESIGN CHOICE, assumption 16). -/
def readerStep (s : State) : Res :=
  running s
    (match s.r.ph with
      | .idle => readerAccept s
      | .first => rxStage (.next (firstEnded s)) s
      | .len => rxStage (lengthStageEnded s) s
      | .alloc => .next s
      | .pay => rxStage (.next (payloadStageEnded s)) s)

/-! ## Answers and ticks: steps with an input -/

/-- R94 where it is enabled; an answer to nothing is discarded (R190), and after the fatal stop none is consumed (R168). What the
transport does then is not shown: wire and streams stay as they are until a reset (DESIGN CHOICE, assumption 17). -/
def onTxAnswer (a : TxAnswer) (s : State) : Res :=
  if s.fatal = false ∧ s.w.wx.ph = .att then txAnswered a s else .next s

/-- R96 where it is enabled; an answer to nothing is discarded (R190), and after the fatal stop none is consumed (R168). What the
transport does then is not shown: WIRE_RX stays as it is until a reset (DESIGN CHOICE, assumption 17). -/
def onRxAnswer (a : RxAnswer) (s : State) : Res :=
  if s.fatal = false ∧ s.r.rx.ph = .att then rxAnswered a s else .next s

/-- R134 where it is enabled; an answer to nothing is discarded (R190), and after the fatal stop none is consumed (R168). What
the allocator does then is not shown: the pool stays as it is until a reset (DESIGN CHOICE, assumption 17). -/
def onAllocAnswer (a : AllocAnswer) (s : State) : Res :=
  if s.fatal = false ∧ s.r.ph = .alloc then allocAnswered a s else .next s

/-- R98 where it is enabled: ready wins over a tick (R99), and a tick in any other phase does nothing. -/
def onTick (s : State) : State :=
  if s.fatal = false ∧ s.r.rx.ph = .wait ∧ s.env.rxReady = false then rxTick Config.rxTimeoutTicks s else s

/-! ## Reset (R190) -/

/-- The requests outstanding now, which a reset forgets. -/
def outstanding (s : State) : List Request :=
  (if s.w.wx.ph = .att then [.tx s.env.offer] else []) ++
  ((if s.r.rx.ph = .att then [.rx s.r.rx.left] else []) ++
    (if s.r.ph = .alloc then [.alloc (allocSize s.r.len32).toNat] else []))

/-- Every register takes its value after reset, outstanding requests are forgotten, nothing is issued, and neither the wire nor
storage is touched (R190, R192). -/
def resetBlock (s : State) : State :=
  { State.reset with env := { s.env with offer := [], forgotten := s.env.forgotten ++ outstanding s } }

/-- A forgotten request is answered at last: the block discards the answer; what the transport or the allocator did stands
(R41, R42, R47, R190; DEDUCED, assumption 7). -/
def lateAnswered (i : Nat) (a : LateAnswer) (s : State) : Res :=
  let s' := { s with env := { s.env with forgotten := s.env.forgotten.eraseIdx i } }
  match s.env.forgotten[i]?, a with
  | none, _ => .next s
  | some _, .nothing => .next s'
  | some (.tx bytes), .moved k =>
    if bytes.length < k then .refused .txAnswerOutOfRange
    else .next { s' with env := { s'.env with wireTx := s.env.wireTx ++ bytes.take k } }
  | some (.rx n), .moved k =>
    if n < k then .refused .rxAnswerOutOfRange
    else if s.env.wireRx.length < k then .refused .rxAnswerBeyondStream
    else .next { s' with env := { s'.env with wireRx := s.env.wireRx.drop k } }
  | some (.alloc n), .ok h =>
    if (poolSize s.env.pool h).isSome ∨ h ∈ s.live then .refused .allocHandleInUse
    else .next { s' with env := { s'.env with pool := (h, n) :: s.env.pool, rxbuf := Memory.drop s.env.rxbuf h } }
  | some (.tx _), .ok _ => .next s'
  | some (.rx _), .ok _ => .next s'
  | some (.alloc _), .moved _ => .next s'

/-- The handle names storage that the reader or the host holds (R24, R14). -/
def heldHandle (s : State) (h : Handle) : Bool := s.live.contains h || (s.r.hv && s.r.h == h)

/-- R192 b: the platform takes back the storage that a reset has left without an owner (DEDUCED, assumption 11). -/
def reclaimPool (s : State) : State :=
  { s with
    env := { s.env with
      pool := s.env.pool.filter fun p => heldHandle s p.1
      rxbuf := s.env.rxbuf.filter fun c => heldHandle s (BitVec.ofNat 64 (c.1 / 4294967296)) } }

/-! ## The host's bytes -/

/-- The host writes a byte of the token store. While WR has a command, a value that is overwritten is remembered: a `TokRead` may
still yield it (R201, U12; assumption 12). -/
def placeByte (base : Handle) (index : Len) (value : Byte) (s : State) : State :=
  let a := cellAddr base index.toNat
  { s with
    env := { s.env with
      toksrc := Memory.write s.env.toksrc a value
      older :=
        match Memory.read s.env.toksrc a with
        | none => s.env.older
        | some old => if s.w.ph = .idle ∨ old = value then s.env.older else (a, old) :: s.env.older } }

/-- The host writes a byte of received storage that it owns (R44, R176; DESIGN CHOICE, assumption 14). Any other storage it must
not touch, and the block does not check that (R202, U2): such a host is refused. -/
def hostWrites (h : Handle) (index : Len) (value : Byte) (s : State) : Res :=
  if h ∈ s.live ∧ storageHolds s.env.pool h index.toNat 1 = true then
    .next { s with env := { s.env with rxbuf := Memory.write s.env.rxbuf (cellAddr h index.toNat) value } }
  else .refused .storageNotTheHosts

/-! ## Events -/

/-- What one event does. The environment's own events touch no register but DIAG_EN (R28). WR and RD may both be busy, and the
attempts of both are answered, as over a duplex transport: the block does not check it (R53, R182, R200, U13; DESIGN CHOICE,
assumption 15). The host writes its received storage at any time (R40, R176; DESIGN CHOICE, assumption 14). -/
def handle (e : Event) (s : State) : Res :=
  match e with
  | .wr => writerStep s
  | .rd => readerStep s
  | .txAnswer a => onTxAnswer a s
  | .rxAnswer a => onRxAnswer a s
  | .allocAnswer a => onAllocAnswer a s
  | .tick => .next (onTick s)
  | .rxReady ready => .next { s with env := { s.env with rxReady := ready } }
  | .arrive bytes => .next { s with env := { s.env with wireRx := s.env.wireRx ++ bytes } }
  | .presentW word => .next { s with env := { s.env with wcmd := s.env.wcmd ++ [word] } }
  | .presentR word => .next { s with env := { s.env with rcmd := s.env.rcmd ++ [word] } }
  | .writeDiag on => .next { s with diagEn := on }
  | .placeTok base index value => .next (placeByte base index value s)
  | .hostWrite h index value => hostWrites h index value s
  | .reset => .next (resetBlock s)
  | .lateAnswer i a => lateAnswered i a s
  | .reclaim => .next (reclaimPool s)

/-- Takes the next event: the head of the script, or the free event of this turn (DESIGN CHOICE, assumption 3). -/
def takeEvent (s : State) : Event × State :=
  match s.env.script with
  | e :: rest => (e, { s with env := { s.env with script := rest } })
  | [] => (Config.freeEvent s.env.turn, { s with env := { s.env with turn := s.env.turn + 1 } })

/-- The events of a list, one after another, stopping at the first fault or refusal. -/
def handleAll : List Event → State → Res
  | [], s => .next s
  | e :: es, s =>
    match handle e s with
    | .next s' => handleAll es s'
    | .fault f => .fault f
    | .refused r => .refused r

/-! ## Placing an instruction for the next step -/

/-- A word is presented on WCMD to an idle WR, which steps next. -/
def placeWcmd (word : WcmdWord) (s : State) : State :=
  { s with
    w := { s.w with ph := .idle }
    env := { s.env with wcmd := word :: s.env.wcmd, script := .wr :: s.env.script } }

/-- A word is presented on RCMD to an idle RD, which steps next. -/
def placeRcmd (word : RcmdWord) (s : State) : State :=
  { s with
    r := { s.r with ph := .idle }
    env := { s.env with rcmd := word :: s.env.rcmd, script := .rd :: s.env.script } }

/-- The staging registers hold a complete header (R132, R133) with the length stage complete, and RD steps next. -/
def placeHeader (zf : Bool) (flag : Byte) (len : Len) (s : State) : State :=
  let req : Len := if zf then 3#32 else 4#32
  { s with
    r := { s.r with
      ph := .len, b0 := flag, zf := zf, flag := flag, lenbuf := encBytes len,
      rx := { s.r.rx with ph := .done, req := req, cnt := req, kind := .kComplete } }
    env := { s.env with script := .rd :: s.env.script } }

/-- An instruction read by `decodeTableWord` is placed where the next step runs it. The internal operations have no word
(DESIGN CHOICE, assumption 9). -/
def placeInstr (i : Instr) (s : State) : State :=
  match i with
  | .frameZeroFlag len => placeHeader true 0#8 len s
  | .frameNonzeroFlag flag len => placeHeader false flag len s
  | .encBe32 _ => s
  | .decBe32 _ _ _ _ => s
  | .xferTx _ => s
  | .xferRx _ => s
  | i =>
    match encode i with
    | .wcmd word => placeWcmd word s
    | .rcmd word => placeRcmd word s
    | .wire _ => s
    | .internal _ _ => s

/-- The instruction `decodeTableWord nbits w`, if there is one, is placed for the next step. -/
def placeWord (nbits w : Nat) (s : State) : State :=
  match decodeTableWord nbits w with
  | none => s
  | some i => placeInstr i s

end Sys2Proof.Machine
end

