-- ==== Sys2Proof/Machine/Step.lean ====
section
/-! DEFINITION. One step of the machine: one event. -/

namespace Sys2Proof.Machine

/-- The next event is taken and handled. -/
def step (s : State) : Host.Outcome State Fault Refusal :=
  handle (takeEvent s).1 (takeEvent s).2

/-- The instruction that the opcode table's word stands for is placed where the next step runs it (DESIGN CHOICE, assumption 9). -/
def State.withFetchWord (s : State) (nbits w : Nat) : State :=
  placeWord nbits w s

end Sys2Proof.Machine
end

