-- ==== Sys2Proof/Machine/BigStep.lean ====
section
/-! DEFINITION. The big-step summary of the Reliable Transfer primitive (R105), and the events in which the engine's small steps
go through the same answers. -/

namespace Sys2Proof.Machine

/-- A Transfer Result: kind, bytes moved, and the error code where there is one (R102). -/
structure XferResult where
  kind : XKind
  cnt : Nat
  code : Option ErrCode
  deriving DecidableEq, Repr

/-- R105 for XFER_TX from `cnt` on: the result and the answers not consumed; `none` where the answers run out (R104) or an
answer is out of range (R101). The wire has got the first `cnt` bytes of the source. -/
def bigTx (req cnt : Nat) : List TxAnswer → Option (XferResult × List TxAnswer)
  | [] => if cnt = req then some (⟨.kComplete, cnt, none⟩, []) else none
  | a :: as =>
    if cnt = req then some (⟨.kComplete, cnt, none⟩, a :: as)
    else
      match a with
      | .err c => some (⟨.kError, cnt, some c⟩, as)
      | .moved 0 => some (⟨.kClosed, cnt, none⟩, as)
      | .moved (k + 1) => if req - cnt < k + 1 then none else bigTx req (cnt + (k + 1)) as

/-- One readiness wait and what follows it, in the notation of R77: `T`, or ready and an answer. -/
inductive RxTurn where
  | timeout
  | moved (d : List Byte)
  | err (c : ErrCode)
  deriving DecidableEq, Repr

/-- R105 for XFER_RX from `cnt` on: the result, the bytes delivered to the sink from `cnt` on, and the turns not consumed. -/
def bigRx (req cnt : Nat) : List RxTurn → Option (XferResult × List Byte × List RxTurn)
  | [] => if cnt = req then some (⟨.kComplete, cnt, none⟩, [], []) else none
  | a :: as =>
    if cnt = req then some (⟨.kComplete, cnt, none⟩, [], a :: as)
    else
      match a with
      | .timeout => some (⟨.kPartial, cnt, none⟩, [], as)
      | .err c => some (⟨.kError, cnt, some c⟩, [], as)
      | .moved [] => some (⟨.kClosed, cnt, none⟩, [], as)
      | .moved (b :: d) =>
        if req - cnt < d.length + 1 then none
        else
          match bigRx req (cnt + (d.length + 1)) as with
          | none => none
          | some (r, sunk, rest) => some (r, b :: d ++ sunk, rest)

/-- The events of one send attempt: WR offers, TXT answers. -/
def txTurnEvents (a : TxAnswer) : List Event := [.wr, .txAnswer a]

/-- The events of a send transfer; one that completes takes a last step to see it (R92). -/
def txEvents (r : XferResult) (as : List TxAnswer) : List Event :=
  as.flatMap txTurnEvents ++ if r.kind = .kComplete then [.wr] else []

/-- The events of one readiness wait and what follows it: RD arms the wait; it expires after RX_TIMEOUT_TICKS ticks without
readiness, or the bytes arrive, the transport is ready, RD asks and RXT answers. -/
def rxTurnEvents : RxTurn → List Event
  | .timeout => [.rd, .rxReady false] ++ List.replicate Config.rxTimeoutTicks .tick
  | .moved d => [.rd, .arrive d, .rxReady true, .rd, .rxAnswer (.moved d.length)]
  | .err c => [.rd, .rxReady true, .rd, .rxAnswer (.err c)]

/-- The events of a receive transfer; one that completes takes a last step to see it (R92). -/
def rxEvents (r : XferResult) (as : List RxTurn) : List Event :=
  as.flatMap rxTurnEvents ++ if r.kind = .kComplete then [.rd] else []

end Sys2Proof.Machine
end

