-- ==== Sys2Proof/Safety.lean ====
section
/-! DEFINITION. The terms claims are stated in: invariants of the machine, the end of a run, what a unit can see, what was
issued. -/

namespace Sys2Proof.Machine

/-! ## Byte spaces and storage -/

/-- Both addressed byte spaces are in canonical form. -/
def MemoryCanonical (s : State) : Prop :=
  Memory.wf s.env.toksrc = true ∧ Memory.wf s.env.rxbuf = true

/-- R14, R24, R47, R48: LIVE has no repeats and names allocated storage; the reader holds a buffer exactly in `R_PAY`, and that
buffer is allocated at max(R_LEN32, 1) bytes and not in LIVE; no two entries of the pool name one handle. -/
def StorageOwned (s : State) : Prop :=
  s.live.Nodup ∧
  (s.env.pool.map Prod.fst).Nodup ∧
  (∀ h ∈ s.live, (poolSize s.env.pool h).isSome = true) ∧
  (s.r.hv = true ↔ s.r.ph = .pay) ∧
  (s.r.ph = .pay →
    poolSize s.env.pool s.r.h = some (allocSize s.r.len32).toNat ∧ s.r.h ∉ s.live)

/-- R14: LIVE has at most MAX_LIVE members, and fewer while RD is going to add one. -/
def WithinCapacity (s : State) : Prop :=
  ∀ m, Config.maxLive = some m →
    s.live.length ≤ m ∧ (s.r.ph = .alloc ∨ s.r.ph = .pay → s.live.length < m)

/-! ## The units -/

/-- R18, R91 to R98, R102: the engine's registers fit its phase. `busy` says that its unit is in a stage. -/
def EngineFits (busy : Prop) (e : Engine) : Prop :=
  e.cnt ≤ e.req ∧
  (e.ph = .check → busy ∧ e.kind = .kNone) ∧
  (e.ph = .wait → busy ∧ e.kind = .kNone ∧ e.cnt < e.req) ∧
  (e.ph = .att → busy ∧ e.kind = .kNone ∧ e.cnt < e.req) ∧
  (e.ph = .done → busy → e.kind ≠ .kNone) ∧
  (e.kind = .kComplete → e.cnt = e.req) ∧
  (e.kind = .kPartial ∨ e.kind = .kClosed ∨ e.kind = .kError → e.cnt < e.req)

/-- WR is in a stage. -/
def writerMoving (s : State) : Prop := s.w.ph = .flag ∨ s.w.ph = .len ∨ s.w.ph = .pay

/-- RD is in a stage. -/
def readerMoving (s : State) : Prop := s.r.ph = .first ∨ s.r.ph = .len ∨ s.r.ph = .pay

/-- R11, R12, R16, R17, R91 to R94, R102, R107, R111 to R114: WR's registers fit its phase. -/
def WriterFits (s : State) : Prop :=
  EngineFits (writerMoving s) s.w.wx ∧
  (s.fatal = true ↔ s.w.ph = .halt) ∧
  s.w.wx.ph ≠ .wait ∧
  s.w.wx.kind ≠ .kPartial ∧
  (s.w.wx.ph = .att → s.env.offer.length = s.w.wx.left) ∧
  (s.w.ph ≠ .idle → s.w.fb = s.w.flagIn.setWidth 8) ∧
  (s.w.ph = .flag → s.w.wx.req = 1#32 ∧ s.w.flagIn ≠ 0#32) ∧
  (s.w.ph = .len ∨ s.w.ph = .pay →
    s.w.tlen.toNat ≤ 4294967295 ∧ s.w.lenbuf = encBytes (s.w.tlen.setWidth 32)) ∧
  (s.w.ph = .len → s.w.wx.req = 4#32) ∧
  (s.w.ph = .pay → s.w.wx.req = s.w.tlen.setWidth 32)

/-- R11, R21, R22, R64, R91 to R98, R102, R107, R131 to R134: RD's registers fit its phase. -/
def ReaderFits (s : State) : Prop :=
  EngineFits (readerMoving s) s.r.rx ∧
  (s.r.ph = .first → s.r.rx.req = 1#32) ∧
  (s.r.ph = .len → s.r.rx.req = if s.r.zf then 3#32 else 4#32) ∧
  (s.r.ph = .len ∨ s.r.ph = .alloc ∨ s.r.ph = .pay →
    (s.r.zf = true → s.r.flag = 0#8 ∧ s.r.lenbuf.b0 = 0#8) ∧ (s.r.zf = false → s.r.flag ≠ 0#8)) ∧
  (s.r.ph = .alloc ∨ s.r.ph = .pay → s.r.len32 = decBytes s.r.lenbuf) ∧
  (s.r.ph = .pay → s.r.rx.req = s.r.len32) ∧
  (s.r.rx.ph = .wait → s.r.tmr < Config.rxTimeoutTicks) ∧
  s.r.tmr ≤ Config.rxTimeoutTicks

/-! ## Sources and streams (R107, R139) -/

/-- The values that `Src(i)` of R107 may yield, by the phase of WR: one, but for a token byte that the host has changed since
the accept (R201, U12); none where there is no such byte. -/
def srcValues (s : State) (i : Nat) : List Byte :=
  match s.w.ph with
  | .flag => [s.w.fb][i]?.toList
  | .len => s.w.lenbuf.toList[i]?.toList
  | .pay => tokValues s i
  | .idle => []
  | .chk => []
  | .halt => []

/-- The size of the header in the staging registers (R64). -/
def headerSize (s : State) : Nat := if s.r.zf then 4 else 5

/-- How many bytes of WIRE_RX the RECV_TOKEN in progress has consumed (R139). -/
def consumed (s : State) : Nat :=
  match s.r.ph with
  | .idle => 0
  | .first => s.r.rx.cnt.toNat
  | .len => 1 + s.r.rx.cnt.toNat
  | .alloc => headerSize s
  | .pay => headerSize s + s.r.rx.cnt.toNat

/-! ## What was sent (R118) -/

/-- The bytes of the stages before the one in progress. -/
def stagesBefore (s : State) : List Byte :=
  match s.w.ph with
  | .idle => []
  | .flag => []
  | .chk => flagBytes s.w.flagIn
  | .len => flagBytes s.w.flagIn
  | .pay => flagBytes s.w.flagIn ++ s.w.lenbuf.toList
  | .halt => flagBytes s.w.flagIn

/-- The bytes of the stage in progress (R107). `payload` is the token's bytes. -/
def stageBytes (payload : List Byte) (s : State) : List Byte :=
  match s.w.ph with
  | .flag => [s.w.fb]
  | .len => s.w.lenbuf.toList
  | .pay => payload
  | .idle => []
  | .chk => []
  | .halt => []

/-- The bytes of the current SEND_TOKEN that are on the wire by now: whole stages, and the first WX_CNT bytes of the stage in
progress (R118). -/
def sentSoFar (payload : List Byte) (s : State) : List Byte :=
  stagesBefore s ++ (stageBytes payload s).take s.w.wx.cnt.toNat

/-- WR is sending the token `payload`, unchanged since the accept, with the wire at `before` when the command was accepted; the
bytes of an outstanding offer are the rest of the stage. -/
def Sending (before payload : List Byte) (s : State) : Prop :=
  s.w.ph ≠ .idle ∧
  s.env.wireTx = before ++ sentSoFar payload s ∧
  (s.w.tlen.toNat ≤ 4294967295 → payload.length = s.w.tlen.toNat ∧
    ∀ i v, payload[i]? = some v →
      Memory.read s.env.toksrc (cellAddr s.w.tbase i) = some v ∧ tokValues s i = [v]) ∧
  (s.w.wx.ph = .att → s.env.offer = (stageBytes payload s).drop s.w.wx.cnt.toNat)

/-! ## What a unit can see (R5, R28, R53) -/

/-- Everything that WR reads or writes, but what it issues and the wire it only appends to. -/
def writerView (s : State) : Bool × Bool × Writer × List WcmdWord × List Byte × Memory × List Host.Cell × Nat :=
  (s.fatal, s.diagEn, s.w, s.env.wcmd, s.env.offer, s.env.toksrc, s.env.older, s.env.draws)

/-- Everything that RD reads or writes, but what it issues and the contents of receive storage, which it never reads (R44). -/
def readerView (s : State) : Bool × Bool × List Handle × Reader × List RcmdWord × Bool × List Byte × List (Handle × Nat) :=
  (s.fatal, s.diagEn, s.live, s.r, s.env.rcmd, s.env.rxReady, s.env.wireRx, s.env.pool)

/-- An event in which WR takes a step. -/
def Event.isWriters : Event → Bool
  | .wr => true
  | .txAnswer _ => true
  | _ => false

/-- An event in which RD takes a step. -/
def Event.isReaders : Event → Bool
  | .rd => true
  | .rxAnswer _ => true
  | .allocAnswer _ => true
  | .tick => true
  | _ => false

/-! ## What was issued -/

/-- A `Result(WR)`. -/
def Issue.isResultW : Issue → Bool
  | .resultW _ _ _ _ _ => true
  | _ => false

/-- A `Result(RD)`. -/
def Issue.isResultR : Issue → Bool
  | .resultR _ _ _ _ _ _ _ => true
  | _ => false

/-- A `Report`. -/
def Issue.isReport : Issue → Bool
  | .report _ _ _ _ => true
  | _ => false

/-- How many `Result(WR)` have been issued. -/
def resultsW (s : State) : Nat := s.env.out.countP Issue.isResultW

/-- How many `Result(RD)` have been issued. -/
def resultsR (s : State) : Nat := s.env.out.countP Issue.isResultR

/-- How many `Report`s have been issued. -/
def reports (s : State) : Nat := s.env.out.countP Issue.isReport

/-- WR's command ended in `Fail` between the two states (R166). -/
def failedW (s t : State) : Bool :=
  s.w.ph != .idle && t.w.ph == .idle && (t.w.status == .stShortTransfer || t.w.status == .stTransportError)

/-- RD's command ended in `Fail` between the two states (R166). -/
def failedR (s t : State) : Bool :=
  s.r.ph != .idle && t.r.ph == .idle && (t.r.status == .stShortTransfer || t.r.status == .stTransportError)

/-! ## The end of a run -/

/-- R208: both units idle, no command word presented, FATAL = 0. -/
def runOver (s : State) : Bool :=
  s.w.ph == .idle && s.r.ph == .idle && s.env.wcmd.isEmpty && s.env.rcmd.isEmpty && !s.fatal

end Sys2Proof.Machine
end

