-- ==== Sys2Proof/Certificates/Slice0/Obligations.lean ====
section
/-! DEFINITION. The statements for the provers. Each docstring cites the rules it formalises. -/

open Sys2Proof Sys2Proof.Machine

/-! ## Encoding -/

/-- Words written out from R67 to R71 and headers from R61 decode to what they stand for (95_test_vectors.md V-C1 to V-C6, P1,
P6, V-W4), and every named code has its number (R11, R18, R72, R73, R76). A sanity statement. -/
def Obligations.WordsOfTheVectorsDecode : Prop :=
  decode (.wcmd 0x00000000000004000000000000000001000000059#162) = .ok (.sendToken 0x16#32 4#64 0x1000#64) ∧
  decode (.rcmd 0x0000000200000000000028007#99) = .ok (.releaseToken true 0x5000#64 4#32) ∧
  decode (.rcmd 0x0000000000000000000000003#99) = .ok (.releaseToken false 0#64 0#32) ∧
  decode (.rcmd 0x7FFFFFFFFFFFFFFFFFFFFFFFE#99) = .ok .recvToken ∧
  decode (.wcmd 0x0#162) = .ok .illegalWcmdOp00 ∧
  decode (.rcmd 0x59#99) = .ok .illegalRcmdOp01 ∧
  decode (.wire [0x16#8, 0#8, 0#8, 0#8, 4#8]) = .ok (.frameNonzeroFlag 0x16#8 4#32) ∧
  decode (.wire [0#8, 0x10#8, 0#8, 0#8]) = .ok (.frameZeroFlag 0x100000#32) ∧
  ([.idle, .flag, .chk, .len, .pay, .halt] : List WPhase).map WPhase.code = [0#3, 1#3, 2#3, 3#3, 4#3, 7#3] ∧
  ([.idle, .first, .len, .alloc, .pay] : List RPhase).map RPhase.code = [0#3, 1#3, 2#3, 3#3, 4#3] ∧
  ([.check, .wait, .att, .done] : List EPhase).map EPhase.code = [0#2, 1#2, 2#2, 3#2] ∧
  ([.kNone, .kComplete, .kPartial, .kClosed, .kError] : List XKind).map XKind.code = [0#3, 1#3, 2#3, 3#3, 4#3] ∧
  ([.stNone, .stOk, .stTransportError, .stShortTransfer, .stAllocFailure, .stOversized, .stReleaseError,
    .stBadCommand] : List Status).map Status.code = [0#3, 1#3, 2#3, 3#3, 4#3, 5#3, 6#3, 7#3] ∧
  ([.stgNone, .stgFlag, .stgLength, .stgPayload] : List Stage).map Stage.code = [0#2, 1#2, 2#2, 3#2] ∧
  ([.wr, .rd] : List UnitId).map UnitId.code = [0#1, 1#1]

/-- R61, R63, R67 to R71, R80, R81: decoding an encoded well-formed instruction gives it back, with every operand at every value
the encoding admits. -/
def Obligations.DecodeEncodeIsIdentity : Prop :=
  ∀ i : Instr, i.wellFormed = true → decode (encode i) = .ok i

/-- The other direction, where every bit is an operand (R61, R68, R70): a SEND_TOKEN word, a RELEASE_TOKEN word or a header is
the encoding of what it decodes to. -/
def Obligations.EncodeDecodeIsIdentity : Prop :=
  (∀ w : WcmdWord, w.extractLsb' 0 2 = 1#2 → encode (decodeWcmd w) = .wcmd w) ∧
  (∀ w : RcmdWord, w.extractLsb' 0 2 = 3#2 → encode (decodeRcmd w) = .rcmd w) ∧
  (∀ (bytes : List Byte) (i : Instr), decode (.wire bytes) = .ok i → encode i = .wire bytes)

/-- R64: with first byte b = 0 the header is 4 bytes, b is the top byte of the length and the next 3 complete it; with b not 0
the header is 5 bytes, b is the flag and the next 4 are the length; no other byte influences framing. -/
def Obligations.HeaderFormatByFirstByte : Prop :=
  (∀ (b1 b2 b3 : Byte) (rest : List Byte), ∃ len : Len,
    decodeHeader (0#8 :: b1 :: b2 :: b3 :: rest) = .ok (.frameZeroFlag len, rest) ∧
    len.toNat = b1.toNat * 2 ^ 16 + b2.toNat * 2 ^ 8 + b3.toNat) ∧
  (∀ (b b1 b2 b3 b4 : Byte) (rest : List Byte), b ≠ 0#8 → ∃ len : Len,
    decodeHeader (b :: b1 :: b2 :: b3 :: b4 :: rest) = .ok (.frameNonzeroFlag b len, rest) ∧
    len.toNat = b1.toNat * 2 ^ 24 + b2.toNat * 2 ^ 16 + b3.toNat * 2 ^ 8 + b4.toNat)

/-- R138, its four rows: what the reader's rule makes of a frame the writer sent with flag operand f and payload p. Rows 1 and 2
are faithful, rows 3 and 4 misframe. -/
def Obligations.SentFrameReadBack : Prop :=
  ∀ (f : FlagIn) (p : List Byte), p.length < 2 ^ 32 →
    (f.extractLsb' 0 8 ≠ 0#8 →
      decodeHeader (frameBytes f p) =
        .ok (.frameNonzeroFlag (f.extractLsb' 0 8) (BitVec.ofNat 32 p.length), p)) ∧
    (f = 0#32 → p.length < 2 ^ 24 →
      decodeHeader (frameBytes f p) = .ok (.frameZeroFlag (BitVec.ofNat 32 p.length), p)) ∧
    (∀ (b : Byte) (q : List Byte), f = 0#32 → 2 ^ 24 ≤ p.length → p = b :: q →
      decodeHeader (frameBytes f p) =
        .ok (.frameNonzeroFlag (BitVec.ofNat 8 (p.length / 2 ^ 24))
          (BitVec.ofNat 32 (p.length % 2 ^ 24 * 256 + b.toNat)), q)) ∧
    (f ≠ 0#32 → f.extractLsb' 0 8 = 0#8 →
      decodeHeader (frameBytes f p) =
        .ok (.frameZeroFlag (BitVec.ofNat 32 (p.length / 256)), BitVec.ofNat 8 p.length :: p))

/-! ## The marshaller -/

/-- R80: `[(L >> 24) & 0xff, (L >> 16) & 0xff, (L >> 8) & 0xff, L & 0xff]` goes to `W_LENBUF` (that
the register is this one is the model's inference from R17 and R113: assumption 10; that it runs in any phase is the model's
choice: assumption 18) and nothing else changes. -/
def Obligations.EncodeLengthCompletes : Prop :=
  ∀ (l : Len) (s : State), s.fatal = false →
    exec (.encBe32 l) s = .next { s with
      w := { s.w with
        lenbuf := ⟨((l >>> 24) &&& 0xff#32).setWidth 8, ((l >>> 16) &&& 0xff#32).setWidth 8,
          ((l >>> 8) &&& 0xff#32).setWidth 8, (l &&& 0xff#32).setWidth 8⟩ } }

/-- R81: `b[0] * 2^24 + b[1] * 2^16 + b[2] * 2^8 + b[3]` goes to `R_LEN32` (that the register
is this one is the model's inference from R23 and R133: assumption 10; that it runs in any phase is the model's choice:
assumption 18) and nothing else changes. -/
def Obligations.DecodeLengthCompletes : Prop :=
  ∀ (b0 b1 b2 b3 : Byte) (s : State), s.fatal = false → ∃ l : Len,
    l.toNat = b0.toNat * 2 ^ 24 + b1.toNat * 2 ^ 16 + b2.toNat * 2 ^ 8 + b3.toNat ∧
    exec (.decBe32 b0 b1 b2 b3) s = .next { s with r := { s.r with len32 := l } }

/-- R82: the two functions are inverse bijections, and both keep the order when byte sequences are compared
lexicographically. -/
def Obligations.MarshallerIsOrderBijection : Prop :=
  (∀ l : Len, decBytes (encBytes l) = l) ∧
  (∀ b : Be4, encBytes (decBytes b) = b) ∧
  (∀ l m : Len, l < m ↔ (encBytes l).toList < (encBytes m).toList) ∧
  (∀ b c : Be4, b.toList < c.toList ↔ decBytes b < decBytes c)

/-! ## Host commands -/

/-- R111: SEND_TOKEN is accepted by an idle WR: operands and `W_FB` are latched, the result registers are cleared, and the flag
stage is started if the whole flag operand is not 0, else skipped. Nothing else changes: no token byte is read, nothing reaches
the transport, no byte of memory changes. (The model's own list of older token bytes, of which R111 does not speak, is left open
here: assumption 12; SendingIsKept says what it holds.) -/
def Obligations.SendTokenAccepted : Prop :=
  ∀ (flag : FlagIn) (len : LenIn) (base : Handle) (s : State), s.fatal = false → s.w.ph = .idle →
    ∃ older : List Host.Cell, exec (.sendToken flag len base) s = .next { s with
      w := { s.w with
        flagIn := flag, tlen := len, tbase := base, fb := flag.extractLsb' 0 8,
        status := .stNone, stage := .stgNone, got := 0#32, exp := 0#32, errcode := 0#32,
        wx := if flag = 0#32 then s.w.wx else { s.w.wx with req := 1#32, cnt := 0#32, kind := .kNone, ph := .check },
        ph := if flag = 0#32 then .chk else .flag }
      env := { s.env with older := older } }

/-- R131: RECV_TOKEN is accepted by an idle RD: the result registers are cleared and the first-byte stage is started. Nothing
else changes. -/
def Obligations.RecvTokenAccepted : Prop :=
  ∀ s : State, s.fatal = false → s.r.ph = .idle →
    exec .recvToken s = .next { s with
      r := { s.r with
        status := .stNone, stage := .stgNone, got := 0#32, exp := 0#32, errcode := 0#32, flagOut := 0#8,
        tok := ⟨false, 0#64, 0#32⟩, hv := false,
        rx := { s.r.rx with req := 1#32, cnt := 0#32, kind := .kNone, ph := .check }, ph := .first } }

/-- R151, R153, R156: RELEASE_TOKEN of an empty descriptor ends `ST_OK`, of a valid one whose handle is not live
`ST_RELEASE_ERROR`; neither issues Free or changes LIVE or anything but the result registers. -/
def Obligations.ReleaseWithoutFree : Prop :=
  ∀ (valid : Bool) (h : Handle) (l : Len) (s : State), s.fatal = false → s.r.ph = .idle →
    (valid = true → h ∉ s.live) →
    exec (.releaseToken valid h l) s = .next { s with
      r := { s.r with
        status := if valid = true then .stReleaseError else .stOk
        stage := .stgNone, got := 0#32, exp := 0#32, errcode := 0#32, flagOut := 0#8, tok := ⟨false, 0#64, 0#32⟩ }
      env := { s.env with
        out := s.env.out ++
          [.resultR (if valid = true then .stReleaseError else .stOk) .stgNone 0#32 0#32 0#32 0#8
            ⟨false, 0#64, 0#32⟩] } }

/-- R152, R156: RELEASE_TOKEN of a live handle issues `Free(handle)`, takes the handle out of LIVE and ends `ST_OK`; the length
is compared with nothing. Other handles stay live and allocated, and every byte of other storage reads as before (that the
freed bytes have no value is the model's choice: assumption 4). -/
def Obligations.ReleaseOfLiveFrees : Prop :=
  ∀ (h : Handle) (l : Len) (s : State), s.fatal = false → s.r.ph = .idle → h ∈ s.live →
    ∃ (live : List Handle) (pool : List (Handle × Nat)) (rxbuf : Memory),
      exec (.releaseToken true h l) s = .next { s with
        live := live
        r := { s.r with
          status := .stOk, stage := .stgNone, got := 0#32, exp := 0#32, errcode := 0#32, flagOut := 0#8,
          tok := ⟨false, 0#64, 0#32⟩ }
        env := { s.env with
          pool := pool, rxbuf := rxbuf
          out := s.env.out ++
            [.free h, .resultR .stOk .stgNone 0#32 0#32 0#32 0#8 ⟨false, 0#64, 0#32⟩] } } ∧
      (∀ g, g ∈ live ↔ g ∈ s.live ∧ g ≠ h) ∧
      poolSize pool h = none ∧
      (∀ g, g ≠ h → poolSize pool g = poolSize s.env.pool g) ∧
      (∀ (g : Handle) (i : Len), g ≠ h →
        Memory.read rxbuf (cellAddr g i.toNat) = Memory.read s.env.rxbuf (cellAddr g i.toNat))

/-- R71, for each `op` a port does not serve: the unit's result registers get the no-result values with `ST_BAD_COMMAND`, one
`Result` is issued, the phase stays idle, and nothing else changes. -/
def Obligations.BadCommandOnlyReports : Prop :=
  ∀ (i : Instr) (s : State), s.fatal = false →
    (i = .illegalWcmdOp00 ∨ i = .illegalWcmdOp10 ∨ i = .illegalWcmdOp11 → s.w.ph = .idle →
      exec i s = .next { s with
        w := { s.w with status := .stBadCommand, stage := .stgNone, got := 0#32, exp := 0#32, errcode := 0#32 }
        env := { s.env with out := s.env.out ++ [.resultW .stBadCommand .stgNone 0#32 0#32 0#32] } }) ∧
    (i = .illegalRcmdOp00 ∨ i = .illegalRcmdOp01 → s.r.ph = .idle →
      exec i s = .next { s with
        r := { s.r with
          status := .stBadCommand, stage := .stgNone, got := 0#32, exp := 0#32, errcode := 0#32, flagOut := 0#8,
          tok := ⟨false, 0#64, 0#32⟩ }
        env := { s.env with
          out := s.env.out ++ [.resultR .stBadCommand .stgNone 0#32 0#32 0#32 0#8 ⟨false, 0#64, 0#32⟩] } })

/-- R26, R66: the status outputs `w_busy`, `r_busy`, `w_ready`, `r_ready` as functions of state. They govern the ports: a ready
unit's step takes the first word presented; a word presented to a busy unit is not accepted and stays presented, while the
unit's own step goes on. -/
def Obligations.StatusOutputsGovernPorts : Prop :=
  (∀ s : State,
    (s.wBusy = true ↔ s.w.ph ≠ .idle) ∧ (s.rBusy = true ↔ s.r.ph ≠ .idle) ∧
    (s.wReady = true ↔ s.w.ph = .idle ∧ s.fatal = false) ∧ (s.rReady = true ↔ s.r.ph = .idle ∧ s.fatal = false)) ∧
  (∀ (s : State) (word : WcmdWord) (words : List WcmdWord), s.wReady = true → s.env.wcmd = word :: words →
    ∃ t : State, handle .wr s = .next t ∧ t.env.wcmd = words) ∧
  (∀ (s : State) (word : RcmdWord) (words : List RcmdWord), s.rReady = true → s.env.rcmd = word :: words →
    ∃ t : State, handle .rd s = .next t ∧ t.env.rcmd = words) ∧
  (∀ s t : State, s.wBusy = true → handle .wr s = .next t → t.env.wcmd = s.env.wcmd) ∧
  (∀ s t : State, s.rBusy = true → handle .rd s = .next t → t.env.rcmd = s.env.rcmd)

/-! ## Wire headers -/

/-- R64, R133: a complete header resolves its flag (0 for a zero-flag header, else the first byte) and its length L; with
|LIVE| = MAX_LIVE the command ends in `ST_ALLOC_FAILURE` (no Alloc, no Report, no Free), else `Alloc(max(L, 1))` is issued and
RD waits for the answer. Nothing else changes, but that the header's operands stand in the staging registers (assumption 10). -/
def Obligations.CompleteHeaderTaken : Prop :=
  ∀ (i : Instr) (zf : Bool) (f : Byte) (l : Len) (s : State),
    (i = .frameZeroFlag l ∧ zf = true ∧ f = 0#8) ∨ (i = .frameNonzeroFlag f l ∧ zf = false) →
    s.fatal = false → s.r.ph = .len → s.r.rx.ph = .done → s.r.rx.kind = .kComplete →
    exec i s = .next
      (if Config.maxLive = some s.live.length then
        { s with
          r := { s.r with
            zf := zf, flag := f, lenbuf := encBytes l, len32 := l,
            status := .stAllocFailure, stage := .stgNone, got := 0#32, exp := if l = 0#32 then 1#32 else l,
            tok := ⟨false, 0#64, 0#32⟩, ph := .idle }
          env := { s.env with
            out := s.env.out ++
              [.resultR .stAllocFailure .stgNone 0#32 (if l = 0#32 then 1#32 else l) s.r.errcode s.r.flagOut
                ⟨false, 0#64, 0#32⟩] } }
      else
        { s with
          r := { s.r with zf := zf, flag := f, lenbuf := encBytes l, len32 := l, ph := .alloc }
          env := { s.env with out := s.env.out ++ [.alloc (if l = 0#32 then 1#32 else l)] } })

/-! ## Engines -/

/-- R91: XFER_TX and XFER_RX are started with the requested count in an engine that is not in a transfer: `E_REQ <- n;
E_CNT <- 0; E_KIND <- K_NONE; E_PH <- T_CHECK`, `E_CODE` left as it was, nothing else. (R91 is no step of its own: that it runs as
an instruction is assumption 10, that a transfer in progress is not restarted is assumption 8.) -/
def Obligations.TransferStarts : Prop :=
  ∀ (n : Len) (s : State), s.fatal = false →
    (s.w.wx.ph = .done →
      exec (.xferTx n) s = .next { s with
        w := { s.w with wx := { s.w.wx with req := n, cnt := 0#32, kind := .kNone, ph := .check } } }) ∧
    (s.r.rx.ph = .done →
      exec (.xferRx n) s = .next { s with
        r := { s.r with rx := { s.r.rx with req := n, cnt := 0#32, kind := .kNone, ph := .check } } })

/-- R92: with the count satisfied the transfer ends `K_COMPLETE` and nothing else happens, on either side; with `E_REQ` = 0 this
is the first step (R103). -/
def Obligations.SatisfiedTransferCompletes : Prop :=
  ∀ s : State, s.fatal = false →
    (writerMoving s → s.w.wx.ph = .check → s.w.wx.cnt = s.w.wx.req →
      handle .wr s = .next { s with w := { s.w with wx := { s.w.wx with kind := .kComplete, ph := .done } } }) ∧
    (readerMoving s → s.r.rx.ph = .check → s.r.rx.cnt = s.r.rx.req →
      handle .rd s = .next { s with r := { s.r with rx := { s.r.rx with kind := .kComplete, ph := .done } } })

/-- R93, R107: a send attempt offers `[Src(WX_CNT), ..., Src(WX_REQ - 1)]`, every byte not yet moved, and nothing else changes
(but the model's own counter of draws). Each source byte has one value, unless the host changed a token byte since the accept:
then it is any value the byte had. That such a change is modelled so and not refused, of U12's two treatments (R201), is the
model's choice: assumption 12. The premise that each byte is there leaves out token bytes the host never placed (R193 d), on
which the model faults: assumption 4. -/
def Obligations.SendAttemptOffersTheRest : Prop :=
  ∀ s : State, s.fatal = false → writerMoving s → s.w.wx.ph = .check → s.w.wx.cnt < s.w.wx.req →
    (∀ i, s.w.wx.cnt.toNat ≤ i → i < s.w.wx.req.toNat → srcValues s i ≠ []) →
    ∃ (bytes : List Byte) (draws : Nat),
      handle .wr s = .next { s with
        w := { s.w with wx := { s.w.wx with ph := .att } }
        env := { s.env with offer := bytes, draws := draws, out := s.env.out ++ [.txAttempt bytes] } } ∧
      bytes.length = s.w.wx.req.toNat - s.w.wx.cnt.toNat ∧
      ∀ j, j < bytes.length → ∃ v ∈ srcValues s (s.w.wx.cnt.toNat + j), bytes[j]? = some v

/-- R94: what each answer to a send attempt does: a short write is no ending, `Moved(0)` is `K_CLOSED`, `Err(c)` is `K_ERROR` with
the code; the wire gets exactly the bytes moved. Nothing else changes. -/
def Obligations.SendAttemptAnswered : Prop :=
  ∀ s : State, s.fatal = false → s.w.wx.ph = .att →
    (∀ k, 1 ≤ k → k ≤ s.w.wx.req.toNat - s.w.wx.cnt.toNat →
      handle (.txAnswer (.moved k)) s = .next { s with
        w := { s.w with wx := { s.w.wx with cnt := s.w.wx.cnt + BitVec.ofNat 32 k, ph := .check } }
        env := { s.env with offer := [], wireTx := s.env.wireTx ++ s.env.offer.take k } }) ∧
    handle (.txAnswer (.moved 0)) s = .next { s with
      w := { s.w with wx := { s.w.wx with kind := .kClosed, ph := .done } }
      env := { s.env with offer := [] } } ∧
    ∀ c, handle (.txAnswer (.err c)) s = .next { s with
      w := { s.w with wx := { s.w.wx with kind := .kError, code := c, ph := .done } }
      env := { s.env with offer := [] } }

/-- R95, R97: every receive attempt is preceded by a wait with the timer at 0, whatever earlier waits took; once `RxReady` = 1
the attempt asks for all bytes not yet moved. R104, R184, R198: a unit that waits has no enabled step, whether for
readiness, for the answer to an attempt of either engine, or for the allocator; there its turn changes nothing (that a turn
without an enabled step is such an event is the model's choice: assumptions 3 and 8). -/
def Obligations.AttemptFollowsFreshWait : Prop :=
  ∀ s : State, s.fatal = false →
    (readerMoving s → s.r.rx.ph = .check → s.r.rx.cnt < s.r.rx.req →
      handle .rd s = .next { s with r := { s.r with tmr := 0, rx := { s.r.rx with ph := .wait } } }) ∧
    (readerMoving s → s.r.rx.ph = .wait → s.env.rxReady = true →
      handle .rd s = .next { s with
        r := { s.r with rx := { s.r.rx with ph := .att } }
        env := { s.env with out := s.env.out ++ [.rxAttempt (s.r.rx.req.toNat - s.r.rx.cnt.toNat)] } }) ∧
    (readerMoving s → s.r.rx.ph = .wait → s.env.rxReady = false → handle .rd s = .next s) ∧
    (readerMoving s → s.r.rx.ph = .att → handle .rd s = .next s) ∧
    (s.r.ph = .alloc → handle .rd s = .next s) ∧
    (writerMoving s → s.w.wx.ph = .att → handle .wr s = .next s)

/-- R98, R99: a tick in a wait without readiness advances the timer or, at RX_TIMEOUT_TICKS, ends the transfer `K_PARTIAL` with
its count unchanged; a tick in any other engine phase, or with the transport ready, does nothing. -/
def Obligations.TickAdvancesOrExpires : Prop :=
  ∀ s : State, s.fatal = false →
    (s.r.rx.ph = .wait → s.env.rxReady = false → s.r.tmr + 1 < Config.rxTimeoutTicks →
      handle .tick s = .next { s with r := { s.r with tmr := s.r.tmr + 1 } }) ∧
    (s.r.rx.ph = .wait → s.env.rxReady = false → ¬ s.r.tmr + 1 < Config.rxTimeoutTicks →
      handle .tick s = .next { s with
        r := { s.r with tmr := Config.rxTimeoutTicks, rx := { s.r.rx with kind := .kPartial, ph := .done } } }) ∧
    (s.r.rx.ph ≠ .wait ∨ s.env.rxReady = true → handle .tick s = .next s)

/-- R96, R107: a receive attempt that moves the first byte puts it in `R_B0`; one that moves k length bytes puts them at
`R_LENBUF[RX_CNT + R_ZF ...]`, in order, and leaves the other elements alone. Nothing else changes. -/
def Obligations.StagingBytesReceived : Prop :=
  (∀ (s : State) (b : Byte) (rest : List Byte), s.fatal = false → s.r.ph = .first → s.r.rx.ph = .att →
    s.r.rx.cnt = 0#32 → 0#32 < s.r.rx.req → s.env.wireRx = b :: rest →
    handle (.rxAnswer (.moved 1)) s = .next { s with
      r := { s.r with b0 := b, rx := { s.r.rx with cnt := 1#32, ph := .check } }
      env := { s.env with wireRx := rest } }) ∧
  (∀ (s : State) (k : Nat), s.fatal = false → s.r.ph = .len → s.r.rx.ph = .att →
    1 ≤ k → k ≤ s.r.rx.req.toNat - s.r.rx.cnt.toNat → k ≤ s.env.wireRx.length →
    s.r.rx.req.toNat + s.r.zf.toNat = 4 →
    ∃ lenbuf : Be4,
      handle (.rxAnswer (.moved k)) s = .next { s with
        r := { s.r with
          lenbuf := lenbuf, rx := { s.r.rx with cnt := s.r.rx.cnt + BitVec.ofNat 32 k, ph := .check } }
        env := { s.env with wireRx := s.env.wireRx.drop k } } ∧
      (∀ j, j < k → lenbuf.toList[s.r.rx.cnt.toNat + s.r.zf.toNat + j]? = s.env.wireRx[j]?) ∧
      (∀ i, i < s.r.rx.cnt.toNat + s.r.zf.toNat ∨ s.r.rx.cnt.toNat + s.r.zf.toNat + k ≤ i →
        lenbuf.toList[i]? = s.r.lenbuf.toList[i]?))

/-- R96, R107: a receive attempt that moves k payload bytes writes them at offsets RX_CNT to RX_CNT + k - 1 of the storage
`R_H`, in order; every other byte of RXBUF reads as before. -/
def Obligations.PayloadBytesReceived : Prop :=
  ∀ (s : State) (k n : Nat), s.fatal = false → s.r.ph = .pay → s.r.rx.ph = .att →
    1 ≤ k → k ≤ s.r.rx.req.toNat - s.r.rx.cnt.toNat → k ≤ s.env.wireRx.length →
    poolSize s.env.pool s.r.h = some n → s.r.rx.req.toNat ≤ n →
    ∃ rxbuf : Memory,
      handle (.rxAnswer (.moved k)) s = .next { s with
        r := { s.r with rx := { s.r.rx with cnt := s.r.rx.cnt + BitVec.ofNat 32 k, ph := .check } }
        env := { s.env with wireRx := s.env.wireRx.drop k, rxbuf := rxbuf } } ∧
      (∀ j, j < k → Memory.read rxbuf (cellAddr s.r.h (s.r.rx.cnt.toNat + j)) = s.env.wireRx[j]?) ∧
      (∀ a, a < cellAddr s.r.h s.r.rx.cnt.toNat ∨ cellAddr s.r.h (s.r.rx.cnt.toNat + k) ≤ a →
        Memory.read rxbuf a = Memory.read s.env.rxbuf a)

/-- R96: `Moved(0, [])` ends a receive transfer `K_CLOSED`, `Err(c)` ends it `K_ERROR` with the code; nothing is consumed and
nothing else changes. -/
def Obligations.ReceiveAttemptEnds : Prop :=
  ∀ s : State, s.fatal = false → s.r.rx.ph = .att →
    handle (.rxAnswer (.moved 0)) s = .next { s with
      r := { s.r with rx := { s.r.rx with kind := .kClosed, ph := .done } } } ∧
    ∀ c, handle (.rxAnswer (.err c)) s = .next { s with
      r := { s.r with rx := { s.r.rx with kind := .kError, code := c, ph := .done } } }

/-- R101: an answer that moves more bytes than were offered or asked for is refused. -/
def Obligations.OversizedAnswersRefused : Prop :=
  (∀ (s : State) (k : Nat), s.fatal = false → s.w.wx.ph = .att → s.w.wx.req.toNat - s.w.wx.cnt.toNat < k →
    handle (.txAnswer (.moved k)) s = .refused .txAnswerOutOfRange) ∧
  (∀ (s : State) (k : Nat), s.fatal = false → s.r.rx.ph = .att → s.r.rx.req.toNat - s.r.rx.cnt.toNat < k →
    handle (.rxAnswer (.moved k)) s = .refused .rxAnswerOutOfRange)

/-! ## The failure procedure and the sequencers -/

/-- R166, R172: `Fail` of either unit writes the status by the kind, the code only for `K_ERROR`, the stage and the two counts;
issues `Report` if DIAG_EN = 1 and then `Result`; and the unit is idle. Nothing else changes. -/
def Obligations.FailRecordsAndReturnsToIdle : Prop :=
  ∀ (k : XKind) (stage : Stage) (got exp : Len) (code : ErrCode) (s : State),
    fail .wr k stage got exp code s =
      { s with
        w := { s.w with
          status := if k = .kError then .stTransportError else .stShortTransfer
          errcode := if k = .kError then code else 0#32
          stage := stage, got := got, exp := exp, ph := .idle }
        env := { s.env with
          out := s.env.out ++ (if s.diagEn = true then [.report .wr stage got exp] else []) ++
            [.resultW (if k = .kError then .stTransportError else .stShortTransfer) stage got exp
              (if k = .kError then code else 0#32)] } } ∧
    fail .rd k stage got exp code s =
      { s with
        r := { s.r with
          status := if k = .kError then .stTransportError else .stShortTransfer
          errcode := if k = .kError then code else 0#32
          stage := stage, got := got, exp := exp, ph := .idle }
        env := { s.env with
          out := s.env.out ++ (if s.diagEn = true then [.report .rd stage got exp] else []) ++
            [.resultR (if k = .kError then .stTransportError else .stShortTransfer) stage got exp
              (if k = .kError then code else 0#32) s.r.flagOut s.r.tok] } }

/-- R112, R114, R115: WR's sequencer at the end of each stage: the next stage on `K_COMPLETE`, `Fail` with the stage's counts
otherwise, `ST_OK` and `Result(WR)` after the payload. -/
def Obligations.WriterStagesEnd : Prop :=
  ∀ s : State, s.fatal = false → s.w.wx.ph = .done →
    (s.w.ph = .flag →
      handle .wr s = .next
        (if s.w.wx.kind = .kComplete then { s with w := { s.w with ph := .chk } }
        else fail .wr s.w.wx.kind .stgFlag s.w.wx.cnt 1#32 s.w.wx.code s)) ∧
    (s.w.ph = .len →
      handle .wr s = .next
        (if s.w.wx.kind = .kComplete then
          { s with
            w := { s.w with
              ph := .pay, wx := { s.w.wx with req := s.w.tlen.extractLsb' 0 32, cnt := 0#32, kind := .kNone, ph := .check } } }
        else fail .wr s.w.wx.kind .stgLength s.w.wx.cnt 4#32 s.w.wx.code s)) ∧
    (s.w.ph = .pay →
      handle .wr s = .next
        (if s.w.wx.kind = .kComplete then
          { s with
            w := { s.w with status := .stOk, ph := .idle }
            env := { s.env with
              out := s.env.out ++ [.resultW .stOk s.w.stage s.w.got s.w.exp s.w.errcode] } }
        else fail .wr s.w.wx.kind .stgPayload s.w.wx.cnt (s.w.tlen.extractLsb' 0 32) s.w.wx.code s))

/-- R113, R168: the oversize test: a token longer than 2^32-1 sets FATAL, with `ST_OVERSIZED` and `Result(WR)` and no Report, and
sends nothing; any other has its length encoded and the length stage started. -/
def Obligations.OversizeTestDecides : Prop :=
  ∀ s : State, s.fatal = false → s.w.ph = .chk →
    (2 ^ 32 - 1 < s.w.tlen.toNat →
      handle .wr s = .next { s with
        fatal := true
        w := { s.w with status := .stOversized, stage := .stgNone, got := 0#32, exp := 0#32, ph := .halt }
        env := { s.env with out := s.env.out ++ [.resultW .stOversized .stgNone 0#32 0#32 s.w.errcode] } }) ∧
    (s.w.tlen.toNat ≤ 2 ^ 32 - 1 →
      handle .wr s = .next { s with
        w := { s.w with
          lenbuf := ⟨s.w.tlen.extractLsb' 24 8, s.w.tlen.extractLsb' 16 8, s.w.tlen.extractLsb' 8 8,
            s.w.tlen.extractLsb' 0 8⟩
          ph := .len, wx := { s.w.wx with req := 4#32, cnt := 0#32, kind := .kNone, ph := .check } } })

/-- R132: the first byte ended: `Fail` if it is not there; a zero byte is the top length byte of a zero-flag frame with 3 to
come; any other is the flag with 4 to come. -/
def Obligations.FirstByteDecidesFormat : Prop :=
  ∀ s : State, s.fatal = false → s.r.ph = .first → s.r.rx.ph = .done →
    (s.r.rx.kind ≠ .kComplete →
      handle .rd s = .next (fail .rd s.r.rx.kind .stgFlag s.r.rx.cnt 1#32 s.r.rx.code s)) ∧
    (s.r.rx.kind = .kComplete → s.r.b0 = 0#8 →
      handle .rd s = .next { s with
        r := { s.r with
          zf := true, flag := 0#8, lenbuf := { s.r.lenbuf with b0 := 0#8 }, ph := .len,
          rx := { s.r.rx with req := 3#32, cnt := 0#32, kind := .kNone, ph := .check } } }) ∧
    (s.r.rx.kind = .kComplete → s.r.b0 ≠ 0#8 →
      handle .rd s = .next { s with
        r := { s.r with
          zf := false, flag := s.r.b0, ph := .len,
          rx := { s.r.rx with req := 4#32, cnt := 0#32, kind := .kNone, ph := .check } } })

/-- R133: the length stage ended: `Fail` with 3 or 4 bytes expected if it is short, else the header in the staging registers
runs: the instruction is the one `decodeHeader` reads from the header's bytes. -/
def Obligations.HeaderRunsWhenComplete : Prop :=
  ∀ s : State, s.fatal = false → s.r.ph = .len → s.r.rx.ph = .done →
    (s.r.rx.kind ≠ .kComplete →
      handle .rd s = .next
        (fail .rd s.r.rx.kind .stgLength s.r.rx.cnt (if s.r.zf = true then 3#32 else 4#32) s.r.rx.code s)) ∧
    (s.r.rx.kind = .kComplete → ReaderFits s →
      ∃ i : Instr, handle .rd s = exec i s ∧ i.wellFormed = true ∧
        decode (.wire ((if s.r.zf = true then [] else [s.r.flag]) ++ s.r.lenbuf.toList)) = .ok i)

/-- R134, R47: the allocator's answer: a fresh handle is held and the payload stage is started, over storage of max(L, 1) bytes
(that each of its bytes then reads none is the model's choice for contents R47 does not define: assumption 4); `NoMem` ends the
command in `ST_ALLOC_FAILURE` without Report or Free. -/
def Obligations.AllocatorAnswered : Prop :=
  ∀ s : State, s.fatal = false → s.r.ph = .alloc →
    (∀ h : Handle, poolSize s.env.pool h = none → h ∉ s.live → ∃ rxbuf : Memory,
      handle (.allocAnswer (.ok h)) s = .next { s with
        r := { s.r with
          h := h, hv := true, ph := .pay,
          rx := { s.r.rx with req := s.r.len32, cnt := 0#32, kind := .kNone, ph := .check } }
        env := { s.env with
          rxbuf := rxbuf, pool := (h, max s.r.len32.toNat 1) :: s.env.pool } } ∧
      (∀ i : Len, Memory.read rxbuf (cellAddr h i.toNat) = none) ∧
      (∀ (g : Handle) (i : Len), g ≠ h →
        Memory.read rxbuf (cellAddr g i.toNat) = Memory.read s.env.rxbuf (cellAddr g i.toNat))) ∧
    handle (.allocAnswer .noMem) s = .next { s with
      r := { s.r with
        status := .stAllocFailure, stage := .stgNone, got := 0#32, exp := if s.r.len32 = 0#32 then 1#32 else s.r.len32,
        tok := ⟨false, 0#64, 0#32⟩, ph := .idle }
      env := { s.env with
        out := s.env.out ++
          [.resultR .stAllocFailure .stgNone 0#32 (if s.r.len32 = 0#32 then 1#32 else s.r.len32) s.r.errcode
            s.r.flagOut ⟨false, 0#64, 0#32⟩] } }

/-- R135: a complete payload passes to the host: the handle enters LIVE, the descriptor, the flag and `ST_OK` are written, and
`Result(RD)` is issued. Nothing else changes: no byte of RXBUF. -/
def Obligations.PayloadPassesToHost : Prop :=
  ∀ s : State, s.fatal = false → s.r.ph = .pay → s.r.rx.ph = .done → s.r.rx.kind = .kComplete →
    ∃ live : List Handle,
      handle .rd s = .next { s with
        live := live
        r := { s.r with
          tok := ⟨true, s.r.h, s.r.len32⟩, flagOut := s.r.flag, status := .stOk, hv := false, ph := .idle }
        env := { s.env with
          out := s.env.out ++
            [.resultR .stOk s.r.stage s.r.got s.r.exp s.r.errcode s.r.flag ⟨true, s.r.h, s.r.len32⟩] } } ∧
      ∀ g, g ∈ live ↔ g ∈ s.live ∨ g = s.r.h

/-- R136, R167: a payload that ended short: `Free(R_H)`, then `Fail` with the bytes received of the length declared; LIVE is
unchanged, `R_TOK` is not written, WIRE_RX gets nothing back. -/
def Obligations.FailedPayloadIsFreed : Prop :=
  ∀ s : State, s.fatal = false → s.r.ph = .pay → s.r.rx.ph = .done → s.r.rx.kind ≠ .kComplete →
    ∃ t : State,
      handle .rd s = .next t ∧
      t.r = { s.r with
        hv := false
        status := if s.r.rx.kind = .kError then .stTransportError else .stShortTransfer
        errcode := if s.r.rx.kind = .kError then s.r.rx.code else 0#32
        stage := .stgPayload, got := s.r.rx.cnt, exp := s.r.len32, ph := .idle } ∧
      t.w = s.w ∧ t.fatal = s.fatal ∧ t.diagEn = s.diagEn ∧ t.live = s.live ∧ t.env.wireRx = s.env.wireRx ∧
      t.env.wireTx = s.env.wireTx ∧ t.env.toksrc = s.env.toksrc ∧
      t.env.out = s.env.out ++ .free s.r.h ::
        (if s.diagEn = true then [.report .rd .stgPayload s.r.rx.cnt s.r.len32] else []) ++
        [.resultR (if s.r.rx.kind = .kError then .stTransportError else .stShortTransfer) .stgPayload s.r.rx.cnt
          s.r.len32 (if s.r.rx.kind = .kError then s.r.rx.code else 0#32) s.r.flagOut s.r.tok] ∧
      poolSize t.env.pool s.r.h = none ∧
      (∀ g, g ≠ s.r.h → poolSize t.env.pool g = poolSize s.env.pool g) ∧
      (∀ (g : Handle) (i : Len), g ≠ s.r.h →
        Memory.read t.env.rxbuf (cellAddr g i.toNat) = Memory.read s.env.rxbuf (cellAddr g i.toNat))

/-! ## Reset and the step -/

/-- R29, R191: the values the spec gives for reset. (The registers it leaves unspecified are not named here.) -/
def Obligations.ResetValuesOfTheSpec : Prop :=
  let s := State.reset
  s.fatal = false ∧ s.diagEn = true ∧ s.live = [] ∧ s.w.ph = .idle ∧ s.r.ph = .idle ∧
  s.w.wx.ph = .done ∧ s.r.rx.ph = .done ∧ s.w.wx.kind = .kNone ∧ s.r.rx.kind = .kNone ∧
  s.w.wx.req = 0#32 ∧ s.w.wx.cnt = 0#32 ∧ s.r.rx.req = 0#32 ∧ s.r.rx.cnt = 0#32 ∧ s.r.tmr = 0 ∧
  s.w.status = .stNone ∧ s.r.status = .stNone ∧ s.w.stage = .stgNone ∧ s.r.stage = .stgNone ∧
  s.w.got = 0#32 ∧ s.w.exp = 0#32 ∧ s.r.got = 0#32 ∧ s.r.exp = 0#32 ∧ s.w.errcode = 0#32 ∧
  s.r.errcode = 0#32 ∧ s.r.flagOut = 0#8 ∧ s.r.tok = ⟨false, 0#64, 0#32⟩ ∧ s.r.hv = false

/-- R190, R192: reset, in any state, gives every register its value after reset (the unspecified ones: assumption 1), forgets the
outstanding requests, issues nothing, and touches neither the wire, nor the token store, nor storage. -/
def Obligations.ResetStepRestoresRegisters : Prop :=
  ∀ s : State, ∃ t : State, handle .reset s = .next t ∧
    t.fatal = State.reset.fatal ∧ t.diagEn = State.reset.diagEn ∧ t.live = State.reset.live ∧
    t.w = State.reset.w ∧ t.r = State.reset.r ∧
    t.env = { s.env with offer := [], forgotten := t.env.forgotten } ∧
    ∀ a : TxAnswer, ∀ b : RxAnswer, ∀ c : AllocAnswer,
      handle (.txAnswer a) t = .next t ∧ handle (.rxAnswer b) t = .next t ∧ handle (.allocAnswer c) t = .next t

/-- A step takes the next event: the head of the script, which leaves it, or else the free event of this turn, whose counter
advances (assumption 3: the model's way of letting the environment and the agents act in any order, R53, R182). -/
def Obligations.StepTakesNextEvent : Prop :=
  (∀ (s : State) (e : Event) (rest : List Event), s.env.script = e :: rest →
    step s = handle e { s with env := { s.env with script := rest } }) ∧
  (∀ s : State, s.env.script = [] →
    step s = handle (Config.freeEvent s.env.turn) { s with env := { s.env with turn := s.env.turn + 1 } })

/-- R66, R67: when WR or RD, idle, takes its step with a word presented on its port, the step is `exec` of the instruction
decoded from the word, in the state with the event taken from the script and the word taken from the port. -/
def Obligations.StepRunsPresentedWord : Prop :=
  (∀ (s : State) (rest : List Event) (word : WcmdWord) (words : List WcmdWord),
    s.env.script = .wr :: rest → s.fatal = false → s.w.ph = .idle → s.env.wcmd = word :: words →
    ∃ i : Instr, decode (.wcmd word) = .ok i ∧
      step s = exec i { s with env := { s.env with script := rest, wcmd := words } }) ∧
  (∀ (s : State) (rest : List Event) (word : RcmdWord) (words : List RcmdWord),
    s.env.script = .rd :: rest → s.fatal = false → s.r.ph = .idle → s.env.rcmd = word :: words →
    ∃ i : Instr, decode (.rcmd word) = .ok i ∧
      step s = exec i { s with env := { s.env with script := rest, rcmd := words } })

/-- The host's writes (R40, R43, R44, R176, R201). A byte of storage it owns is written and no other byte; storage that is not a
live token's is refused (R202, U2). A byte of the token store is written at any time; in a send, the values that a `TokRead` of
it may yield are those it had since the accept, the new one among them (U12). That the host writes its storage, and that its
change of a token in a send is modelled and not refused, are the model's choices: assumptions 14 and 12. So is that bytes of
different handles or bases never overlap, by which every other cell keeps its byte (R50 gives no address map): assumption 4. -/
def Obligations.HostWritesItsBytes : Prop :=
  (∀ (h : Handle) (i : Len) (v : Byte) (n : Nat) (s : State), h ∈ s.live → poolSize s.env.pool h = some n → i.toNat < n →
    ∃ rxbuf : Memory,
      handle (.hostWrite h i v) s = .next { s with env := { s.env with rxbuf := rxbuf } } ∧
      Memory.read rxbuf (cellAddr h i.toNat) = some v ∧
      ∀ a, a ≠ cellAddr h i.toNat → Memory.read rxbuf a = Memory.read s.env.rxbuf a) ∧
  (∀ (h : Handle) (i : Len) (v : Byte) (s : State), h ∉ s.live →
    handle (.hostWrite h i v) s = .refused .storageNotTheHosts) ∧
  (∀ (b : Handle) (i : Len) (v : Byte) (s : State), ∃ (toksrc : Memory) (older : List Host.Cell),
    handle (.placeTok b i v) s = .next { s with env := { s.env with toksrc := toksrc, older := older } } ∧
    Memory.read toksrc (cellAddr b i.toNat) = some v ∧
    ∀ a, a ≠ cellAddr b i.toNat → Memory.read toksrc a = Memory.read s.env.toksrc a) ∧
  (∀ (i : Len) (v : Byte) (s t : State), s.w.ph ≠ .idle → handle (.placeTok s.w.tbase i v) s = .next t →
    (∀ u, u ∈ tokValues t i.toNat ↔ u = v ∨ u ∈ tokValues s i.toNat) ∧
    ∀ j : Len, j ≠ i → tokValues t j.toNat = tokValues s j.toNat)

/-! ## Rules of the whole machine -/

/-- R12, R168: while FATAL = 1 no instruction runs, neither agent takes a step, and no event but reset changes FATAL or a
register other than DIAG_EN. -/
def Obligations.FatalStopsTheBlock : Prop :=
  ∀ s : State, s.fatal = true →
    (∀ i : Instr, exec i s = .fault .fatalStop) ∧
    handle .wr s = .fault .fatalStop ∧ handle .rd s = .fault .fatalStop ∧
    ∀ (e : Event) (t : State), e ≠ .reset → handle e s = .next t →
      t.fatal = true ∧ t.live = s.live ∧ t.w = s.w ∧ t.r = s.r

/-- R12: FATAL is set by the writer's oversize test and by nothing else, in any step of the machine. -/
def Obligations.OnlyOversizeSetsFatal : Prop :=
  ∀ s t : State, step s = .next t → s.fatal = false → t.fatal = true →
    (takeEvent s).1 = .wr ∧ s.w.ph = .chk ∧ 2 ^ 32 - 1 < s.w.tlen.toNat

/-- R5, R28, R53: a step of WR changes no register of RD, neither LIVE nor DIAG_EN, nothing at RD's port or stream and no
storage; a step of RD changes no register of WR, neither FATAL nor DIAG_EN, nothing at WR's port or wire; neither writes the
token store or RxReady. An event of the environment, but reset, changes no register other than DIAG_EN, which the host's write
sets (R13) and nothing else; it issues nothing; and each of the other spaces is changed by its own events only: a port by a word
presented, which goes behind those that stay presented (R66; that they stand in a list is assumption 13), RxReady by its level,
WIRE_RX by bytes arriving, which go to the back (R42), and otherwise, as WIRE_TX, only by the late answer of assumption 7; TOKSRC
by the host's placing; RXBUF by the host's write (assumption 14); RXBUF and the pool by a late answer or a reclaim (assumption
11). The storage of a live token stays allocated and keeps its bytes but those the host writes (R47; assumption 4). -/
def Obligations.RegistersHaveTheirWriters : Prop :=
  ∀ (e : Event) (s t : State), handle e s = .next t →
    (Event.isWriters e = true →
      t.r = s.r ∧ t.live = s.live ∧ t.diagEn = s.diagEn ∧ t.env.rcmd = s.env.rcmd ∧ t.env.wireRx = s.env.wireRx ∧
      t.env.rxbuf = s.env.rxbuf ∧ t.env.pool = s.env.pool ∧ t.env.toksrc = s.env.toksrc ∧
      t.env.rxReady = s.env.rxReady) ∧
    (Event.isReaders e = true →
      t.w = s.w ∧ t.fatal = s.fatal ∧ t.diagEn = s.diagEn ∧ t.env.wcmd = s.env.wcmd ∧ t.env.wireTx = s.env.wireTx ∧
      t.env.offer = s.env.offer ∧ t.env.toksrc = s.env.toksrc ∧ t.env.rxReady = s.env.rxReady) ∧
    (Event.isWriters e = false → Event.isReaders e = false → e ≠ .reset →
      (t.fatal = s.fatal ∧ t.live = s.live ∧ t.w = s.w ∧ t.r = s.r ∧ t.env.out = s.env.out ∧ t.env.offer = s.env.offer) ∧
      (∀ on, e = .writeDiag on → t.diagEn = on) ∧
      ((∀ on, e ≠ .writeDiag on) → t.diagEn = s.diagEn) ∧
      (∀ word, e = .presentW word → t.env.wcmd = s.env.wcmd ++ [word]) ∧
      ((∀ word, e ≠ .presentW word) → t.env.wcmd = s.env.wcmd) ∧
      (∀ word, e = .presentR word → t.env.rcmd = s.env.rcmd ++ [word]) ∧
      ((∀ word, e ≠ .presentR word) → t.env.rcmd = s.env.rcmd) ∧
      (∀ ready, e = .rxReady ready → t.env.rxReady = ready) ∧
      ((∀ ready, e ≠ .rxReady ready) → t.env.rxReady = s.env.rxReady) ∧
      (∀ bytes, e = .arrive bytes → t.env.wireRx = s.env.wireRx ++ bytes) ∧
      ((∀ bytes, e ≠ .arrive bytes) → (∀ i a, e ≠ .lateAnswer i a) → t.env.wireRx = s.env.wireRx) ∧
      ((∀ i a, e ≠ .lateAnswer i a) → t.env.wireTx = s.env.wireTx) ∧
      ((∀ b i v, e ≠ .placeTok b i v) → t.env.toksrc = s.env.toksrc) ∧
      ((∀ h i v, e ≠ .hostWrite h i v) → (∀ i a, e ≠ .lateAnswer i a) → e ≠ .reclaim → t.env.rxbuf = s.env.rxbuf) ∧
      ((∀ i a, e ≠ .lateAnswer i a) → e ≠ .reclaim → t.env.pool = s.env.pool) ∧
      (∀ g ∈ s.live, poolSize t.env.pool g = poolSize s.env.pool g ∧
        ∀ i : Len, (∀ v, e ≠ .hostWrite g i v) →
          Memory.read t.env.rxbuf (cellAddr g i.toNat) = Memory.read s.env.rxbuf (cellAddr g i.toNat)))

/-- R5: what WR does depends on nothing but its own view: two states that WR cannot tell apart go on to states it cannot tell
apart, with the same issues and the same bytes put on the wire. -/
def Obligations.WriterDependsOnItsViewOnly : Prop :=
  ∀ (e : Event) (s₁ s₂ t₁ : State), Event.isWriters e = true → writerView s₁ = writerView s₂ →
    handle e s₁ = .next t₁ →
    ∃ t₂ : State, handle e s₂ = .next t₂ ∧ writerView t₁ = writerView t₂ ∧
      ∃ (issued : List Issue) (sent : List Byte),
        t₁.env.out = s₁.env.out ++ issued ∧ t₂.env.out = s₂.env.out ++ issued ∧
        t₁.env.wireTx = s₁.env.wireTx ++ sent ∧ t₂.env.wireTx = s₂.env.wireTx ++ sent

/-- R5, R44: what RD does depends on nothing but its own view, and not on what receive storage holds: two states that RD cannot
tell apart go on to states it cannot tell apart, with the same issues. -/
def Obligations.ReaderDependsOnItsViewOnly : Prop :=
  ∀ (e : Event) (s₁ s₂ t₁ : State), Event.isReaders e = true → readerView s₁ = readerView s₂ →
    handle e s₁ = .next t₁ →
    ∃ t₂ : State, handle e s₂ = .next t₂ ∧ readerView t₁ = readerView t₂ ∧
      ∃ issued : List Issue, t₁.env.out = s₁.env.out ++ issued ∧ t₂.env.out = s₂.env.out ++ issued

/-- R75: a unit issues one `Result` per accepted command: in the step that returns it to idle (or, for WR, stops it for good),
and at once for a command that never leaves idle; no other event issues one. An accepted word has left its port. -/
def Obligations.OneResultPerCommand : Prop :=
  ∀ (e : Event) (s t : State), handle e s = .next t → e ≠ .reset →
    (e ≠ .wr → resultsW t = resultsW s) ∧
    (e = .wr → s.w.ph ≠ .idle →
      resultsW t = resultsW s + if t.w.ph = .idle ∨ t.w.ph = .halt ∧ s.w.ph ≠ .halt then 1 else 0) ∧
    (e = .wr → s.w.ph = .idle →
      resultsW t + t.env.wcmd.length + (if t.w.ph = .idle then 0 else 1) = resultsW s + s.env.wcmd.length) ∧
    (s.r.ph ≠ .idle → resultsR t = resultsR s + if t.r.ph = .idle then 1 else 0) ∧
    (s.r.ph = .idle → e ≠ .rd → resultsR t = resultsR s) ∧
    (s.r.ph = .idle → e = .rd →
      resultsR t + t.env.rcmd.length + (if t.r.ph = .idle then 0 else 1) = resultsR s + s.env.rcmd.length)

/-- R172: a Report is issued once by every Fail of either unit when DIAG_EN = 1, and by nothing else. -/
def Obligations.ReportsOnlyFromFail : Prop :=
  ∀ (e : Event) (s t : State), handle e s = .next t → e ≠ .reset →
    reports t = reports s + if s.diagEn = true ∧ (failedW s t = true ∨ failedR s t = true) then 1 else 0

/-- R41, R42: nothing but a moved send attempt appends to WIRE_TX, and it appends the first k bytes offered; nothing but a moved
receive attempt takes bytes from WIRE_RX, and it takes the first k, at most those asked for; bytes that arrive go to the back.
(An attempt that a reset forgot, and the transport then moved, is among them: assumption 7.) -/
def Obligations.StreamsMoveOnlyAsAnswered : Prop :=
  ∀ (e : Event) (s t : State), handle e s = .next t →
    (t.env.wireTx = s.env.wireTx ∨
      (∃ k, e = .txAnswer (.moved k) ∧ t.env.wireTx = s.env.wireTx ++ s.env.offer.take k) ∨
      (∃ i k bytes, e = .lateAnswer i (.moved k) ∧ s.env.forgotten[i]? = some (.tx bytes) ∧
        t.env.wireTx = s.env.wireTx ++ bytes.take k)) ∧
    (t.env.wireRx = s.env.wireRx ∨
      (∃ bytes, e = .arrive bytes ∧ t.env.wireRx = s.env.wireRx ++ bytes) ∨
      (∃ k, e = .rxAnswer (.moved k) ∧ k ≤ s.r.rx.req.toNat - s.r.rx.cnt.toNat ∧
        t.env.wireRx = s.env.wireRx.drop k) ∨
      (∃ i k n, e = .lateAnswer i (.moved k) ∧ s.env.forgotten[i]? = some (.rx n) ∧ k ≤ n ∧
        t.env.wireRx = s.env.wireRx.drop k))

/-- R48, R154: Free is issued only for storage that is allocated and is the reader's own or a live token's, at most once in an
event, and the storage is no longer allocated afterwards. -/
def Obligations.FreeOnlyWhatIsOwned : Prop :=
  ∀ (e : Event) (s t : State) (h : Handle), StorageOwned s → handle e s = .next t →
    t.env.out.count (.free h) = s.env.out.count (.free h) ∨
    (t.env.out.count (.free h) = s.env.out.count (.free h) + 1 ∧
      (poolSize s.env.pool h).isSome = true ∧ poolSize t.env.pool h = none ∧
      (h ∈ s.live ∨ s.r.hv = true ∧ s.r.h = h) ∧ h ∉ t.live ∧ t.r.hv = false)

/-! ## Invariants -/

/-- The invariants hold after reset. (Those of storage and memory rest there on the model's choice that nothing is placed or
allocated at power-on: assumption 2. No register that R29 leaves unspecified is read in any of them.) -/
def Obligations.ResetMeetsInvariants : Prop :=
  MemoryCanonical State.reset ∧ StorageOwned State.reset ∧ WithinCapacity State.reset ∧ WriterFits State.reset ∧
  ReaderFits State.reset

/-- Every step keeps both addressed byte spaces in canonical form (assumption 4 is the form's meaning). -/
def Obligations.StepKeepsMemoryCanonical : Prop :=
  ∀ s t : State, MemoryCanonical s → step s = .next t → MemoryCanonical t

/-- R14, R24, R47, R48: every step keeps the ownership of storage: LIVE a set of allocated handles, the reader's buffer allocated
at max(L, 1) bytes and not live, `R_HV` = 1 exactly in `R_PAY`. -/
def Obligations.StepKeepsStorageOwned : Prop :=
  ∀ s t : State, StorageOwned s → step s = .next t → StorageOwned t

/-- R14, R133: every step keeps LIVE within MAX_LIVE, whatever MAX_LIVE is. -/
def Obligations.StepKeepsWithinCapacity : Prop :=
  ∀ s t : State, WithinCapacity s → step s = .next t → WithinCapacity t

/-- R11, R12, R16 to R18, R102, R107: every step keeps WR's registers fitting its phase: `WX_CNT` <= `WX_REQ`, the kind fits the
count, no wait and no `K_PARTIAL` in WX, `W_HALT` exactly with FATAL, and, while a command runs, `W_FB` is the flag's low byte and, in
the last two stages, the length buffer encodes the length. -/
def Obligations.StepKeepsWriterFits : Prop :=
  ∀ s t : State, WriterFits s → step s = .next t → WriterFits t

/-- R11, R18, R21 to R23, R64, R98, R102, R107: every step keeps RD's registers fitting its phase: `RX_CNT` <= `RX_REQ`, the
kind fits the count, the requested counts are the stage's, the flag and length fit the format, the timer is in range. -/
def Obligations.StepKeepsReaderFits : Prop :=
  ∀ s t : State, ReaderFits s → step s = .next t → ReaderFits t

/-- R40, R44, R47: RD never writes outside the storage it was given: in a state that meets the invariants no event ends in that
fault. -/
def Obligations.NoWriteOutsideStorage : Prop :=
  ∀ (e : Event) (s : State), StorageOwned s → ReaderFits s → handle e s ≠ .fault .bufferByteAbsent

/-! ## Whole commands -/

/-- R118: from the accept of SEND_TOKEN on, the wire holds what it held before followed by whole stages and the first `WX_CNT`
bytes of the stage in progress, in order, without gaps or repeats; the step that ends the command puts nothing there. The host gives
no byte of the token another value through the token's base (R201; that it may write any byte of any other base, because the
bytes of different bases never overlap, is the model's choice: assumption 4), and no forgotten send attempt moves bytes
(assumption 7). -/
def Obligations.SendingIsKept : Prop :=
  (∀ (flag : FlagIn) (len : LenIn) (base : Handle) (payload : List Byte) (s t : State),
    s.w.ph = .idle → s.w.wx.ph = .done →
    (len.toNat ≤ 2 ^ 32 - 1 →
      payload.length = len.toNat ∧
      ∀ i v, payload[i]? = some v → Memory.read s.env.toksrc (cellAddr base i) = some v) →
    exec (.sendToken flag len base) s = .next t → Sending s.env.wireTx payload t) ∧
  (∀ (e : Event) (before payload : List Byte) (s t : State),
    WriterFits s → Sending before payload s → handle e s = .next t →
    e ≠ .reset →
    (∀ (i : Len) (u v : Byte), e = .placeTok s.w.tbase i v → payload[i.toNat]? = some u → u = v) →
    (∀ i k bytes, e = .lateAnswer i (.moved k) → s.env.forgotten[i]? ≠ some (.tx bytes)) →
    (t.w.ph ≠ .idle → Sending before payload t) ∧
    (t.w.ph = .idle → t.env.wireTx = before ++ sentSoFar payload s))

/-- R118, R60: let F be the frame of a token that fits, else the flag byte, if there is one. While the command runs, what is on the
wire of it is a prefix of F. When it ends it is F[0..m): m = len(F) on `ST_OK` and `ST_OVERSIZED`; on a failure m < len(F) and m is
`W_GOT` = g for the flag stage, h + g for the length stage, h + 4 + g for the payload stage, h being 1 when the flag operand is
not 0 and else 0. No other status ends it. -/
def Obligations.SentIsAPrefixOfTheFrame : Prop :=
  ∀ (before payload frame : List Byte) (h : Nat) (s : State), WriterFits s → Sending before payload s →
    (s.w.tlen.toNat ≤ 2 ^ 32 - 1 → frame = frameBytes s.w.flagIn payload) →
    (2 ^ 32 - 1 < s.w.tlen.toNat → frame = if s.w.flagIn = 0#32 then [] else [s.w.flagIn.extractLsb' 0 8]) →
    (h = if s.w.flagIn = 0#32 then 0 else 1) →
    sentSoFar payload s <+: frame ∧
    ∀ t : State, handle .wr s = .next t → t.w.ph = .idle ∨ t.w.ph = .halt →
      ((t.w.status = .stOk ∨ t.w.status = .stOversized) ∧ t.env.wireTx = before ++ frame) ∨
      ((t.w.status = .stShortTransfer ∨ t.w.status = .stTransportError) ∧
        ∃ m, m < frame.length ∧ t.env.wireTx = before ++ frame.take m ∧
          ((t.w.stage = .stgFlag ∧ m = t.w.got.toNat) ∨ (t.w.stage = .stgLength ∧ m = h + t.w.got.toNat) ∨
            (t.w.stage = .stgPayload ∧ m = h + 4 + t.w.got.toNat)))

/-- R139: the bytes removed from WIRE_RX between the accept of RECV_TOKEN and its end are accounted for: each event removes from
the front exactly what the counts grow by; the step that ends the command removes nothing, and then 4 or 5 + L bytes are gone
on `ST_OK`, and the bytes of the stages before plus `R_GOT` on a failure. -/
def Obligations.StreamBytesAccounted : Prop :=
  ∀ (e : Event) (s t : State), ReaderFits s → s.r.ph ≠ .idle → handle e s = .next t →
    e ≠ .reset → (∀ b, e ≠ .arrive b) → (∀ i a, e ≠ .lateAnswer i a) →
    (t.r.ph ≠ .idle → ∃ taken : List Byte,
      s.env.wireRx = taken ++ t.env.wireRx ∧ consumed t = consumed s + taken.length) ∧
    (t.r.ph = .idle → t.env.wireRx = s.env.wireRx ∧
      (t.r.status = .stOk → consumed s = headerSize s + t.r.tok.length.toNat) ∧
      (t.r.status = .stAllocFailure → consumed s = headerSize s) ∧
      (failedR s t = true →
        (t.r.stage = .stgFlag ∧ consumed s = 0 ∧ t.r.got = 0#32 ∧ t.r.exp = 1#32) ∨
        (t.r.stage = .stgLength ∧ consumed s = 1 + t.r.got.toNat ∧ t.r.got < t.r.exp) ∨
        (t.r.stage = .stgPayload ∧ consumed s = headerSize s + t.r.got.toNat ∧ t.r.got < t.r.exp)))

/-- R105, R90 to R94: the small steps of XFER_TX go to the result of the big-step loop: for any source and any answers that the
loop consumes whole, the events of those attempts leave WX in `T_DONE` with the loop's kind, count and code, and the wire with
the source's first count bytes added. WR's other registers and all of RD are unchanged. (The host keeps the token: R201.) -/
def Obligations.SendTransferMeetsBigStep : Prop :=
  ∀ (s : State) (src : List Byte) (answers : List TxAnswer) (r : XferResult),
    s.fatal = false → writerMoving s → s.w.wx.ph = .check → s.w.wx.cnt = 0#32 → s.w.wx.kind = .kNone →
    s.w.wx.req.toNat = src.length → (∀ i v, src[i]? = some v → srcValues s i = [v]) →
    bigTx src.length 0 answers = some (r, []) →
    ∃ t : State, handleAll (txEvents r answers) s = .next t ∧
      t.w = { s.w with
        wx := { s.w.wx with
          ph := .done, kind := r.kind, cnt := BitVec.ofNat 32 r.cnt, code := r.code.getD s.w.wx.code } } ∧
      t.env.wireTx = s.env.wireTx ++ src.take r.cnt ∧
      t.r = s.r ∧ t.live = s.live ∧ t.fatal = false ∧ t.env.toksrc = s.env.toksrc ∧ t.env.rxbuf = s.env.rxbuf

/-- R105, R107, R90 to R98: the small steps of XFER_RX go to the result of the big-step loop, in every stage: for any waits and
answers that the loop consumes whole, the events of those attempts leave RX in `T_DONE` with the loop's kind, count and code and
the stream as it was, and the bytes delivered in the stage's sink: `R_B0`, `R_LENBUF[i + R_ZF]`, or the storage at offsets 0 on.
Nothing else of RD changes but the timer, and nothing of WR. -/
def Obligations.ReceiveTransferMeetsBigStep : Prop :=
  ∀ (s : State) (turns : List RxTurn) (r : XferResult) (sunk : List Byte),
    s.fatal = false → readerMoving s → s.r.rx.ph = .check → s.r.rx.cnt = 0#32 → s.r.rx.kind = .kNone →
    s.env.wireRx = [] →
    (s.r.ph = .first → s.r.rx.req = 1#32) →
    (s.r.ph = .len → s.r.rx.req = if s.r.zf = true then 3#32 else 4#32) →
    (s.r.ph = .pay → ∃ n, poolSize s.env.pool s.r.h = some n ∧ s.r.rx.req.toNat ≤ n) →
    bigRx s.r.rx.req.toNat 0 turns = some (r, sunk, []) →
    ∃ (t : State) (b0 : Byte) (lenbuf : Be4) (tmr : Nat), handleAll (rxEvents r turns) s = .next t ∧
      t.r = { s.r with
        b0 := b0, lenbuf := lenbuf, tmr := tmr
        rx := { s.r.rx with
          ph := .done, kind := r.kind, cnt := BitVec.ofNat 32 r.cnt, code := r.code.getD s.r.rx.code } } ∧
      sunk.length = r.cnt ∧
      (b0 = if s.r.ph = .first then sunk.headD s.r.b0 else s.r.b0) ∧
      (∀ i, lenbuf.toList[i]? =
        if s.r.ph = .len ∧ s.r.zf.toNat ≤ i ∧ i < s.r.zf.toNat + r.cnt then sunk[i - s.r.zf.toNat]?
        else s.r.lenbuf.toList[i]?) ∧
      (∀ a, Memory.read t.env.rxbuf a =
        if s.r.ph = .pay ∧ cellAddr s.r.h 0 ≤ a ∧ a < cellAddr s.r.h r.cnt then sunk[a - cellAddr s.r.h 0]?
        else Memory.read s.env.rxbuf a) ∧
      t.env.wireRx = [] ∧ t.env.pool = s.env.pool ∧ t.w = s.w ∧ t.live = s.live ∧ t.fatal = false

/-- R106: a transfer of n bytes makes at most n attempts and, for RX, at most n readiness waits: the loop of either direction
consumes at most n answers or turns (a turn is one wait and at most one attempt); and a transfer that ends early has moved fewer
than n bytes. -/
def Obligations.TransferAttemptsAreBounded : Prop :=
  (∀ (n : Nat) (answers rest : List TxAnswer) (r : XferResult), bigTx n 0 answers = some (r, rest) →
    answers.length ≤ n + rest.length ∧ r.cnt ≤ n ∧ (r.kind ≠ .kComplete → r.cnt < n)) ∧
  (∀ (n : Nat) (turns rest : List RxTurn) (r : XferResult) (sunk : List Byte),
    bigRx n 0 turns = some (r, sunk, rest) →
    turns.length ≤ n + rest.length ∧ r.cnt ≤ n ∧ (r.kind ≠ .kComplete → r.cnt < n))
end

