-- ==== Sys2Proof/Laws/Decode.lean ====
section
/-! SUPPORT. The two length functions as arithmetic on naturals: callers cite these and unfold neither. -/

namespace Sys2Proof

/-- The four bytes of a length as one vector: the shifts of R81 place them side by side. -/
theorem decBytes_eq_append (b : Be4) : decBytes b = (b.b0 ++ b.b1 ++ b.b2 ++ b.b3 : BitVec 32) := by
  obtain ⟨b0, b1, b2, b3⟩ := b
  refine BitVec.eq_of_getLsbD_eq fun i hi => ?_
  simp only [decBytes, BitVec.getLsbD_append, BitVec.getLsbD_or, BitVec.getLsbD_shiftLeft, BitVec.getLsbD_setWidth]
  rcases Nat.lt_or_ge i 8 with h1 | h1
  · simp [h1, hi, show i < 16 by omega, show i < 24 by omega]
  rcases Nat.lt_or_ge i 16 with h2 | h2
  · simp [Nat.not_lt.2 h1, h2, hi, show i < 24 by omega, show i - 8 < 8 by omega,
      show i - 8 < 32 by omega, BitVec.getLsbD_of_ge b3 i h1]
  rcases Nat.lt_or_ge i 24 with h3 | h3
  · simp [Nat.not_lt.2 h1, Nat.not_lt.2 h2, h3, hi, show ¬ i - 8 < 8 by omega, show i - 16 < 8 by omega,
      show i - 8 < 32 by omega, show i - 16 < 32 by omega, BitVec.getLsbD_of_ge b3 i h1,
      BitVec.getLsbD_of_ge b2 (i - 8) (by omega), Nat.sub_sub]
  · simp [Nat.not_lt.2 h1, Nat.not_lt.2 h2, Nat.not_lt.2 h3, hi, show ¬ i - 8 < 8 by omega, show ¬ i - 16 < 8 by omega,
      show i - 24 < 32 by omega, show i - 16 < 32 by omega, show i - 8 < 32 by omega, BitVec.getLsbD_of_ge b3 i h1,
      BitVec.getLsbD_of_ge b2 (i - 8) (by omega), BitVec.getLsbD_of_ge b1 (i - 16) (by omega), Nat.sub_sub]

theorem decBytes_toNat (b : Be4) :
    (decBytes b).toNat = b.b0.toNat * 2 ^ 24 + b.b1.toNat * 2 ^ 16 + b.b2.toNat * 2 ^ 8 + b.b3.toNat := by
  rw [decBytes_eq_append]
  simp only [BitVec.toNat_append, Nat.shiftLeft_eq]
  have h1 := b.b1.isLt
  have h2 := b.b2.isLt
  have h3 := b.b3.isLt
  rw [Nat.mul_comm _ (2 ^ 8), Nat.mul_comm _ (2 ^ 8), Nat.mul_comm _ (2 ^ 8), ← Nat.two_pow_add_eq_or_of_lt h1,
    ← Nat.two_pow_add_eq_or_of_lt h2, ← Nat.two_pow_add_eq_or_of_lt h3]
  omega

theorem encBytes_toNat (l : Len) :
    (encBytes l).b0.toNat = l.toNat / 2 ^ 24 ∧ (encBytes l).b1.toNat = l.toNat / 2 ^ 16 % 256 ∧
    (encBytes l).b2.toNat = l.toNat / 2 ^ 8 % 256 ∧ (encBytes l).b3.toNat = l.toNat % 256 := by
  have := l.isLt
  simp only [encBytes, BitVec.extractLsb'_toNat, Nat.shiftRight_eq_div_pow]
  refine ⟨?_, by simp, by simp, by simp⟩
  simp
  omega

theorem Be4.length_toList (b : Be4) : b.toList.length = 4 := rfl

end Sys2Proof
end

