-- ==== Sys2Proof/Laws/Memory.lean ====
section
/-! SUPPORT. Bytes at addresses: a read after a write, and the canonical form kept by every memory operation. -/

namespace Sys2Proof.Machine

/-! ## Read after write -/

theorem Memory.read_write_same (m : Memory) (a : Nat) (v : Byte) : Memory.read (Memory.write m a v) a = some v := by
  induction m with
  | nil => simp [Memory.write, Memory.read]
  | cons c m ih =>
    simp only [Memory.write]
    split
    · simp [Memory.read]
    · split
      · simp [Memory.read]
      · next h => simp [Memory.read, Ne.symm h, ih]

theorem Memory.read_write_other (m : Memory) {a b : Nat} (v : Byte) (hab : a ≠ b) :
    Memory.read (Memory.write m a v) b = Memory.read m b := by
  induction m with
  | nil => simp [Memory.write, Memory.read, hab]
  | cons c m ih =>
    obtain ⟨x, u⟩ := c
    simp only [Memory.write]
    split
    · simp [Memory.read, hab]
    · split
      · next h => simp [Memory.read, ← h, hab]
      · simp only [Memory.read]
        split <;> simp [ih]

/-! ## The canonical form -/

/-- The form says: the first cell lies below every other, and the rest has the form. -/
theorem Memory.wf_cons_iff (c : Host.Cell) (m : Memory) :
    Memory.wf (c :: m) = true ↔ (∀ d ∈ m, c.1 < d.1) ∧ Memory.wf m = true := by
  induction m generalizing c with
  | nil => simp [Memory.wf]
  | cons d m ih =>
    have hd := ih d
    simp only [Memory.wf, Bool.and_eq_true, decide_eq_true_eq, List.mem_cons, forall_eq_or_imp] at hd ⊢
    constructor
    · rintro ⟨hcd, hm⟩
      exact ⟨⟨hcd, fun e he => lt_trans hcd ((hd.1 hm).1 e he)⟩, hm⟩
    · rintro ⟨⟨hcd, -⟩, hm⟩
      exact ⟨hcd, hm⟩

theorem Memory.mem_write {m : Memory} {a : Nat} {v : Byte} {d : Host.Cell} (h : d ∈ Memory.write m a v) :
    d = (a, v) ∨ d ∈ m := by
  induction m with
  | nil => simpa [Memory.write] using h
  | cons c m ih =>
    obtain ⟨x, u⟩ := c
    simp only [Memory.write] at h
    split at h
    · simpa using h
    · split at h
      · simp only [List.mem_cons] at h ⊢
        tauto
      · simp only [List.mem_cons] at h ⊢
        rcases h with h | h
        · exact .inr (.inl h)
        · exact (ih h).imp id .inr

theorem Memory.wf_write {m : Memory} (a : Nat) (v : Byte) (hm : Memory.wf m = true) :
    Memory.wf (Memory.write m a v) = true := by
  induction m with
  | nil => simp [Memory.write, Memory.wf]
  | cons c m ih =>
    obtain ⟨x, u⟩ := c
    have hc := (Memory.wf_cons_iff _ _).1 hm
    simp only [Memory.write]
    split
    · next h =>
      refine (Memory.wf_cons_iff _ _).2 ⟨fun d hd => ?_, hm⟩
      rcases List.mem_cons.1 hd with rfl | hd
      · exact h
      · exact lt_trans h (hc.1 d hd)
    · split
      · next h =>
        subst h
        exact (Memory.wf_cons_iff _ _).2 hc
      · next h1 h2 =>
        refine (Memory.wf_cons_iff _ _).2 ⟨fun d hd => ?_, ih hc.2⟩
        rcases Memory.mem_write hd with rfl | hd
        · show x < a
          omega
        · exact hc.1 d hd

theorem Memory.wf_writeRun {m : Memory} (h : Handle) (i : Nat) (bs : List Byte) (hm : Memory.wf m = true) :
    Memory.wf (Memory.writeRun m h i bs) = true := by
  induction bs generalizing m i with
  | nil => exact hm
  | cons b bs ih => exact ih (i + 1) (Memory.wf_write _ _ hm)

/-- Taking cells away keeps the form: Free, a fresh Alloc and a reclaim do no more than that. -/
theorem Memory.wf_filter {m : Memory} (p : Host.Cell → Bool) (hm : Memory.wf m = true) :
    Memory.wf (m.filter p) = true := by
  induction m with
  | nil => simp [Memory.wf]
  | cons c m ih =>
    have hc := (Memory.wf_cons_iff _ _).1 hm
    simp only [List.filter_cons]
    split
    · exact (Memory.wf_cons_iff _ _).2 ⟨fun d hd => hc.1 d (List.mem_of_mem_filter hd), ih hc.2⟩
    · exact ih hc.2

theorem Memory.wf_drop {m : Memory} (h : Handle) (hm : Memory.wf m = true) : Memory.wf (Memory.drop m h) = true :=
  Memory.wf_filter _ hm

theorem reset_memory_wf :
    Memory.wf State.reset.env.toksrc = true ∧ Memory.wf State.reset.env.rxbuf = true := by
  decide

end Sys2Proof.Machine
end

