-- ==== Sys2Proof/Laws/Operands.lean ====
section
/-! SUPPORT. What the operand operations do: bytes of a length buffer, runs of bytes of storage, and the pool of storage. -/

namespace Sys2Proof.Machine

/-! ## The length buffer -/

theorem Be4.set_toList (b : Be4) (i : Nat) (v : Byte) : (Be4.set b i v).toList = b.toList.set i v := by
  match i with
  | 0 => rfl
  | 1 => rfl
  | 2 => rfl
  | 3 => rfl
  | i + 4 => rfl

/-- The bytes written stand at their places, and every other element is as before. -/
theorem Be4.setRun_getElem? (d : List Byte) (b : Be4) (i j : Nat) (hd : i + d.length ≤ 4) :
    (Be4.setRun b i d).toList[j]? = if i ≤ j ∧ j < i + d.length then d[j - i]? else b.toList[j]? := by
  induction d generalizing b i with
  | nil => simp [Be4.setRun]
  | cons v d ih =>
    rw [List.length_cons] at hd
    rw [Be4.setRun, ih _ _ (by omega), Be4.set_toList, List.length_cons]
    by_cases h1 : i + 1 ≤ j ∧ j < i + 1 + d.length
    · obtain ⟨k, hk⟩ : ∃ k, j - i = k + 1 := ⟨j - i - 1, by omega⟩
      rw [if_pos h1, if_pos (by omega), hk, show j - (i + 1) = k by omega, List.getElem?_cons_succ]
    · rw [if_neg h1]
      by_cases h2 : j = i
      · subst h2
        have : j < b.toList.length := by
          show j < 4
          omega
        simp [this]
      · rw [if_neg (by omega), List.getElem?_set_ne (by omega)]

/-! ## Runs of bytes -/

theorem Memory.read_writeRun (h : Handle) (d : List Byte) (m : Memory) (i a : Nat) :
    Memory.read (Memory.writeRun m h i d) a =
      if cellAddr h i ≤ a ∧ a < cellAddr h (i + d.length) then d[a - cellAddr h i]? else Memory.read m a := by
  induction d generalizing m i with
  | nil => simp [Memory.writeRun]
  | cons v d ih =>
    have he : ∀ j, cellAddr h j = h.toNat * 4294967296 + j := fun _ => rfl
    rw [Memory.writeRun, ih, List.length_cons, he, he, he, he]
    by_cases h1 : h.toNat * 4294967296 + (i + 1) ≤ a ∧ a < h.toNat * 4294967296 + (i + 1 + d.length)
    · obtain ⟨k, hk⟩ : ∃ k, a - (h.toNat * 4294967296 + i) = k + 1 :=
        ⟨a - (h.toNat * 4294967296 + i) - 1, by omega⟩
      rw [if_pos h1, if_pos (by omega), hk, show a - (h.toNat * 4294967296 + (i + 1)) = k by omega,
        List.getElem?_cons_succ]
    · rw [if_neg h1]
      by_cases h2 : h.toNat * 4294967296 + i = a
      · rw [if_pos (by omega), h2, Memory.read_write_same]
        simp
      · rw [if_neg (by omega), Memory.read_write_other _ _ h2]

/-- A run is read whole exactly when each of its bytes is there. -/
theorem readRun_eq_some_iff {read : Nat → Option Byte} {i n : Nat} {bs : List Byte} :
    readRun read i n = some bs ↔ bs.length = n ∧ ∀ j, j < n → bs[j]? = read (i + j) := by
  induction n generalizing i bs with
  | zero => cases bs <;> simp [readRun]
  | succ n ih =>
    have hs : ∀ j, i + 1 + j = i + (j + 1) := by omega
    cases bs with
    | nil =>
      simp only [readRun, List.length_nil]
      split <;> simp
    | cons b bs =>
      rw [← Nat.and_forall_add_one (p := fun j => j < n + 1 → (b :: bs)[j]? = read (i + j))]
      simp only [readRun, List.length_cons, Nat.add_right_cancel_iff, List.getElem?_cons_zero, List.getElem?_cons_succ,
        Nat.zero_lt_succ, forall_const, Nat.add_lt_add_iff_right, Nat.add_zero]
      constructor
      · intro h
        split at h
        · next v vs hv hvs =>
          cases h
          obtain ⟨hl, hj⟩ := ih.1 hvs
          exact ⟨hl, hv.symm, fun j hjn => by rw [hj j hjn, hs]⟩
        · cases h
      · rintro ⟨hl, hb, hj⟩
        rw [← hb, ih.2 ⟨hl, fun j hjn => by rw [hj j hjn, hs]⟩]

/-- A run of present bytes is read whole. -/
theorem readRun_isSome {read : Nat → Option Byte} {i n : Nat} (hp : ∀ j, i ≤ j → j < i + n → (read j).isSome = true) :
    ∃ bs, readRun read i n = some bs := by
  induction n generalizing i with
  | zero => exact ⟨[], rfl⟩
  | succ n ih =>
    obtain ⟨bs, hbs⟩ := ih (i := i + 1) fun j h1 h2 => hp j (by omega) (by omega)
    obtain ⟨v, hv⟩ := Option.isSome_iff_exists.1 (hp i (by omega) (by omega))
    exact ⟨v :: bs, by simp [readRun, hv, hbs]⟩

/-! ## Token bytes (R201, U12) -/

@[simp] theorem pickOne_singleton (n : Nat) (v : Byte) : pickOne n [v] = some v := rfl

/-- One of several values is one of them. -/
theorem pickOne_mem {n : Nat} {vs : List Byte} {v : Byte} (h : pickOne n vs = some v) : v ∈ vs := by
  unfold pickOne at h
  split at h
  · cases h
  · simpa using h.symm
  · exact List.mem_of_getElem? h

theorem pickOne_isSome {n : Nat} {vs : List Byte} (h : vs ≠ []) : (pickOne n vs).isSome = true := by
  unfold pickOne
  split
  · exact absurd rfl h
  · rfl
  · next v u vs =>
    rw [List.getElem?_eq_getElem (show n % (vs.length + 2) < (v :: u :: vs).length from Nat.mod_lt _ (Nat.succ_pos _))]
    rfl

/-- A byte that the host has not changed is read as it stands. -/
theorem tokRead_of_tokValues {s : State} {i : Nat} {v : Byte} (h : tokValues s i = [v]) : tokRead s i = some v := by
  rw [tokRead, h, pickOne_singleton]

/-! ## Cells taken away -/

theorem Memory.read_filter (m : Memory) {p : Host.Cell → Bool} {a : Nat} (hp : ∀ v, p (a, v) = true) :
    Memory.read (m.filter p) a = Memory.read m a := by
  induction m with
  | nil => rfl
  | cons c m ih =>
    obtain ⟨x, v⟩ := c
    rw [List.filter_cons]
    split
    · simp [Memory.read, ih]
    · next h =>
      have hx : x ≠ a := by
        rintro rfl
        exact h (hp v)
      simp [Memory.read, hx, ih]

theorem Memory.read_filter_none (m : Memory) {p : Host.Cell → Bool} {a : Nat} (hp : ∀ v, p (a, v) = false) :
    Memory.read (m.filter p) a = none := by
  induction m with
  | nil => rfl
  | cons c m ih =>
    obtain ⟨x, v⟩ := c
    rw [List.filter_cons]
    split
    · next h =>
      have hx : x ≠ a := by
        rintro rfl
        simp [hp v] at h
      simp [Memory.read, hx, ih]
    · exact ih

theorem cellAddr_div (g : Handle) (i : Len) : cellAddr g i.toNat / 4294967296 = g.toNat := by
  have := i.isLt
  unfold cellAddr
  omega

theorem Memory.read_drop_same (m : Memory) (h : Handle) (i : Len) :
    Memory.read (Memory.drop m h) (cellAddr h i.toNat) = none :=
  Memory.read_filter_none m fun v => by simp [cellAddr_div]

theorem Memory.read_drop_other (m : Memory) {g h : Handle} (i : Len) (hg : g ≠ h) :
    Memory.read (Memory.drop m h) (cellAddr g i.toNat) = Memory.read m (cellAddr g i.toNat) :=
  Memory.read_filter m fun v => by
    simpa [cellAddr_div] using fun e => hg (BitVec.eq_of_toNat_eq e)

/-! ## The pool -/

theorem poolSize_eq_none_iff (pool : List (Handle × Nat)) (h : Handle) :
    poolSize pool h = none ↔ h ∉ pool.map Prod.fst := by
  induction pool with
  | nil => simp [poolSize]
  | cons p pool ih =>
    obtain ⟨x, n⟩ := p
    by_cases hx : x = h
    · simp [poolSize, hx]
    · simp [poolSize, hx, ih, Ne.symm hx]

theorem poolSize_filter (pool : List (Handle × Nat)) {q : Handle × Nat → Bool} {h : Handle}
    (hq : ∀ n, q (h, n) = true) : poolSize (pool.filter q) h = poolSize pool h := by
  induction pool with
  | nil => rfl
  | cons p pool ih =>
    obtain ⟨x, n⟩ := p
    rw [List.filter_cons]
    split
    · simp [poolSize, ih]
    · next hc =>
      have hx : x ≠ h := by
        rintro rfl
        exact hc (hq n)
      simp [poolSize, hx, ih]

theorem poolSize_free_same (pool : List (Handle × Nat)) (h : Handle) : poolSize (poolFree pool h) h = none := by
  rw [poolSize_eq_none_iff]
  simp [poolFree]

theorem poolSize_free_other (pool : List (Handle × Nat)) {g h : Handle} (hg : g ≠ h) :
    poolSize (poolFree pool h) g = poolSize pool g :=
  poolSize_filter pool fun n => by simpa using hg

end Sys2Proof.Machine
end

