-- ==== Sys2Proof/Laws/State.lean ====
section
/-! SUPPORT. Each field of the state after each of the plain updates, so that no proof unfolds a record update. -/

namespace Sys2Proof.Machine

variable (s : State)

@[simp] theorem issue_fatal (e : Issue) : (issue e s).fatal = s.fatal := rfl
@[simp] theorem issue_diagEn (e : Issue) : (issue e s).diagEn = s.diagEn := rfl
@[simp] theorem issue_live (e : Issue) : (issue e s).live = s.live := rfl
@[simp] theorem issue_w (e : Issue) : (issue e s).w = s.w := rfl
@[simp] theorem issue_r (e : Issue) : (issue e s).r = s.r := rfl
@[simp] theorem issue_env (e : Issue) : (issue e s).env = { s.env with out := s.env.out ++ [e] } := rfl

@[simp] theorem setWx_fatal (e : Engine) : (setWx e s).fatal = s.fatal := rfl
@[simp] theorem setWx_diagEn (e : Engine) : (setWx e s).diagEn = s.diagEn := rfl
@[simp] theorem setWx_live (e : Engine) : (setWx e s).live = s.live := rfl
@[simp] theorem setWx_w (e : Engine) : (setWx e s).w = { s.w with wx := e } := rfl
@[simp] theorem setWx_r (e : Engine) : (setWx e s).r = s.r := rfl
@[simp] theorem setWx_env (e : Engine) : (setWx e s).env = s.env := rfl

@[simp] theorem setRx_fatal (e : Engine) : (setRx e s).fatal = s.fatal := rfl
@[simp] theorem setRx_diagEn (e : Engine) : (setRx e s).diagEn = s.diagEn := rfl
@[simp] theorem setRx_live (e : Engine) : (setRx e s).live = s.live := rfl
@[simp] theorem setRx_w (e : Engine) : (setRx e s).w = s.w := rfl
@[simp] theorem setRx_r (e : Engine) : (setRx e s).r = { s.r with rx := e } := rfl
@[simp] theorem setRx_env (e : Engine) : (setRx e s).env = s.env := rfl

@[simp] theorem startTx_fatal (n : Len) : (startTx n s).fatal = s.fatal := rfl
@[simp] theorem startTx_diagEn (n : Len) : (startTx n s).diagEn = s.diagEn := rfl
@[simp] theorem startTx_live (n : Len) : (startTx n s).live = s.live := rfl
@[simp] theorem startTx_w (n : Len) : (startTx n s).w = { s.w with wx := s.w.wx.start n } := rfl
@[simp] theorem startTx_r (n : Len) : (startTx n s).r = s.r := rfl
@[simp] theorem startTx_env (n : Len) : (startTx n s).env = s.env := rfl

@[simp] theorem startRx_fatal (n : Len) : (startRx n s).fatal = s.fatal := rfl
@[simp] theorem startRx_diagEn (n : Len) : (startRx n s).diagEn = s.diagEn := rfl
@[simp] theorem startRx_live (n : Len) : (startRx n s).live = s.live := rfl
@[simp] theorem startRx_w (n : Len) : (startRx n s).w = s.w := rfl
@[simp] theorem startRx_r (n : Len) : (startRx n s).r = { s.r with rx := s.r.rx.start n } := rfl
@[simp] theorem startRx_env (n : Len) : (startRx n s).env = s.env := rfl

@[simp] theorem encodeLength_fatal (l : Len) : (encodeLength l s).fatal = s.fatal := rfl
@[simp] theorem encodeLength_diagEn (l : Len) : (encodeLength l s).diagEn = s.diagEn := rfl
@[simp] theorem encodeLength_live (l : Len) : (encodeLength l s).live = s.live := rfl
@[simp] theorem encodeLength_w (l : Len) : (encodeLength l s).w = { s.w with lenbuf := encBytes l } := rfl
@[simp] theorem encodeLength_r (l : Len) : (encodeLength l s).r = s.r := rfl
@[simp] theorem encodeLength_env (l : Len) : (encodeLength l s).env = s.env := rfl

@[simp] theorem decodeLength_fatal (b : Be4) : (decodeLength b s).fatal = s.fatal := rfl
@[simp] theorem decodeLength_diagEn (b : Be4) : (decodeLength b s).diagEn = s.diagEn := rfl
@[simp] theorem decodeLength_live (b : Be4) : (decodeLength b s).live = s.live := rfl
@[simp] theorem decodeLength_w (b : Be4) : (decodeLength b s).w = s.w := rfl
@[simp] theorem decodeLength_r (b : Be4) : (decodeLength b s).r = { s.r with len32 := decBytes b } := rfl
@[simp] theorem decodeLength_env (b : Be4) : (decodeLength b s).env = s.env := rfl

section HostBytes

variable (base : Handle) (index : Len) (value : Byte)

@[simp] theorem placeByte_fatal : (placeByte base index value s).fatal = s.fatal := rfl
@[simp] theorem placeByte_diagEn : (placeByte base index value s).diagEn = s.diagEn := rfl
@[simp] theorem placeByte_live : (placeByte base index value s).live = s.live := rfl
@[simp] theorem placeByte_w : (placeByte base index value s).w = s.w := rfl
@[simp] theorem placeByte_r : (placeByte base index value s).r = s.r := rfl

end HostBytes

end Sys2Proof.Machine
end

