-- ==== Sys2Proof/Laws/Ops.lean ====
section
/-! SUPPORT. What each shared operation does, once, as an equation of states: callers cite these instead of unfolding. -/

namespace Sys2Proof.Machine

variable (s : State)

/-! ## Guards -/

theorem running_of_not_fatal {s : State} (h : s.fatal = false) (k : Res) : running s k = k := by
  simp [running, h]

theorem running_of_fatal {s : State} (h : s.fatal = true) (k : Res) : running s k = .fault .fatalStop := by
  simp [running, h]

/-- A guarded step answers a next state only with FATAL = 0, and then it is the step's own. -/
theorem running_eq_next {s t : State} {k : Res} : running s k = .next t ↔ s.fatal = false ∧ k = .next t := by
  cases h : s.fatal <;> simp [running, h]

/-- An accept answers a next state only with FATAL = 0: the command's own if WR is idle, else the same state. -/
theorem acceptW_eq_next {s k t : State} :
    acceptW s k = .next t ↔ s.fatal = false ∧ (if s.w.ph = .idle then k else s) = t := by
  simp only [acceptW, running_eq_next]
  split <;> simp

/-- An accept answers a next state only with FATAL = 0: the command's own if RD is idle, else the same state. -/
theorem acceptR_eq_next {s k t : State} :
    acceptR s k = .next t ↔ s.fatal = false ∧ (if s.r.ph = .idle then k else s) = t := by
  simp only [acceptR, running_eq_next]
  split <;> simp

/-! ## Issuing -/

theorem report_eq (u : UnitId) (stage : Stage) (done expected : Len) :
    report u stage done expected s =
      { s with
        env := { s.env with
          out := s.env.out ++ if s.diagEn then [.report u stage done expected] else [] } } := by
  obtain ⟨_, d, _, _, _, _⟩ := s
  cases d <;> simp [report, issue]

theorem result_wr_eq :
    result .wr s =
      { s with
        env := { s.env with
          out := s.env.out ++ [.resultW s.w.status s.w.stage s.w.got s.w.exp s.w.errcode] } } := rfl

theorem result_rd_eq :
    result .rd s =
      { s with
        env := { s.env with
          out := s.env.out ++
            [.resultR s.r.status s.r.stage s.r.got s.r.exp s.r.errcode s.r.flagOut s.r.tok] } } := rfl

theorem free_eq (h : Handle) :
    free h s =
      { s with
        env := { s.env with
          out := s.env.out ++ [.free h], pool := poolFree s.env.pool h, rxbuf := Memory.drop s.env.rxbuf h } } := rfl

/-! ## Ending a command -/

theorem fail_wr_eq (k : XKind) (stage : Stage) (got exp : Len) (code : ErrCode) :
    fail .wr k stage got exp code s =
      { s with
        w := { s.w with
          status := failStatus k, errcode := failCode k code, stage := stage, got := got, exp := exp, ph := .idle }
        env := { s.env with
          out := s.env.out ++ (if s.diagEn then [.report .wr stage got exp] else []) ++
            [.resultW (failStatus k) stage got exp (failCode k code)] } } := by
  simp [fail, report_eq, result_wr_eq]

theorem fail_rd_eq (k : XKind) (stage : Stage) (got exp : Len) (code : ErrCode) :
    fail .rd k stage got exp code s =
      { s with
        r := { s.r with
          status := failStatus k, errcode := failCode k code, stage := stage, got := got, exp := exp, ph := .idle }
        env := { s.env with
          out := s.env.out ++ (if s.diagEn then [.report .rd stage got exp] else []) ++
            [.resultR (failStatus k) stage got exp (failCode k code) s.r.flagOut s.r.tok] } } := by
  simp [fail, report_eq, result_rd_eq]

theorem fatalStop_eq :
    fatalStop s =
      { s with
        fatal := true
        w := { s.w with status := .stOversized, stage := .stgNone, got := 0#32, exp := 0#32, ph := .halt }
        env := { s.env with out := s.env.out ++ [.resultW .stOversized .stgNone 0#32 0#32 s.w.errcode] } } := rfl

theorem allocFail_eq (n : Len) :
    allocFail n s =
      { s with
        r := { s.r with
          status := .stAllocFailure, stage := .stgNone, got := 0#32, exp := n, tok := Descriptor.empty, ph := .idle }
        env := { s.env with
          out := s.env.out ++
            [.resultR .stAllocFailure .stgNone 0#32 n s.r.errcode s.r.flagOut Descriptor.empty] } } := rfl

theorem releaseEnd_eq (st : Status) :
    releaseEnd st s =
      { s with
        r := s.r.cleared st
        env := { s.env with
          out := s.env.out ++ [.resultR st .stgNone 0#32 0#32 0#32 0#8 Descriptor.empty] } } := rfl

/-! ## The scoreboard's capacity -/

/-- `liveFull` is R133's test `|LIVE| = MAX_LIVE`. -/
theorem liveFull_iff (live : List Handle) :
    liveFull Config.maxLivePred live = true ↔ Config.maxLive = some live.length := by
  unfold Config.maxLive
  cases live with
  | nil => simp [liveFull]
  | cons _ rest =>
    cases Config.maxLivePred with
    | none => simp [liveFull]
    | some m => simpa [liveFull] using eq_comm

/-- With LIVE full, a complete header ends the command. -/
theorem allocateFor_of_full {b : Option Nat} {s : State} (h : liveFull b s.live = true) :
    allocateFor b s = allocFail (allocSize (decBytes s.r.lenbuf)) (decodeLength s.r.lenbuf s) := by
  simp [allocateFor, h]

/-- With room in LIVE, a complete header asks for storage. -/
theorem allocateFor_of_room {b : Option Nat} {s : State} (h : ¬ liveFull b s.live = true) :
    allocateFor b s =
      { s with
        r := { s.r with len32 := decBytes s.r.lenbuf, ph := .alloc }
        env := { s.env with out := s.env.out ++ [.alloc (allocSize (decBytes s.r.lenbuf))] } } := by
  simp [allocateFor, h, decodeLength, issue]

end Sys2Proof.Machine
end

