-- ==== Sys2Proof/Laws/PerInstr.lean ====
section
/-! SUPPORT. One statement per instruction: what the decoder answers is well formed (R64: the two formats of a wire header never
overlap). -/

namespace Sys2Proof.Laws.DecodedWellFormed

/-- Whatever bits decode to this instruction, it is well formed. -/
def Statement (i : Instr) : Prop := ∀ e : Encoded, decode e = .ok i → i.wellFormed = true

/-- A decoded header keeps the rule of R64 on its first byte. -/
theorem decodeHeader_wellFormed {bytes rest : List Byte} {i : Instr} (h : decodeHeader bytes = .ok (i, rest)) :
    i.wellFormed = true := by
  unfold decodeHeader at h
  split at h
  · next b c0 c1 c2 r =>
    split at h
    · next hb =>
      subst hb
      cases h
      refine beq_iff_eq.2 (BitVec.eq_of_toNat_eq ?_)
      have h0 := c0.isLt
      have h1 := c1.isLt
      have h2 := c2.isLt
      have ht := decBytes_toNat ⟨0#8, c0, c1, c2⟩
      have hz : (0#8 : Byte).toNat = 0 := rfl
      simp only [hz] at ht
      rw [BitVec.extractLsb'_toNat, ht, Nat.shiftRight_eq_div_pow]
      omega
    · next hb =>
      split at h
      · cases h
        exact bne_iff_ne.2 hb
      · cases h
  · cases h

/-- Only the wire yields a header. -/
theorem decode_wire {e : Encoded} {i : Instr} (h : decode e = .ok i)
    (hw : ∀ bytes, e = .wire bytes → ∀ rest, decodeHeader bytes = .ok (i, rest) → i.wellFormed = true)
    (ho : (∀ bytes, e ≠ .wire bytes) → i.wellFormed = true) : i.wellFormed = true := by
  cases e with
  | wire bytes =>
    simp only [decode] at h
    split at h
    · next hd =>
      cases h
      exact hw bytes rfl [] hd
    · cases h
    · cases h
  | wcmd _ => exact ho nofun
  | rcmd _ => exact ho nofun
  | internal _ _ => exact ho nofun

theorem sendToken (flag : FlagIn) (len : LenIn) (base : Handle) : Statement (.sendToken flag len base) := fun _ _ => rfl
theorem illegalWcmdOp00 : Statement .illegalWcmdOp00 := fun _ _ => rfl
theorem illegalWcmdOp10 : Statement .illegalWcmdOp10 := fun _ _ => rfl
theorem illegalWcmdOp11 : Statement .illegalWcmdOp11 := fun _ _ => rfl
theorem recvToken : Statement .recvToken := fun _ _ => rfl
theorem releaseToken (valid : Bool) (handle : Handle) (length : Len) : Statement (.releaseToken valid handle length) :=
  fun _ _ => rfl
theorem illegalRcmdOp00 : Statement .illegalRcmdOp00 := fun _ _ => rfl
theorem illegalRcmdOp01 : Statement .illegalRcmdOp01 := fun _ _ => rfl
theorem encBe32 (len : Len) : Statement (.encBe32 len) := fun _ _ => rfl
theorem decBe32 (b0 b1 b2 b3 : Byte) : Statement (.decBe32 b0 b1 b2 b3) := fun _ _ => rfl
theorem xferTx (req : Len) : Statement (.xferTx req) := fun _ _ => rfl
theorem xferRx (req : Len) : Statement (.xferRx req) := fun _ _ => rfl

/-- Command words and operand bits decode to no header. -/
theorem not_header_of_not_wire {e : Encoded} {i : Instr} (he : ∀ bytes, e ≠ .wire bytes) (h : decode e = .ok i) :
    (∀ length, i ≠ .frameZeroFlag length) ∧ ∀ flag length, i ≠ .frameNonzeroFlag flag length := by
  cases e with
  | wire bytes => exact absurd rfl (he bytes)
  | wcmd w =>
    simp only [decode, Except.ok.injEq] at h
    subst h
    unfold decodeWcmd
    split <;> exact ⟨nofun, nofun⟩
  | rcmd w =>
    simp only [decode, Except.ok.injEq] at h
    subst h
    unfold decodeRcmd
    split <;> exact ⟨nofun, nofun⟩
  | internal op w =>
    simp only [decode, Except.ok.injEq] at h
    subst h
    cases op <;> exact ⟨nofun, nofun⟩

theorem frameZeroFlag (length : Len) : Statement (.frameZeroFlag length) := fun _ h =>
  decode_wire h (fun _ _ _ hd => decodeHeader_wellFormed hd) fun he =>
    absurd rfl ((not_header_of_not_wire he h).1 length)

theorem frameNonzeroFlag (flag : Byte) (length : Len) : Statement (.frameNonzeroFlag flag length) := fun _ h =>
  decode_wire h (fun _ _ _ hd => decodeHeader_wellFormed hd) fun he =>
    absurd rfl ((not_header_of_not_wire he h).2 flag length)

end Sys2Proof.Laws.DecodedWellFormed
end

