-- ==== Sys2Proof/Laws/Steps.lean ====
section
/-! SUPPORT. Everything a step of each agent can do, once: a proof over all steps takes these cases and unfolds no step. -/

namespace Sys2Proof.Machine

/-! ## What each agent can do -/

/-- Where WR goes with FATAL = 0. -/
inductive WriterStepped (s : State) : State → Prop
  | idle (hw : s.w.ph = .idle) (hc : s.env.wcmd = []) : WriterStepped s s
  | halted (hw : s.w.ph = .halt) : WriterStepped s s
  | waits (hw : writerMoving s) (he : s.w.wx.ph = .att ∨ s.w.wx.ph = .wait) : WriterStepped s s
  | overrun (hw : writerMoving s) (he : s.w.wx.ph = .check) (hn : ¬ s.w.wx.cnt ≤ s.w.wx.req) : WriterStepped s s
  | sends (word : WcmdWord) (rest : List WcmdWord) (flag : FlagIn) (len : LenIn) (base : Handle) (hw : s.w.ph = .idle)
      (hc : s.env.wcmd = word :: rest) :
      WriterStepped s (acceptSend flag len base { s with env := { s.env with wcmd := rest } })
  | rejects (word : WcmdWord) (rest : List WcmdWord) (hw : s.w.ph = .idle) (hc : s.env.wcmd = word :: rest) :
      WriterStepped s (badCommandW { s with env := { s.env with wcmd := rest } })
  | completes (hw : writerMoving s) (he : s.w.wx.ph = .check) (hn : s.w.wx.cnt = s.w.wx.req) :
      WriterStepped s (setWx (s.w.wx.finish .kComplete) s)
  | offers (bytes : List Byte) (hw : writerMoving s) (he : s.w.wx.ph = .check) (hn : s.w.wx.cnt < s.w.wx.req)
      (hb : txSource s = some bytes) :
      WriterStepped s
        { s with
          w := { s.w with wx := { s.w.wx with ph := .att } }
          env := { s.env with
            offer := bytes, draws := s.env.draws + 1, out := s.env.out ++ [.txAttempt bytes] } }
  | flagSent (hw : s.w.ph = .flag) (he : s.w.wx.ph = .done) (hk : s.w.wx.kind = .kComplete) :
      WriterStepped s { s with w := { s.w with ph := .chk } }
  | oversized (hw : s.w.ph = .chk) (hl : 4294967295 < s.w.tlen.toNat) : WriterStepped s (fatalStop s)
  | encodes (hw : s.w.ph = .chk) (hl : s.w.tlen.toNat ≤ 4294967295) :
      WriterStepped s
        { s with
          w := { s.w with lenbuf := encBytes (s.w.tlen.setWidth 32), wx := s.w.wx.start 4#32, ph := .len } }
  | lengthSent (hw : s.w.ph = .len) (he : s.w.wx.ph = .done) (hk : s.w.wx.kind = .kComplete) :
      WriterStepped s { s with w := { s.w with wx := s.w.wx.start (s.w.tlen.setWidth 32), ph := .pay } }
  | payloadSent (hw : s.w.ph = .pay) (he : s.w.wx.ph = .done) (hk : s.w.wx.kind = .kComplete) :
      WriterStepped s
        { s with
          w := { s.w with status := .stOk, ph := .idle }
          env := { s.env with out := s.env.out ++ [.resultW .stOk s.w.stage s.w.got s.w.exp s.w.errcode] } }
  | fails (stage : Stage) (exp : Len) (he : s.w.wx.ph = .done) (hk : s.w.wx.kind ≠ .kComplete)
      (hs : s.w.ph = .flag ∧ stage = .stgFlag ∧ exp = 1#32 ∨ s.w.ph = .len ∧ stage = .stgLength ∧ exp = 4#32 ∨
        s.w.ph = .pay ∧ stage = .stgPayload ∧ exp = s.w.tlen.setWidth 32) :
      WriterStepped s (fail .wr s.w.wx.kind stage s.w.wx.cnt exp s.w.wx.code s)

/-- Where TXT's answer to WR's outstanding attempt leads. -/
inductive TxAnswered (s : State) : TxAnswer → State → Prop
  | failed (c : ErrCode) :
      TxAnswered s (.err c)
        { s with w := { s.w with wx := s.w.wx.fail c }, env := { s.env with offer := [] } }
  | closed :
      TxAnswered s (.moved 0)
        { s with w := { s.w with wx := s.w.wx.finish .kClosed }, env := { s.env with offer := [] } }
  | moved (k : Nat) (hk : 1 ≤ k) (hl : k ≤ s.w.wx.left) :
      TxAnswered s (.moved k)
        { s with
          w := { s.w with wx := s.w.wx.moved k }
          env := { s.env with offer := [], wireTx := s.env.wireTx ++ s.env.offer.take k } }

/-- Where RD goes with FATAL = 0. -/
inductive ReaderStepped (s : State) : State → Prop
  | idle (hr : s.r.ph = .idle) (hc : s.env.rcmd = []) : ReaderStepped s s
  | allocating (hr : s.r.ph = .alloc) : ReaderStepped s s
  | waits (hr : readerMoving s) (he : s.r.rx.ph = .att ∨ s.r.rx.ph = .wait ∧ s.env.rxReady = false) : ReaderStepped s s
  | overrun (hr : readerMoving s) (he : s.r.rx.ph = .check) (hn : ¬ s.r.rx.cnt ≤ s.r.rx.req) : ReaderStepped s s
  | receives (word : RcmdWord) (rest : List RcmdWord) (hr : s.r.ph = .idle) (hc : s.env.rcmd = word :: rest) :
      ReaderStepped s (acceptRecv { s with env := { s.env with rcmd := rest } })
  | rejects (word : RcmdWord) (rest : List RcmdWord) (hr : s.r.ph = .idle) (hc : s.env.rcmd = word :: rest) :
      ReaderStepped s (badCommandR { s with env := { s.env with rcmd := rest } })
  | releases (word : RcmdWord) (rest : List RcmdWord) (h : Handle) (hr : s.r.ph = .idle)
      (hc : s.env.rcmd = word :: rest) (hl : h ∈ s.live) :
      ReaderStepped s
        (releaseEnd .stOk
          { s with
            live := liveErase s.live h
            env := { s.env with
              rcmd := rest, out := s.env.out ++ [.free h], pool := poolFree s.env.pool h
              rxbuf := Memory.drop s.env.rxbuf h } })
  | releasesNothing (word : RcmdWord) (rest : List RcmdWord) (st : Status) (hr : s.r.ph = .idle)
      (hc : s.env.rcmd = word :: rest) (hst : st = .stOk ∨ st = .stReleaseError) :
      ReaderStepped s (releaseEnd st { s with env := { s.env with rcmd := rest } })
  | completes (hr : readerMoving s) (he : s.r.rx.ph = .check) (hn : s.r.rx.cnt = s.r.rx.req) :
      ReaderStepped s (setRx (s.r.rx.finish .kComplete) s)
  | arms (hr : readerMoving s) (he : s.r.rx.ph = .check) (hn : s.r.rx.cnt < s.r.rx.req) :
      ReaderStepped s { s with r := { s.r with tmr := 0, rx := { s.r.rx with ph := .wait } } }
  | asks (hr : readerMoving s) (he : s.r.rx.ph = .wait) (hy : s.env.rxReady = true) :
      ReaderStepped s
        { s with
          r := { s.r with rx := { s.r.rx with ph := .att } }
          env := { s.env with out := s.env.out ++ [.rxAttempt s.r.rx.left] } }
  | zeroByte (hr : s.r.ph = .first) (he : s.r.rx.ph = .done) (hk : s.r.rx.kind = .kComplete) (hb : s.r.b0 = 0#8) :
      ReaderStepped s
        { s with
          r := { s.r with
            zf := true, flag := 0#8, lenbuf := { s.r.lenbuf with b0 := 0#8 }, rx := s.r.rx.start 3#32, ph := .len } }
  | flagByte (hr : s.r.ph = .first) (he : s.r.rx.ph = .done) (hk : s.r.rx.kind = .kComplete) (hb : s.r.b0 ≠ 0#8) :
      ReaderStepped s
        { s with r := { s.r with zf := false, flag := s.r.b0, rx := s.r.rx.start 4#32, ph := .len } }
  | full (hr : s.r.ph = .len) (he : s.r.rx.ph = .done) (hk : s.r.rx.kind = .kComplete)
      (hf : Config.maxLive = some s.live.length) :
      ReaderStepped s
        (allocFail (allocSize (decBytes (encBytes (decBytes s.r.lenbuf))))
          { s with
            r := { s.r with
              flag := if s.r.zf then 0#8 else s.r.flag
              lenbuf := encBytes (decBytes s.r.lenbuf)
              len32 := decBytes (encBytes (decBytes s.r.lenbuf)) } })
  | allocates (hr : s.r.ph = .len) (he : s.r.rx.ph = .done) (hk : s.r.rx.kind = .kComplete)
      (hf : Config.maxLive ≠ some s.live.length) :
      ReaderStepped s
        { s with
          r := { s.r with
            flag := if s.r.zf then 0#8 else s.r.flag
            lenbuf := encBytes (decBytes s.r.lenbuf)
            len32 := decBytes (encBytes (decBytes s.r.lenbuf))
            ph := .alloc }
          env := { s.env with
            out := s.env.out ++ [.alloc (allocSize (decBytes (encBytes (decBytes s.r.lenbuf))))] } }
  | received (hr : s.r.ph = .pay) (he : s.r.rx.ph = .done) (hk : s.r.rx.kind = .kComplete) :
      ReaderStepped s (payloadReceived s)
  | fails (stage : Stage) (exp : Len) (he : s.r.rx.ph = .done) (hk : s.r.rx.kind ≠ .kComplete)
      (hs : s.r.ph = .first ∧ stage = .stgFlag ∧ exp = 1#32 ∨
        s.r.ph = .len ∧ stage = .stgLength ∧ exp = if s.r.zf then 3#32 else 4#32) :
      ReaderStepped s (fail .rd s.r.rx.kind stage s.r.rx.cnt exp s.r.rx.code s)
  | frees (hr : s.r.ph = .pay) (he : s.r.rx.ph = .done) (hk : s.r.rx.kind ≠ .kComplete) :
      ReaderStepped s
        (fail .rd s.r.rx.kind .stgPayload s.r.rx.cnt s.r.len32 s.r.rx.code
          { s with
            r := { s.r with hv := false }
            env := { s.env with
              out := s.env.out ++ [.free s.r.h], pool := poolFree s.env.pool s.r.h
              rxbuf := Memory.drop s.env.rxbuf s.r.h } })

/-- What a sink changes: the first byte, the length buffer, or the bytes of the reader's own storage. -/
inductive Sunk (s : State) (d : List Byte) : State → Prop
  | first (hr : s.r.ph = .first) :
      Sunk s d { s with r := { s.r with b0 := if s.r.rx.cnt = 0#32 then d.headD s.r.b0 else s.r.b0 } }
  | length (hr : s.r.ph = .len) :
      Sunk s d { s with r := { s.r with lenbuf := Be4.setRun s.r.lenbuf (s.r.rx.cnt.toNat + s.r.zf.toNat) d } }
  | payload (n : Nat) (hr : s.r.ph = .pay) (hp : poolSize s.env.pool s.r.h = some n)
      (hn : s.r.rx.cnt.toNat + d.length ≤ n) :
      Sunk s d { s with env := { s.env with rxbuf := Memory.writeRun s.env.rxbuf s.r.h s.r.rx.cnt.toNat d } }
  | nowhere (hr : s.r.ph = .idle ∨ s.r.ph = .alloc) : Sunk s d s

/-- Where RXT's answer to RD's outstanding attempt leads. -/
inductive RxAnswered (s : State) : RxAnswer → State → Prop
  | failed (c : ErrCode) : RxAnswered s (.err c) (setRx (s.r.rx.fail c) s)
  | closed : RxAnswered s (.moved 0) (setRx (s.r.rx.finish .kClosed) s)
  | moved (k : Nat) (t : State) (hk : 1 ≤ k) (hl : k ≤ s.r.rx.left) (hw : k ≤ s.env.wireRx.length)
      (ht : Sunk s (s.env.wireRx.take k) t) :
      RxAnswered s (.moved k)
        { t with
          r := { t.r with rx := s.r.rx.moved k }
          env := { t.env with wireRx := s.env.wireRx.drop k } }

/-- Where ALLOC's answer leads. -/
inductive AllocAnswered (s : State) : AllocAnswer → State → Prop
  | noMem : AllocAnswered s .noMem (allocFail (allocSize s.r.len32) s)
  | ok (h : Handle) (hp : poolSize s.env.pool h = none) (hl : h ∉ s.live) :
      AllocAnswered s (.ok h)
        { s with
          r := { s.r with h := h, hv := true, rx := s.r.rx.start s.r.len32, ph := .pay }
          env := { s.env with
            pool := (h, (allocSize s.r.len32).toNat) :: s.env.pool, rxbuf := Memory.drop s.env.rxbuf h } }

/-- Where the late answer to a request that a reset forgot leads: no register, no issue. -/
inductive LateAnswered (s : State) (i : Nat) : LateAnswer → State → Prop
  | unknown (a : LateAnswer) (hi : s.env.forgotten[i]? = none) : LateAnswered s i a s
  | nothing (a : LateAnswer) :
      LateAnswered s i a { s with env := { s.env with forgotten := s.env.forgotten.eraseIdx i } }
  | sent (bytes : List Byte) (k : Nat) (hi : s.env.forgotten[i]? = some (.tx bytes)) (hk : k ≤ bytes.length) :
      LateAnswered s i (.moved k)
        { s with
          env := { s.env with
            forgotten := s.env.forgotten.eraseIdx i, wireTx := s.env.wireTx ++ bytes.take k } }
  | received (n k : Nat) (hi : s.env.forgotten[i]? = some (.rx n)) (hk : k ≤ n) (hw : k ≤ s.env.wireRx.length) :
      LateAnswered s i (.moved k)
        { s with
          env := { s.env with
            forgotten := s.env.forgotten.eraseIdx i, wireRx := s.env.wireRx.drop k } }
  | allocated (n : Nat) (h : Handle) (hi : s.env.forgotten[i]? = some (.alloc n))
      (hp : poolSize s.env.pool h = none) (hl : h ∉ s.live) :
      LateAnswered s i (.ok h)
        { s with
          env := { s.env with
            forgotten := s.env.forgotten.eraseIdx i, pool := (h, n) :: s.env.pool
            rxbuf := Memory.drop s.env.rxbuf h } }

/-! ## The steps take no other way -/

variable {s t : State}

/-- A count that is neither the requested one nor less is more. -/
theorem not_le_of_ne_of_not_lt {a b : Len} (h1 : ¬ a = b) (h2 : ¬ a < b) : ¬ a ≤ b := by
  bv_omega

theorem txStage_stepped {k : State} (hm : writerMoving s) (hd : s.w.wx.ph = .done → WriterStepped s k)
    (h : txStage k s = .next t) : WriterStepped s t := by
  unfold txStage at h
  split at h
  · next he =>
    simp only [txCheck] at h
    split at h
    · next hn =>
      cases h
      exact .completes hm he hn
    · next hne =>
      split at h
      · next hn =>
        split at h
        · cases h
        · next bytes hb =>
          cases h
          exact .offers bytes hm he hn hb
      · next hn =>
        cases h
        exact .overrun hm he (not_le_of_ne_of_not_lt hne hn)
  · next he =>
    cases h
    exact .waits hm (.inl he)
  · next he =>
    cases h
    exact .waits hm (.inr he)
  · next he =>
    cases h
    exact hd he

theorem writerAccept_stepped (hw : s.w.ph = .idle) (h : writerAccept s = .next t) :
    WriterStepped s t := by
  unfold writerAccept at h
  split at h
  · next hc =>
    cases h
    exact .idle hw hc
  · next word rest hc =>
    unfold decodeWcmd at h
    split at h <;>
      simp only [exec, execSendToken, execIllegalWcmdOp00, execIllegalWcmdOp10, execIllegalWcmdOp11, acceptW_eq_next,
        if_pos hw] at h <;>
      obtain ⟨-, rfl⟩ := h
    · exact .rejects word rest hw hc
    · exact .sends word rest _ _ _ hw hc
    · exact .rejects word rest hw hc
    · exact .rejects word rest hw hc

theorem writerStep_cases (h : writerStep s = .next t) : s.fatal = false ∧ WriterStepped s t := by
  obtain ⟨hf, h⟩ := running_eq_next.1 h
  refine ⟨hf, ?_⟩
  split at h
  · next hw => exact writerAccept_stepped hw h
  · unfold writerBusyStep at h
    split at h
    · next hw =>
      refine txStage_stepped (.inl hw) (fun he => ?_) h
      unfold flagEnded
      split
      · next hk => exact .flagSent hw he hk
      · next hk => exact .fails _ _ he hk (.inl ⟨hw, rfl, rfl⟩)
    · next hw =>
      cases h
      unfold checkLength
      split
      · next hl => exact .oversized hw (of_decide_eq_true hl)
      · next hl => exact .encodes hw (by simpa [oversized] using hl)
    · next hw =>
      refine txStage_stepped (.inr (.inl hw)) (fun he => ?_) h
      unfold lengthEnded
      split
      · next hk => exact .lengthSent hw he hk
      · next hk => exact .fails _ _ he hk (.inr (.inl ⟨hw, rfl, rfl⟩))
    · next hw =>
      refine txStage_stepped (.inr (.inr hw)) (fun he => ?_) h
      unfold payloadEnded
      split
      · next hk => exact .payloadSent hw he hk
      · next hk => exact .fails _ _ he hk (.inr (.inr ⟨hw, rfl, rfl⟩))
    · next hw => exact absurd hw ‹¬ s.w.ph = .idle›
    · next hw =>
      cases h
      exact .halted hw

theorem txAnswered_cases {a : TxAnswer} (h : txAnswered a s = .next t) : TxAnswered s a t := by
  unfold txAnswered at h
  split at h
  · cases h
    exact .failed _
  · cases h
    exact .closed
  · dsimp only at h
    split at h
    · cases h
    · cases h
      exact .moved _ (by omega) (by omega)

theorem rxStage_stepped {k : Res} (hm : readerMoving s)
    (hd : s.r.rx.ph = .done → k = .next t → ReaderStepped s t) (h : rxStage k s = .next t) : ReaderStepped s t := by
  unfold rxStage at h
  split at h
  · next he =>
    simp only [rxCheck] at h
    split at h
    · next hn =>
      cases h
      exact .completes hm he hn
    · next hne =>
      split at h
      · next hn =>
        cases h
        exact .arms hm he hn
      · next hn =>
        cases h
        exact .overrun hm he (not_le_of_ne_of_not_lt hne hn)
  · next he =>
    split at h
    · next hy =>
      cases h
      exact .asks hm he hy
    · next hy =>
      cases h
      exact .waits hm (.inr ⟨he, by simpa using hy⟩)
  · next he =>
    cases h
    exact .waits hm (.inl he)
  · next he => exact hd he h

theorem readerAccept_stepped (hr : s.r.ph = .idle) (h : readerAccept s = .next t) :
    ReaderStepped s t := by
  unfold readerAccept at h
  split at h
  · next hc =>
    cases h
    exact .idle hr hc
  · next word rest hc =>
    unfold decodeRcmd at h
    split at h <;>
      simp only [exec, execRecvToken, execReleaseToken, execIllegalRcmdOp00, execIllegalRcmdOp01, acceptR_eq_next,
        if_pos hr] at h <;>
      obtain ⟨-, rfl⟩ := h
    · exact .rejects word rest hr hc
    · exact .rejects word rest hr hc
    · exact .receives word rest hr hc
    · unfold releaseStep
      split
      · exact .releasesNothing word rest _ hr hc (.inl rfl)
      · split
        · next hl => exact .releases word rest _ hr hc hl
        · exact .releasesNothing word rest _ hr hc (.inr rfl)

theorem lengthStageEnded_stepped (hf : s.fatal = false) (hr : s.r.ph = .len) (he : s.r.rx.ph = .done)
    (h : lengthStageEnded s = .next t) : ReaderStepped s t := by
  unfold lengthStageEnded at h
  split at h
  · next hd =>
    have hk : s.r.rx.kind = .kComplete := by
      simp only [headerDone, Bool.and_eq_true, beq_iff_eq] at hd
      exact hd.2
    have ht : t = allocateFor Config.maxLivePred
        (stageHeader s.r.zf (if s.r.zf then 0#8 else s.r.flag) (decBytes s.r.lenbuf) s) := by
      cases hz : s.r.zf <;>
        simpa [headerInstr, hz, exec, execFrameZeroFlag, execFrameNonzeroFlag, takeHeader, running, hf, hd, eq_comm]
          using h
    subst ht
    by_cases hl : Config.maxLive = some s.live.length
    · rw [allocateFor_of_full (s := stageHeader _ _ _ s) ((liveFull_iff s.live).2 hl)]
      exact .full hr he hk hl
    · rw [allocateFor_of_room (s := stageHeader _ _ _ s) fun hc => hl ((liveFull_iff s.live).1 hc)]
      exact .allocates hr he hk hl
  · next hd =>
    cases h
    refine .fails _ _ he (fun hk => hd ?_) (.inr ⟨hr, rfl, rfl⟩)
    simp [headerDone, hr, he, hk]

theorem readerStep_cases (h : readerStep s = .next t) : s.fatal = false ∧ ReaderStepped s t := by
  obtain ⟨hf, h⟩ := running_eq_next.1 h
  refine ⟨hf, ?_⟩
  split at h
  · next hr => exact readerAccept_stepped hr h
  · next hr =>
    refine rxStage_stepped (.inl hr) (fun he hk => ?_) h
    cases hk
    unfold firstEnded
    split
    · next hk => exact .fails _ _ he hk (.inl ⟨hr, rfl, rfl⟩)
    · next hk =>
      split
      · next hb => exact .zeroByte hr he (not_not.1 hk) (by simpa [zeroFirst] using hb)
      · next hb => exact .flagByte hr he (not_not.1 hk) (by simpa [zeroFirst] using hb)
  · next hr => exact rxStage_stepped (.inr (.inl hr)) (fun he hk => lengthStageEnded_stepped hf hr he hk) h
  · next hr =>
    cases h
    exact .allocating hr
  · next hr =>
    refine rxStage_stepped (.inr (.inr hr)) (fun he hk => ?_) h
    cases hk
    unfold payloadStageEnded
    split
    · next hk => exact .received hr he hk
    · next hk => exact .frees hr he hk

theorem rxSink_cases {d : List Byte} (h : rxSink d s = some t) : Sunk s d t := by
  unfold rxSink at h
  split at h
  · next hr =>
    cases h
    exact .first hr
  · next hr =>
    cases h
    exact .length hr
  · next hr =>
    split at h
    · next hs =>
      cases h
      unfold storageHolds at hs
      split at hs
      · next n hp => exact .payload n hr hp (of_decide_eq_true hs)
      · cases hs
    · cases h
  · next hr =>
    cases h
    exact .nowhere (.inl hr)
  · next hr =>
    cases h
    exact .nowhere (.inr hr)

theorem rxAnswered_cases {a : RxAnswer} (h : rxAnswered a s = .next t) : RxAnswered s a t := by
  unfold rxAnswered at h
  split at h
  · cases h
    exact .failed _
  · cases h
    exact .closed
  · dsimp only at h
    split at h
    · cases h
    · split at h
      · cases h
      · split at h
        · cases h
        · next u hu =>
          cases h
          exact .moved _ u (by omega) (by omega) (by omega) (rxSink_cases hu)

theorem allocAnswered_cases {a : AllocAnswer} (h : allocAnswered a s = .next t) : AllocAnswered s a t := by
  unfold allocAnswered at h
  split at h
  · cases h
    exact .noMem
  · next g =>
    split at h
    · cases h
    · next hn =>
      cases h
      obtain ⟨hp, hl⟩ := not_or.1 hn
      exact .ok g (by simpa using hp) hl

theorem lateAnswered_cases {i : Nat} {a : LateAnswer} (h : lateAnswered i a s = .next t) : LateAnswered s i a t := by
  unfold lateAnswered at h
  split at h
  · next hi =>
    cases h
    exact .unknown _ hi
  · cases h
    exact .nothing _
  · next bytes k hi =>
    split at h
    · cases h
    · cases h
      exact .sent bytes k hi (by omega)
  · next n k hi =>
    split at h
    · cases h
    · split at h
      · cases h
      · cases h
        exact .received n k hi (by omega) (by omega)
  · next n g hi =>
    split at h
    · cases h
    · next hn =>
      cases h
      obtain ⟨hp, hl⟩ := not_or.1 hn
      exact .allocated n g hi (by simpa using hp) hl
  all_goals
    cases h
    exact .nothing _

/-! ## Answers and ticks -/

theorem onTxAnswer_cases {a : TxAnswer} (h : onTxAnswer a s = .next t) :
    (s.fatal = false ∧ s.w.wx.ph = .att ∧ TxAnswered s a t) ∨ (¬ (s.fatal = false ∧ s.w.wx.ph = .att) ∧ t = s) := by
  unfold onTxAnswer at h
  split at h
  · next hc => exact .inl ⟨hc.1, hc.2, txAnswered_cases h⟩
  · next hc =>
    cases h
    exact .inr ⟨hc, rfl⟩

theorem onRxAnswer_cases {a : RxAnswer} (h : onRxAnswer a s = .next t) :
    (s.fatal = false ∧ s.r.rx.ph = .att ∧ RxAnswered s a t) ∨ (¬ (s.fatal = false ∧ s.r.rx.ph = .att) ∧ t = s) := by
  unfold onRxAnswer at h
  split at h
  · next hc => exact .inl ⟨hc.1, hc.2, rxAnswered_cases h⟩
  · next hc =>
    cases h
    exact .inr ⟨hc, rfl⟩

theorem onAllocAnswer_cases {a : AllocAnswer} (h : onAllocAnswer a s = .next t) :
    (s.fatal = false ∧ s.r.ph = .alloc ∧ AllocAnswered s a t) ∨ (¬ (s.fatal = false ∧ s.r.ph = .alloc) ∧ t = s) := by
  unfold onAllocAnswer at h
  split at h
  · next hc => exact .inl ⟨hc.1, hc.2, allocAnswered_cases h⟩
  · next hc =>
    cases h
    exact .inr ⟨hc, rfl⟩

/-- A tick advances the timer or ends the wait, or does nothing. -/
theorem onTick_cases (s : State) :
    (s.fatal = false ∧ s.r.rx.ph = .wait ∧ s.env.rxReady = false ∧
      ((s.r.tmr + 1 < Config.rxTimeoutTicks ∧ onTick s = { s with r := { s.r with tmr := s.r.tmr + 1 } }) ∨
        (¬ s.r.tmr + 1 < Config.rxTimeoutTicks ∧
          onTick s =
            { s with r := { s.r with tmr := Config.rxTimeoutTicks, rx := s.r.rx.finish .kPartial } }))) ∨
    (¬ (s.fatal = false ∧ s.r.rx.ph = .wait ∧ s.env.rxReady = false) ∧ onTick s = s) := by
  unfold onTick
  split
  · next hc =>
    refine .inl ⟨hc.1, hc.2.1, hc.2.2, ?_⟩
    unfold rxTick
    split
    · next ht => exact .inl ⟨ht, rfl⟩
    · next ht => exact .inr ⟨ht, rfl⟩
  · next hc => exact .inr ⟨hc, rfl⟩

/-! ## The host's writes -/

/-- The host's write reaches storage only where it owns the byte. -/
theorem hostWrites_eq_next {h : Handle} {i : Len} {v : Byte} :
    hostWrites h i v s = .next t ↔
      (h ∈ s.live ∧ storageHolds s.env.pool h i.toNat 1 = true) ∧
        { s with env := { s.env with rxbuf := Memory.write s.env.rxbuf (cellAddr h i.toNat) v } } = t := by
  unfold hostWrites
  split <;> simp [*]

/-- A byte placed changes nothing but the token store and the list of older values. -/
theorem placeByte_eq (b : Handle) (i : Len) (v : Byte) (s : State) :
    ∃ older, placeByte b i v s =
      { s with
        env := { s.env with toksrc := Memory.write s.env.toksrc (cellAddr b i.toNat) v, older := older } } :=
  ⟨_, rfl⟩

/-- A byte of the store other than byte `j` of the token leaves that byte's values as they are. -/
theorem tokValues_placeByte_other {b : Handle} {i : Len} (v : Byte) {j : Nat}
    (hj : cellAddr b i.toNat ≠ cellAddr s.w.tbase j) : tokValues (placeByte b i v s) j = tokValues s j := by
  simp only [tokValues, placeByte, Memory.read_write_other _ _ hj]
  split
  · rfl
  · split <;> simp [hj]

/-- A token byte given the value it has keeps its values. -/
theorem tokValues_placeByte_same {i : Len} {v : Byte}
    (hr : Memory.read s.env.toksrc (cellAddr s.w.tbase i.toNat) = some v) :
    tokValues (placeByte s.w.tbase i v s) i.toNat = tokValues s i.toNat := by
  simp [tokValues, placeByte, Memory.read_write_same, hr]

/-- In a send, a token byte that the host writes has the new value beside those it had. -/
theorem mem_tokValues_placeByte (hw : s.w.ph ≠ .idle) (i : Len) (v u : Byte) :
    u ∈ tokValues (placeByte s.w.tbase i v s) i.toNat ↔ u = v ∨ u ∈ tokValues s i.toNat := by
  simp only [tokValues, placeByte, Memory.read_write_same]
  cases hr : Memory.read s.env.toksrc (cellAddr s.w.tbase i.toNat) with
  | none => simp
  | some old =>
    by_cases ho : old = v
    · simp [hw, ho]
    · simp [hw, ho]

end Sys2Proof.Machine
end

