-- ==== Sys2Proof/Tests/Slice0.lean ====
section
/-! SUPPORT. Tests. Expected values come from spec/95_test_vectors.md (E, V- and P numbers), from the encodings of 30_encoding.md, or
from the rule named; the witness theorems show that the hypotheses of each statement can be met together. -/

namespace Sys2Proof.Tests

open Sys2Proof.Machine

/-! ## Helpers -/

/-- The next state, if the outcome is one. -/
def after (o : Res) : Option State :=
  match o with
  | .next t => some t
  | .fault _ => none
  | .refused _ => none

/-- A part of the next state, if there is one. -/
def see {α : Type} (o : Res) (f : State → α) : Option α := (after o).map f

/-- The fault, if the outcome is one. -/
def faultOf (o : Res) : Option Fault :=
  match o with
  | .next _ => none
  | .fault f => some f
  | .refused _ => none

/-- The events of one step from a state with this event next. -/
def stepOn (e : Event) (s : State) : Res := step { s with env := { s.env with script := [e] } }

/-- An engine in a given phase. -/
def engine (ph : EPhase) (req cnt : Len) (kind : XKind) : Engine :=
  { ph := ph, req := req, cnt := cnt, kind := kind, code := 0x68 }

/-- Four token bytes at 0x1000 (P1). -/
def token : Memory :=
  [(0x100000000000, 0xDE), (0x100000000001, 0xAD), (0x100000000002, 0xBE), (0x100000000003, 0xEF)]

/-- WR in the middle of `SENDB 0x16, [DE AD BE EF] @0x1000` (V-W4). -/
def sending (ph : WPhase) (e : Engine) : State :=
  { State.reset with
    w := { Writer.reset with
      ph := ph, flagIn := 0x16, tlen := 4, tbase := 0x1000, fb := 0x16, lenbuf := ⟨0, 0, 0, 4⟩, wx := e }
    env := { Env.reset with toksrc := token } }

/-- The same with an offer outstanding. -/
def offering (ph : WPhase) (e : Engine) (offer : List Byte) : State :=
  { sending ph e with env := { Env.reset with toksrc := token, offer := offer } }

/-- WR about to test the length of an oversized token without a flag (V-W13). -/
def oversizedToken : State :=
  { State.reset with w := { Writer.reset with ph := .chk, tlen := 0x100000000 } }

/-- RD in the middle of receiving flag 0x16 and four bytes (V-R4), the stream as given. -/
def receiving (ph : RPhase) (e : Engine) (stream : List Byte) : State :=
  { State.reset with
    r := { Reader.reset with ph := ph, b0 := 0x16, flag := 0x16, lenbuf := ⟨0, 0, 0, 4⟩, len32 := 4, rx := e }
    env := { Env.reset with wireRx := stream } }

/-- RD receiving the four payload bytes into storage 0x5000, while the host holds a token at 0x5008. -/
def paying (e : Engine) (stream : List Byte) : State :=
  { receiving .pay e stream with
    live := [0x5008]
    r := { (receiving .pay e stream).r with h := 0x5000, hv := true }
    env := { Env.reset with wireRx := stream, pool := [(0x5000, 4), (0x5008, 1)] } }

/-- One live token of four bytes at 0x5000 (V-T2). -/
def holding : State :=
  { State.reset with
    live := [0x5000]
    env := { Env.reset with pool := [(0x5000, 4)], rxbuf := [(0x500000000000, 0xDE), (0x500800000000, 0xAA)] } }

/-- FATAL = 1 as P5 leaves it. -/
def stopped : State :=
  { State.reset with fatal := true, w := { Writer.reset with ph := .halt, status := .stOversized } }

/-! ## Well-formedness (R64) -/

theorem test_zero_flag_header_has_top_byte_zero : (Instr.frameZeroFlag 0x01000000).wellFormed = false := by decide
theorem test_zero_flag_header_largest : (Instr.frameZeroFlag 0x00FFFFFF).wellFormed = true := by decide
theorem test_nonzero_flag_header_has_a_flag : (Instr.frameNonzeroFlag 0 4).wellFormed = false := by decide
theorem test_nonzero_flag_header : (Instr.frameNonzeroFlag 0x80 0).wellFormed = true := by decide

/-! ## Decoding: one word a constructor, written out from R67 to R71 and R61 -/

/-- P1's first word: op 01, flag 0x16 at bit 2, length 4 at bit 34, base 0x1000 at bit 98. -/
theorem test_decode_send : decodeWcmd 0x00000000000004000000000000000001000000059 = .sendToken 0x16 4 0x1000 := by decide

/-- P5's second word. -/
theorem test_decode_send_oversized :
    decodeWcmd 0x00000000000014000000000040000000000000005 = .sendToken 1 0x100000000 0x5000 := by decide

/-- V-C1. -/
theorem test_decode_wcmd_op00 : decodeWcmd 0 = .illegalWcmdOp00 := by decide

/-- V-C2. -/
theorem test_decode_wcmd_op10 : decodeWcmd 2 = .illegalWcmdOp10 := by decide

/-- V-C3, and its upper bits ignored. -/
theorem test_decode_wcmd_op11 :
    decodeWcmd 3 = .illegalWcmdOp11 ∧ decodeWcmd (BitVec.allOnes 162) = .illegalWcmdOp11 := by decide

/-- V-C6. -/
theorem test_decode_recv : decodeRcmd 2 = .recvToken ∧ decodeRcmd (BitVec.allOnes 99 - 1) = .recvToken := by decide

/-- P1's last word: op 11, valid at bit 2, handle 0x5000 at bit 3, length 4 at bit 67; and RELEASE EMPTY (R78). -/
theorem test_decode_release :
    decodeRcmd 0x0000000200000000000028007 = .releaseToken true 0x5000 4 ∧
    decodeRcmd 3 = .releaseToken false 0 0 := by decide

/-- V-C4. -/
theorem test_decode_rcmd_op00 : decodeRcmd 0 = .illegalRcmdOp00 := by decide

/-- V-C5. -/
theorem test_decode_rcmd_op01 : decodeRcmd 0x59 = .illegalRcmdOp01 := by decide

/-- E3: length 2^20 without a flag; the payload follows. -/
theorem test_decode_zero_flag_header :
    decodeHeader [0, 0x10, 0, 0, 0xAA] = .ok (.frameZeroFlag 0x100000, [0xAA]) := by decide

/-- V-R4; and V-R16, whose first byte was meant as a length byte. -/
theorem test_decode_nonzero_flag_header :
    decodeHeader [0x16, 0, 0, 0, 4, 0xDE] = .ok (.frameNonzeroFlag 0x16 4, [0xDE]) ∧
    decodeHeader [1, 0, 0, 0, 2, 0xAA] = .ok (.frameNonzeroFlag 1 2, [0xAA]) := by decide

/-- R64: a header that has not all its bytes is none, and a whole header is asked for alone. -/
theorem test_decode_incomplete_header :
    decode (.wire [0x16, 0, 0, 0]) = .error .headerIncomplete ∧ decode (.wire [0, 0, 0]) = .error .headerIncomplete ∧
    decode (.wire [0, 0, 0, 1, 0xAA]) = .error .afterHeader := by decide

/-- The operand bits of the internal operations (opcode table). -/
theorem test_decode_internal :
    decode (.internal .enc 0x01020304) = .ok (.encBe32 0x01020304) ∧
    decode (.internal .dec 0x01020304) = .ok (.decBe32 1 2 3 4) ∧
    decode (.internal .tx 4) = .ok (.xferTx 4) ∧ decode (.internal .rx 3) = .ok (.xferRx 3) := by decide

/-! ## A word of the opcode table, and the step that runs it -/

theorem test_table_words :
    decodeTableWord 168 0x59 = some (.sendToken 0x16 0 0) ∧ decodeTableWord 168 0 = some .illegalWcmdOp00 ∧
    decodeTableWord 168 2 = some .illegalWcmdOp10 ∧ decodeTableWord 168 3 = some .illegalWcmdOp11 ∧
    decodeTableWord 104 2 = some .recvToken ∧ decodeTableWord 104 7 = some (.releaseToken true 0 0) ∧
    decodeTableWord 104 0 = some .illegalRcmdOp00 ∧ decodeTableWord 104 1 = some .illegalRcmdOp01 := by decide

theorem test_table_headers :
    decodeTableWord 32 0x00000004 = some (.frameZeroFlag 4) ∧
    decodeTableWord 40 0x1600000004 = some (.frameNonzeroFlag 0x16 4) := by decide

theorem test_placed_send :
    see (step (State.reset.withFetchWord 168 0x59)) (fun t => (t.w.ph, t.w.fb)) = some (.flag, 0x16) := by decide

theorem test_placed_release :
    see (step (State.reset.withFetchWord 104 3)) (fun t => (t.r.status, t.env.rcmd)) = some (.stOk, []) := by decide

theorem test_placed_bad_command :
    see (step (State.reset.withFetchWord 104 1)) (fun t => (t.r.status, t.r.ph)) = some (.stBadCommand, .idle) := by decide

/-- E3's second row as a word: the first header byte is most significant. -/
theorem test_placed_header :
    see (step (State.reset.withFetchWord 40 0x2A00000001)) (fun t => (t.r.flag, t.r.ph, t.env.out)) =
      some (0x2A, .alloc, [.alloc 1]) := by decide

/-! ## Instructions -/

/-- V-W3: flag 1 and length 0; the flag stage is started and nothing is offered yet (R111). -/
theorem test_send_with_flag :
    see (exec (.sendToken 1 0 0x1000) State.reset) (fun t => (t.w.ph, t.w.fb, t.w.wx.ph, t.w.wx.req, t.env.out)) =
      some (.flag, 1, .check, 1, []) := by decide

/-- V-W9: a flag operand 0x100 has a zero low byte and is sent all the same (R111). -/
theorem test_send_flag_0x100 :
    see (exec (.sendToken 0x100 0 0x1000) State.reset) (fun t => (t.w.ph, t.w.fb)) = some (.flag, 0) := by decide

/-- V-C1: `ST_BAD_COMMAND`, one Result, the phase stays idle. -/
theorem test_illegal_wcmd_op00 :
    see (exec .illegalWcmdOp00 State.reset) (fun t => (t.w.ph, t.w.status, t.env.out)) =
      some (.idle, .stBadCommand, [.resultW .stBadCommand .stgNone 0 0 0]) := by decide

/-- V-C2. -/
theorem test_illegal_wcmd_op10 :
    see (exec .illegalWcmdOp10 State.reset) (fun t => (t.w.ph, t.w.status)) = some (.idle, .stBadCommand) := by decide

/-- V-C3; and R66: a busy writer holds the word. -/
theorem test_illegal_wcmd_op11 :
    see (exec .illegalWcmdOp11 State.reset) (fun t => t.w.status) = some .stBadCommand ∧
    see (exec .illegalWcmdOp11 oversizedToken) (fun t => t.w.status) = some .stNone := by decide

/-- P1, reader step 1. -/
theorem test_recv :
    see (exec .recvToken State.reset) (fun t => (t.r.ph, t.r.rx.ph, t.r.rx.req, t.r.rx.cnt, t.r.rx.kind)) =
      some (.first, .check, 1, 0, .kNone) := by decide

/-- V-T2, V-T5: the length is not compared. -/
theorem test_release_live :
    see (exec (.releaseToken true 0x5000 9) holding) (fun t => (t.live, t.r.status, t.env.pool, t.env.out)) =
      some ([], .stOk, [],
        [.free 0x5000, .resultR .stOk .stgNone 0 0 0 0 ⟨false, 0, 0⟩]) := by decide

/-- V-T4: a handle that is not live. -/
theorem test_release_not_live :
    see (exec (.releaseToken true 0x9999 4) holding) (fun t => (t.live, t.r.status, t.env.out)) =
      some ([0x5000], .stReleaseError, [.resultR .stReleaseError .stgNone 0 0 0 0 ⟨false, 0, 0⟩]) := by decide

/-- V-C4. -/
theorem test_illegal_rcmd_op00 :
    see (exec .illegalRcmdOp00 holding) (fun t => (t.r.ph, t.r.status, t.live)) =
      some (.idle, .stBadCommand, [0x5000]) := by decide

/-- V-C5. -/
theorem test_illegal_rcmd_op01 :
    see (exec .illegalRcmdOp01 State.reset) (fun t => t.env.out) =
      some [.resultR .stBadCommand .stgNone 0 0 0 0 ⟨false, 0, 0⟩] := by decide

/-- V-R1, V-R12: length 0 asks for one byte (R133). -/
theorem test_zero_flag_header_of_empty_token :
    see (exec (.frameZeroFlag 0) (receiving .len (engine .done 3 3 .kComplete) []))
      (fun t => (t.r.ph, t.r.flag, t.r.len32, t.env.out)) = some (.alloc, 0, 0, [.alloc 1]) := by decide

/-- V-R4. -/
theorem test_nonzero_flag_header_allocates :
    see (exec (.frameNonzeroFlag 0x16 4) (receiving .len (engine .done 4 4 .kComplete) []))
      (fun t => (t.r.ph, t.r.flag, t.r.len32, t.env.out)) = some (.alloc, 0x16, 4, [.alloc 4]) := by decide

/-- V-R18: MAX_LIVE = 1 and one live token: no Alloc, `ST_ALLOC_FAILURE` with the size that would have been asked for. -/
theorem test_scoreboard_full :
    let t := allocateFor (some 0)
      { receiving .len (engine .done 4 4 .kComplete) [] with live := [0x5000] }
    t.r.status = .stAllocFailure ∧ t.r.exp = 4 ∧ t.r.ph = .idle ∧
    t.env.out = [.resultR .stAllocFailure .stgNone 0 4 0 0 ⟨false, 0, 0⟩] := by decide

/-- V-M11 and V-M16. -/
theorem test_enc :
    see (exec (.encBe32 0x01020304) State.reset) (fun t => t.w.lenbuf) = some ⟨1, 2, 3, 4⟩ ∧
    see (exec (.encBe32 0xFFFFFFFE) State.reset) (fun t => t.w.lenbuf) = some ⟨0xFF, 0xFF, 0xFF, 0xFE⟩ := by decide

/-- V-M12 and V-M16. -/
theorem test_dec :
    see (exec (.decBe32 0x12 0x34 0x56 0x78) State.reset) (fun t => t.r.len32.toNat) = some 305419896 ∧
    see (exec (.decBe32 0xFF 0xFF 0xFF 0xFF) State.reset) (fun t => t.r.len32.toNat) = some 4294967295 := by decide

/-- R91: `WX_CODE` is left as it was. -/
theorem test_xfer_tx :
    see (exec (.xferTx 4) (sending .flag (engine .done 1 1 .kError))) (fun t => t.w.wx) =
      some (engine .check 4 0 .kNone) := by decide

/-- R91; and R90: a transfer in progress is not restarted. -/
theorem test_xfer_rx :
    see (exec (.xferRx 3) (receiving .first (engine .done 1 1 .kComplete) [])) (fun t => t.r.rx) =
      some (engine .check 3 0 .kNone) ∧
    see (exec (.xferRx 3) (receiving .len (engine .att 4 1 .kNone) [])) (fun t => t.r.rx) =
      some (engine .att 4 1 .kNone) := by decide

/-! ## Transfers -/

/-- V-X2, second attempt: three bytes are left and all are offered. -/
theorem test_offer_what_is_left :
    see (stepOn .wr (sending .len (engine .check 4 1 .kNone))) (fun t => (t.w.wx.ph, t.env.out)) =
      some (.att, [.txAttempt [0, 0, 4]]) := by decide

/-- V-W6, the second payload offer: AD BE EF. -/
theorem test_offer_token_bytes :
    see (stepOn .wr (sending .pay (engine .check 4 1 .kNone))) (fun t => t.env.offer) =
      some [0xAD, 0xBE, 0xEF] := by decide

/-- V-X3: two bytes go, then `Moved(0)` is `K_CLOSED` with the count kept. -/
theorem test_short_write_then_close :
    see (stepOn (.txAnswer (.moved 2)) (offering .len (engine .att 4 0 .kNone) [0, 0, 0, 4]))
      (fun t => (t.env.wireTx, t.w.wx.cnt, t.w.wx.ph)) = some ([0, 0], 2, .check) ∧
    see (stepOn (.txAnswer (.moved 0)) (offering .len (engine .att 4 2 .kNone) [0, 4]))
      (fun t => (t.env.wireTx, t.w.wx.cnt, t.w.wx.kind)) = some ([], 2, .kClosed) := by decide

/-- V-X4: the error code is kept. -/
theorem test_send_error :
    see (stepOn (.txAnswer (.err 0x6E)) (offering .len (engine .att 4 1 .kNone) [0, 0, 4]))
      (fun t => (t.w.wx.kind, t.w.wx.code, t.w.wx.cnt)) = some (.kError, 0x6E, 1) := by decide

/-- V-R13: two payload bytes are written at offsets 0 and 1. -/
theorem test_payload_bytes :
    see (stepOn (.rxAnswer (.moved 2)) (paying (engine .att 4 0 .kNone) [0xDE, 0xAD, 0xBE]))
      (fun t => (Memory.read t.env.rxbuf (cellAddr 0x5000 0), Memory.read t.env.rxbuf (cellAddr 0x5000 1),
        Memory.read t.env.rxbuf (cellAddr 0x5000 2), t.env.wireRx, t.r.rx.cnt)) =
      some (some 0xDE, some 0xAD, none, [0xBE], 2) := by decide

/-- P2: with a zero-flag header the second length byte is element 1 (R107). -/
theorem test_length_bytes_after_zero :
    see (stepOn (.rxAnswer (.moved 2))
        { receiving .len (engine .att 3 0 .kNone) [0xAA, 0xBB, 0xCC] with
          r := { (receiving .len (engine .att 3 0 .kNone) []).r with zf := true, lenbuf := ⟨0, 1, 2, 3⟩ } })
      (fun t => t.r.lenbuf) = some ⟨0, 0xAA, 0xBB, 3⟩ := by decide

/-- V-X13: with RX_TIMEOUT_TICKS = 3 the third tick ends the wait, `K_PARTIAL`. -/
theorem test_three_ticks :
    let s := receiving .first (engine .wait 1 0 .kNone) []
    (rxTick 3 s).r.tmr = 1 ∧ (rxTick 3 (rxTick 3 s)).r.rx.ph = .wait ∧
    (rxTick 3 (rxTick 3 (rxTick 3 s))).r.rx = engine .done 1 0 .kPartial ∧
    (rxTick 3 (rxTick 3 (rxTick 3 s))).r.tmr = 3 ∧ (rxTick 1 s).r.rx.kind = .kPartial := by decide

/-! ## The sequencers -/

/-- V-W13: no flag, oversized: FATAL, `ST_OVERSIZED`, no Report, nothing sent. -/
theorem test_oversized :
    see (stepOn .wr oversizedToken) (fun t => (t.fatal, t.w.ph, t.w.status, t.env.out)) =
      some (true, .halt, .stOversized, [.resultW .stOversized .stgNone 0 0 0]) := by decide

/-- V-W15: 2^32-1 fits. -/
theorem test_largest_length :
    see (stepOn .wr { State.reset with w := { Writer.reset with ph := .chk, tlen := 0xFFFFFFFF } })
      (fun t => (t.fatal, t.w.ph, t.w.lenbuf)) = some (false, .len, ⟨0xFF, 0xFF, 0xFF, 0xFF⟩) := by decide

/-- V-W8: the length stage closed after two bytes. -/
theorem test_length_stage_closed :
    see (stepOn .wr (sending .len (engine .done 4 2 .kClosed))) (fun t => (t.w.ph, t.env.out)) =
      some (.idle, [.report .wr .stgLength 2 4, .resultW .stShortTransfer .stgLength 2 4 0]) := by decide

/-- E6, P3: closed after the flag byte. -/
theorem test_closed_after_flag_byte :
    see (stepOn .rd (receiving .len (engine .done 4 0 .kClosed) [])) (fun t => (t.r.ph, t.env.out)) =
      some (.idle,
        [.report .rd .stgLength 0 4, .resultR .stShortTransfer .stgLength 0 4 0 0 ⟨false, 0, 0⟩]) := by decide

/-- P1, reader step 17. -/
theorem test_payload_complete :
    see (stepOn .rd (paying (engine .done 4 4 .kComplete) []))
      (fun t => (t.live, t.r.hv, t.r.tok, t.r.flagOut, t.r.status)) =
      some ([0x5008, 0x5000], false, ⟨true, 0x5000, 4⟩, 0x16, .stOk) := by decide

/-- V-R14: a transport error in the payload: Free, then Fail. -/
theorem test_payload_error :
    see (stepOn .rd (paying (engine .done 4 0 .kError) [])) (fun t => (t.live, t.r.hv, t.env.pool, t.env.out)) =
      some ([0x5008], false, [(0x5008, 1)],
        [.free 0x5000, .report .rd .stgPayload 0 4,
          .resultR .stTransportError .stgPayload 0 4 0x68 0 ⟨false, 0, 0⟩]) := by decide

/-- V-R12: NoMem for an empty token: expected 1, no Report. -/
theorem test_no_memory :
    see (stepOn (.allocAnswer .noMem)
        { State.reset with r := { Reader.reset with ph := .alloc, zf := true, len32 := 0 } })
      (fun t => (t.r.ph, t.env.out)) =
      some (.idle, [.resultR .stAllocFailure .stgNone 0 1 0 0 ⟨false, 0, 0⟩]) := by decide

/-- V-C8, R12: nothing is accepted with FATAL = 1. -/
theorem test_fatal_accepts_nothing :
    faultOf (exec .recvToken stopped) = some .fatalStop ∧ faultOf (stepOn .wr stopped) = some .fatalStop := by decide

/-- R99: ready wins over a tick; R190: an answer to nothing is discarded. -/
theorem test_events_without_a_step :
    onTick { receiving .first (engine .wait 1 0 .kNone) [] with env := { Env.reset with rxReady := true } } =
      { receiving .first (engine .wait 1 0 .kNone) [] with env := { Env.reset with rxReady := true } } ∧
    see (stepOn (.rxAnswer (.moved 1)) State.reset) (fun t => t.r) = some Reader.reset := by
  refine ⟨rfl, by decide⟩

/-- R201, U12: a byte changed in a send has both values, until the next accept; placed while WR is idle it has the one. -/
theorem test_token_byte_changed :
    see (stepOn (.placeTok 0x1000 1 0x11) (sending .pay (engine .check 4 0 .kNone))) (fun t => tokValues t 1) =
      some [0x11, 0xAD] ∧
    see (stepOn (.placeTok 0x1000 1 0x11) (sending .idle Engine.reset)) (fun t => tokValues t 1) = some [0x11] ∧
    see (exec (.sendToken 0 4 0x1000)
        { sending .idle Engine.reset with env := { Env.reset with toksrc := token, older := [(0x100000000001, 7)] } })
      (fun t => tokValues t 1) = some [0xAD] := by decide

/-- R201: what is offered of a changed byte is one of its values; the bytes not changed are offered as they stand. -/
theorem test_changed_byte_offered (n : Nat) : pickOne n [0x11, 0xAD] = some 0x11 ∨ pickOne n [0x11, 0xAD] = some 0xAD := by
  have := Nat.mod_lt n (show 2 > 0 by decide)
  show [(0x11 : Byte), 0xAD][n % 2]? = _ ∨ [(0x11 : Byte), 0xAD][n % 2]? = _
  interval_cases n % 2 <;> decide

/-- R44, R176, R202: the host writes a live token's storage, and no other. -/
theorem test_host_writes :
    see (stepOn (.hostWrite 0x5000 3 0x77) holding) (fun t => Memory.read t.env.rxbuf (cellAddr 0x5000 3)) =
      some (some 0x77) ∧
    (after (stepOn (.hostWrite 0x5000 4 0x77) holding)).isNone = true ∧
    (after (stepOn (.hostWrite 0x5008 0 0x77) holding)).isNone = true := by decide

/-- R26: the outputs of an idle, a busy and a stopped block. -/
theorem test_status_outputs :
    (State.reset.wReady, State.reset.rBusy) = (true, false) ∧
    ((sending .chk Engine.reset).wBusy, (sending .chk Engine.reset).wReady) = (true, false) ∧
    (stopped.rReady, stopped.rBusy) = (false, false) := by decide

/-! ## Witnesses: the hypotheses of each statement, met together -/

/-! ### Encoding -/

/-- DecodeEncodeIsIdentity, at both formats' boundaries. -/
theorem witness_DecodeEncodeIsIdentity :
    (Instr.frameZeroFlag 0x00FFFFFF).wellFormed = true ∧ (Instr.frameNonzeroFlag 1 0xFFFFFFFF).wellFormed = true ∧
    (Instr.sendToken 0xFFFFFFFF 0 1).wellFormed = true := by decide

theorem witness_EncodeDecodeIsIdentity :
    (0x59#162).extractLsb' 0 2 = 1#2 ∧ (7#99).extractLsb' 0 2 = 3#2 ∧
    decode (.wire [0, 0, 0, 1]) = .ok (.frameZeroFlag 1) := by decide

theorem witness_HeaderFormatByFirstByte : (1 : Byte) ≠ 0#8 ∧ (0xFF : Byte) ≠ 0#8 := by decide

/-- One witness for each row of R138; row 3 at its least length. -/
theorem witness_SentFrameReadBack :
    ((0x16 : FlagIn).extractLsb' 0 8 ≠ 0#8 ∧ ([] : List Byte).length < 2 ^ 32) ∧
    ([0xAA] : List Byte).length < 2 ^ 24 ∧
    (∃ q : List Byte, 2 ^ 24 ≤ (0x02 :: q).length ∧ (0x02 :: q).length < 2 ^ 32) ∧
    ((0x100 : FlagIn) ≠ 0#32 ∧ (0x100 : FlagIn).extractLsb' 0 8 = 0#8) := by
  refine ⟨by decide, by decide, ?_, by decide⟩
  obtain ⟨q, hq⟩ : ∃ q : List Byte, q.length = 16777215 := ⟨List.replicate 16777215 0xAA, List.length_replicate⟩
  exact ⟨q, by rw [List.length_cons, hq]; decide, by rw [List.length_cons, hq]; decide⟩

/-! ### Instructions -/

/-- EncodeLengthCompletes, DecodeLengthCompletes, SendTokenAccepted, RecvTokenAccepted, ReleaseWithoutFree (with either
descriptor) and BadCommandOnlyReports: an idle machine. -/
theorem witness_idle_machine :
    holding.fatal = false ∧ holding.w.ph = .idle ∧ holding.r.ph = .idle ∧ (0x9999 : Handle) ∉ holding.live ∧
    (false = true → (0x5000 : Handle) ∉ holding.live) := by decide

theorem witness_ReleaseOfLiveFrees :
    holding.fatal = false ∧ holding.r.ph = .idle ∧ (0x5000 : Handle) ∈ holding.live ∧
    (0x5008 : Handle) ≠ 0x5000 ∧ Memory.read holding.env.rxbuf (cellAddr 0x5008 (0 : Len).toNat) = some 0xAA := by decide

theorem witness_StatusOutputsGovernPorts :
    (let s : State := { State.reset with env := { Env.reset with wcmd := [0x59], rcmd := [2] } }
     s.wReady = true ∧ s.env.wcmd = 0x59 :: [] ∧ s.rReady = true ∧ s.env.rcmd = 2 :: []) ∧
    (sending .chk Engine.reset).wBusy = true ∧ (after (handle .wr (sending .chk Engine.reset))).isSome = true ∧
    (receiving .first (engine .wait 1 0 .kNone) []).rBusy = true ∧
    (after (handle .rd (receiving .first (engine .wait 1 0 .kNone) []))).isSome = true := by decide

/-- Both formats of CompleteHeaderTaken. -/
theorem witness_CompleteHeaderTaken :
    ((Instr.frameZeroFlag 5 = .frameZeroFlag 5 ∧ true = true ∧ (0 : Byte) = 0#8) ∧
      Instr.frameNonzeroFlag 1 5 = .frameNonzeroFlag 1 5) ∧
    (receiving .len (engine .done 4 4 .kComplete) []).fatal = false ∧
    (receiving .len (engine .done 4 4 .kComplete) []).r.ph = .len ∧
    (receiving .len (engine .done 4 4 .kComplete) []).r.rx.ph = .done ∧
    (receiving .len (engine .done 4 4 .kComplete) []).r.rx.kind = .kComplete := by decide

theorem witness_TransferStarts :
    State.reset.fatal = false ∧ State.reset.w.wx.ph = .done ∧ State.reset.r.rx.ph = .done := by decide

/-! ### Engines -/

/-- SatisfiedTransferCompletes, with a request of 0 (R103) and of 4. -/
theorem witness_SatisfiedTransferCompletes :
    (sending .pay (engine .check 0 0 .kNone)).w.wx.cnt = (sending .pay (engine .check 0 0 .kNone)).w.wx.req ∧
    writerMoving (sending .pay (engine .check 0 0 .kNone)) ∧
    (paying (engine .check 4 4 .kNone) []).r.rx.cnt = (paying (engine .check 4 4 .kNone) []).r.rx.req ∧
    readerMoving (paying (engine .check 4 4 .kNone) []) := by
  unfold writerMoving readerMoving
  decide

/-- SendAttemptOffersTheRest in each stage, with one byte left and with all. -/
theorem witness_SendAttemptOffersTheRest :
    writerMoving (sending .flag (engine .check 1 0 .kNone)) ∧
    srcValues (sending .flag (engine .check 1 0 .kNone)) 0 ≠ [] ∧
    writerMoving (sending .len (engine .check 4 0 .kNone)) ∧
    (∀ i, 0 ≤ i → i < 4 → srcValues (sending .len (engine .check 4 0 .kNone)) i ≠ []) ∧
    writerMoving (sending .pay (engine .check 4 3 .kNone)) ∧
    srcValues (sending .pay (engine .check 4 3 .kNone)) 3 ≠ [] := by
  unfold writerMoving
  decide

/-- SendAttemptAnswered: an offer outstanding, the least and the greatest count. -/
theorem witness_SendAttemptAnswered :
    (offering .len (engine .att 4 1 .kNone) [0, 0, 4]).fatal = false ∧
    (offering .len (engine .att 4 1 .kNone) [0, 0, 4]).w.wx.ph = .att ∧ 1 ≤ 1 ∧
    3 ≤ (4 : Len).toNat - (1 : Len).toNat := by decide

/-- AttemptFollowsFreshWait: about to wait, ready, and each of the four ways to wait (O20's last clauses). -/
theorem witness_AttemptFollowsFreshWait :
    readerMoving (receiving .first (engine .wait 1 0 .kNone) []) ∧
    (receiving .first (engine .wait 1 0 .kNone) []).env.rxReady = false ∧
    readerMoving (receiving .len (engine .att 4 1 .kNone) []) ∧
    (receiving .alloc (engine .done 4 4 .kComplete) []).r.ph = .alloc ∧
    writerMoving (offering .len (engine .att 4 1 .kNone) [0, 0, 4]) ∧
    readerMoving (receiving .len (engine .check 4 1 .kNone) []) ∧ (1 : Len) < 4 ∧
    readerMoving (receiving .len (engine .wait 4 1 .kNone) []) ∧
    ({ receiving .len (engine .wait 4 1 .kNone) [] with env := { Env.reset with rxReady := true } } : State).env.rxReady =
      true := by
  unfold readerMoving writerMoving
  decide

/-- TickAdvancesOrExpires: the timer below, at and past the last tick but one, whatever RX_TIMEOUT_TICKS is. -/
theorem witness_TickAdvancesOrExpires :
    (∃ tmr timeout : Nat, tmr + 1 < timeout) ∧ ¬ Config.rxTimeoutTicks - 1 + 1 < Config.rxTimeoutTicks ∧
    (receiving .first (engine .wait 1 0 .kNone) []).r.rx.ph = .wait ∧
    (receiving .first (engine .wait 1 0 .kNone) []).env.rxReady = false ∧ State.reset.r.rx.ph ≠ .wait := by
  refine ⟨⟨0, 2, by decide⟩, ?_, by decide, by decide, by decide⟩
  simp [Config.rxTimeoutTicks]

/-- StagingBytesReceived, the first byte. -/
theorem witness_StagingBytesReceived_first :
    (receiving .first (engine .att 1 0 .kNone) [0x16, 0]).fatal = false ∧
    (receiving .first (engine .att 1 0 .kNone) [0x16, 0]).r.rx.ph = .att ∧
    (receiving .first (engine .att 1 0 .kNone) [0x16, 0]).r.rx.cnt = 0#32 ∧ 0#32 < (1 : Len) ∧
    (receiving .first (engine .att 1 0 .kNone) [0x16, 0]).env.wireRx = 0x16 :: [0] := by decide

/-- StagingBytesReceived with a flag byte, all four length bytes at once. -/
theorem witness_StagingBytesReceived_length :
    (receiving .len (engine .att 4 0 .kNone) [0, 0, 0, 4]).r.rx.ph = .att ∧ 4 ≤ (4 : Len).toNat - (0 : Len).toNat ∧
    4 ≤ (receiving .len (engine .att 4 0 .kNone) [0, 0, 0, 4]).env.wireRx.length ∧
    (4 : Len).toNat + (receiving .len (engine .att 4 0 .kNone) [0, 0, 0, 4]).r.zf.toNat = 4 := by decide

/-- PayloadBytesReceived, the last byte the storage has. -/
theorem witness_PayloadBytesReceived :
    (paying (engine .att 4 3 .kNone) [0xEF]).r.ph = .pay ∧ 1 ≤ (4 : Len).toNat - (3 : Len).toNat ∧
    1 ≤ (paying (engine .att 4 3 .kNone) [0xEF]).env.wireRx.length ∧
    poolSize (paying (engine .att 4 3 .kNone) [0xEF]).env.pool 0x5000 = some 4 ∧ (4 : Len).toNat ≤ 4 := by decide

theorem witness_ReceiveAttemptEnds :
    (paying (engine .att 4 3 .kNone) []).fatal = false ∧ (paying (engine .att 4 3 .kNone) []).r.rx.ph = .att := by decide

/-- OversizedAnswersRefused: one byte too many on either side. -/
theorem witness_OversizedAnswersRefused :
    (offering .len (engine .att 4 1 .kNone) [0, 0, 4]).w.wx.ph = .att ∧ (4 : Len).toNat - (1 : Len).toNat < 4 ∧
    (paying (engine .att 4 0 .kNone) []).r.rx.ph = .att ∧ (4 : Len).toNat - (0 : Len).toNat < 5 := by decide

/-! ### Sequencers -/

/-- WriterStagesEnd: each of the three stages. -/
theorem witness_WriterStagesEnd :
    (sending .flag (engine .done 1 1 .kComplete)).fatal = false ∧
    (sending .flag (engine .done 1 1 .kComplete)).w.wx.ph = .done ∧
    (sending .flag (engine .done 1 1 .kComplete)).w.ph = .flag ∧
    (sending .len (engine .done 4 2 .kClosed)).w.ph = .len ∧
    (sending .pay (engine .done 4 4 .kComplete)).w.ph = .pay := by decide

/-- OversizeTestDecides on both sides of the boundary. -/
theorem witness_OversizeTestDecides :
    oversizedToken.fatal = false ∧ oversizedToken.w.ph = .chk ∧ 2 ^ 32 - 1 < oversizedToken.w.tlen.toNat ∧
    (0xFFFFFFFF : LenIn).toNat ≤ 2 ^ 32 - 1 := by decide

/-- FirstByteDecidesFormat: short, zero and not zero. -/
theorem witness_FirstByteDecidesFormat :
    (receiving .first (engine .done 1 0 .kPartial) []).r.rx.kind ≠ .kComplete ∧
    (receiving .first (engine .done 1 1 .kComplete) []).r.rx.kind = .kComplete ∧
    (receiving .first (engine .done 1 1 .kComplete) []).r.b0 ≠ 0#8 ∧
    (let s : State := { State.reset with r := { Reader.reset with ph := .first, rx := engine .done 1 1 .kComplete } }
     s.r.ph = .first ∧ s.r.rx.ph = .done ∧ s.r.rx.kind = .kComplete ∧ s.r.b0 = 0#8) := by decide

/-- HeaderRunsWhenComplete: short, and complete in a state whose registers fit. -/
theorem witness_HeaderRunsWhenComplete :
    (receiving .len (engine .done 4 2 .kPartial) []).r.rx.kind ≠ .kComplete ∧
    (receiving .len (engine .done 4 4 .kComplete) []).r.rx.kind = .kComplete ∧
    ReaderFits (receiving .len (engine .done 4 4 .kComplete) []) := by
  refine ⟨by decide, by decide, ?_, by decide, by decide, by decide, by decide, by decide, nofun, Nat.zero_le _⟩
  unfold EngineFits readerMoving
  decide

theorem witness_AllocatorAnswered :
    let s := { holding with r := { Reader.reset with ph := .alloc, len32 := 0 } }
    s.fatal = false ∧ s.r.ph = .alloc ∧ poolSize s.env.pool 0x6000 = none ∧ (0x6000 : Handle) ∉ s.live := by decide

/-- PayloadPassesToHost and FailedPayloadIsFreed. -/
theorem witness_payload_ended :
    (paying (engine .done 4 4 .kComplete) []).fatal = false ∧ (paying (engine .done 4 4 .kComplete) []).r.ph = .pay ∧
    (paying (engine .done 4 4 .kComplete) []).r.rx.ph = .done ∧
    (paying (engine .done 4 4 .kComplete) []).r.rx.kind = .kComplete ∧
    (paying (engine .done 4 0 .kError) []).r.rx.kind ≠ .kComplete := by decide

/-! ### The step -/

theorem witness_StepTakesNextEvent :
    ({ State.reset with env := { Env.reset with script := [.tick] } } : State).env.script = .tick :: [] ∧
    State.reset.env.script = [] := by decide

theorem witness_StepRunsPresentedWord :
    let s : State := { State.reset with env := { Env.reset with wcmd := [0x59], script := [.wr] } }
    let t : State := { State.reset with env := { Env.reset with rcmd := [2, 3], script := [.rd, .rd] } }
    s.env.script = .wr :: [] ∧ s.fatal = false ∧ s.w.ph = .idle ∧ s.env.wcmd = 0x59 :: [] ∧
    t.env.script = .rd :: [.rd] ∧ t.fatal = false ∧ t.r.ph = .idle ∧ t.env.rcmd = 2 :: [3] := by decide

/-- HostWritesItsBytes: the last byte of a live token's storage, a handle that is not live, and a send in progress. -/
theorem witness_HostWritesItsBytes :
    (0x5000 : Handle) ∈ holding.live ∧ poolSize holding.env.pool 0x5000 = some 4 ∧ (3 : Len).toNat < 4 ∧
    (0x5008 : Handle) ∉ holding.live ∧ (sending .pay (engine .check 4 0 .kNone)).w.ph ≠ .idle ∧
    (after (handle (.placeTok 0x1000 1 0x11) (sending .pay (engine .check 4 0 .kNone)))).isSome = true ∧
    (2 : Len) ≠ 1 := by decide

/-! ### Rules of the whole machine -/

theorem witness_FatalStopsTheBlock :
    stopped.fatal = true ∧ (Event.tick ≠ .reset) ∧ (after (handle .tick stopped)).isSome = true := by decide

theorem witness_OnlyOversizeSetsFatal :
    oversizedToken.fatal = false ∧ see (stepOn .wr oversizedToken) (fun t => t.fatal) = some true := by decide

/-- RegistersHaveTheirWriters (each clause's premise), OneResultPerCommand, ReportsOnlyFromFail: an event of each kind. -/
theorem witness_events_of_each_kind :
    Event.isWriters .wr = true ∧ (after (handle .wr (sending .len (engine .done 4 2 .kClosed)))).isSome = true ∧
    Event.isReaders .rd = true ∧ (after (handle .rd (paying (engine .done 4 0 .kError) []))).isSome = true ∧
    Event.isWriters (.arrive [1]) = false ∧ Event.isReaders (.arrive [1]) = false ∧ (Event.arrive [1] ≠ .reset) ∧
    (after (handle (.arrive [1]) State.reset)).isSome = true := by decide

/-- RegistersHaveTheirWriters, its clauses on the environment: R13's write takes effect, a word goes behind those presented,
and live storage survives a reclaim. -/
theorem witness_RegistersHaveTheirWriters :
    see (handle (.writeDiag false) State.reset) (fun t => t.diagEn) = some false ∧
    see (handle (.presentW 3) { State.reset with env := { Env.reset with wcmd := [2] } }) (fun t => t.env.wcmd) =
      some [2, 3] ∧
    (0x5000 : Handle) ∈ holding.live ∧
    see (handle .reclaim holding) (fun t => (t.env.pool, Memory.read t.env.rxbuf (cellAddr 0x5000 0))) =
      some ([(0x5000, 4)], some 0xDE) := by decide

/-- OneResultPerCommand: each unit idle with a word presented, and busy. -/
theorem witness_OneResultPerCommand :
    let s : State := { State.reset with env := { Env.reset with wcmd := [0x59], rcmd := [3] } }
    s.w.ph = .idle ∧ s.r.ph = .idle ∧ (after (handle .wr s)).isSome = true ∧ (after (handle .rd s)).isSome = true ∧
    (sending .len (engine .done 4 2 .kClosed)).w.ph ≠ .idle ∧ (paying (engine .done 4 0 .kError) []).r.ph ≠ .idle := by
  decide

/-- ReportsOnlyFromFail, where a Report is issued. -/
theorem witness_ReportsOnlyFromFail :
    see (handle .wr (sending .len (engine .done 4 2 .kClosed))) (fun t => reports t) = some 1 ∧
    see (handle .rd (paying (engine .done 4 0 .kError) [])) (fun t => reports t) = some 1 := by decide

/-- WriterDependsOnItsViewOnly: two states that differ outside WR's view. -/
theorem witness_WriterDependsOnItsViewOnly :
    let s := sending .pay (engine .check 4 0 .kNone)
    let t := { s with live := [0x5000], r := { Reader.reset with ph := .alloc } }
    writerView s = writerView t ∧ s.r.ph ≠ t.r.ph ∧ (after (handle .wr s)).isSome = true :=
  ⟨rfl, by decide, by decide⟩

/-- ReaderDependsOnItsViewOnly: two states that differ outside RD's view. -/
theorem witness_ReaderDependsOnItsViewOnly :
    let s := paying (engine .check 4 0 .kNone) []
    let t := { s with w := { Writer.reset with ph := .chk }, env := { s.env with rxbuf := [(5, 5)] } }
    readerView s = readerView t ∧ s.w.ph ≠ t.w.ph ∧ s.env.rxbuf.length ≠ t.env.rxbuf.length ∧
    (after (handle .rd s)).isSome = true :=
  ⟨rfl, by decide, by decide, by decide⟩

/-- StreamsMoveOnlyAsAnswered: an answer that moves bytes on either stream. -/
theorem witness_StreamsMoveOnlyAsAnswered :
    see (handle (.txAnswer (.moved 2)) (offering .len (engine .att 4 0 .kNone) [0, 0, 0, 4])) (fun t => t.env.wireTx) =
      some [0, 0] ∧
    see (handle (.rxAnswer (.moved 1)) (paying (engine .att 4 0 .kNone) [0xDE, 0xAD])) (fun t => t.env.wireRx) =
      some [0xAD] := by decide

/-! ### Invariants -/

/-- The ownership of storage in the middle of a receive, with a token live. -/
theorem paying_owned (e : Engine) : StorageOwned (paying e []) := by
  refine ⟨?_, ?_, ?_, ?_, fun _ => ⟨?_, ?_⟩⟩ <;> simp [paying, receiving, poolSize, allocSize]

/-- FreeOnlyWhatIsOwned: a Free is issued. -/
theorem witness_FreeOnlyWhatIsOwned :
    StorageOwned (paying (engine .done 4 0 .kError) []) ∧
    see (handle .rd (paying (engine .done 4 0 .kError) [])) (fun t => t.env.out.count (.free 0x5000)) = some 1 :=
  ⟨paying_owned _, by decide⟩

theorem witness_StepKeepsMemoryCanonical :
    MemoryCanonical (sending .chk Engine.reset) ∧
    (after (stepOn (.placeTok 0x1000 1 0xFF) (sending .chk Engine.reset))).isSome = true := by
  unfold MemoryCanonical
  decide

theorem witness_StepKeepsStorageOwned :
    StorageOwned (paying (engine .done 4 4 .kComplete) []) ∧
    (after (stepOn .rd (paying (engine .done 4 4 .kComplete) []))).isSome = true :=
  ⟨paying_owned _, by decide⟩

/-- StepKeepsWithinCapacity: a receive in progress, with nothing live, under any MAX_LIVE. -/
theorem witness_StepKeepsWithinCapacity :
    WithinCapacity { paying (engine .done 4 4 .kComplete) [] with live := [] } ∧
    (after (stepOn .rd { paying (engine .done 4 4 .kComplete) [] with live := [] })).isSome = true := by
  refine ⟨fun m hm => ?_, by decide⟩
  have hp : 0 < m := by
    cases hc : Config.maxLivePred <;> simp_all [Config.maxLive]
    omega
  exact ⟨Nat.zero_le m, fun _ => hp⟩

theorem witness_StepKeepsWriterFits :
    WriterFits (sending .len (engine .check 4 1 .kNone)) ∧
    (after (stepOn .wr (sending .len (engine .check 4 1 .kNone)))).isSome = true := by
  refine ⟨⟨?_, by decide, by decide, by decide, by decide, by decide, by decide, by decide, by decide, by decide⟩,
    by decide⟩
  unfold EngineFits writerMoving
  decide

/-- RD's registers fit with one payload byte to come. -/
theorem paying_fits : ReaderFits (paying (engine .att 4 3 .kNone) []) := by
  refine ⟨?_, by decide, by decide, by decide, by decide, by decide, nofun, Nat.zero_le _⟩
  unfold EngineFits readerMoving
  decide

theorem witness_StepKeepsReaderFits :
    ReaderFits (paying (engine .att 4 3 .kNone) []) ∧
    (after (stepOn (.rxAnswer (.moved 0)) (paying (engine .att 4 3 .kNone) []))).isSome = true :=
  ⟨paying_fits, by decide⟩

theorem witness_NoWriteOutsideStorage :
    StorageOwned (paying (engine .att 4 3 .kNone) []) ∧ ReaderFits (paying (engine .att 4 3 .kNone) []) :=
  ⟨paying_owned _, paying_fits⟩

/-! ### Whole commands -/

/-- SendingIsKept and SentIsAPrefixOfTheFrame: the last payload byte is offered, eight bytes are on the wire. -/
def lastByteOffered : State :=
  { sending .pay (engine .att 4 3 .kNone) with
    env := { Env.reset with
      toksrc := token, offer := [0xEF], wireTx := [0x16, 0, 0, 0, 4, 0xDE, 0xAD, 0xBE] } }

/-- Each byte of the token in the tests stands unchanged in the token store. -/
theorem token_kept (s : State) (ht : s.env.toksrc = token) (ho : s.env.older = []) (hb : s.w.tbase = 0x1000) (i : Nat)
    (v : Byte) (h : ([0xDE, 0xAD, 0xBE, 0xEF] : List Byte)[i]? = some v) :
    Memory.read s.env.toksrc (cellAddr s.w.tbase i) = some v ∧ tokValues s i = [v] := by
  have hr : Memory.read token (cellAddr 0x1000 i) = some v := by
    match i with
    | 0 => cases h; decide
    | 1 => cases h; decide
    | 2 => cases h; decide
    | 3 => cases h; decide
    | i + 4 => cases h
  refine ⟨by rw [ht, hb]; exact hr, ?_⟩
  rw [tokValues, ht, ho, hb, hr]
  rfl

theorem witness_SendingIsKept :
    (State.reset.w.ph = .idle ∧ State.reset.w.wx.ph = .done ∧
      (∀ i ∈ [0, 1, 2, 3], [0xDE, 0xAD, 0xBE, 0xEF][i]? = Memory.read token (cellAddr 0x1000 i)) ∧
      (after (exec (.sendToken 0x16 4 0x1000) { State.reset with env := { Env.reset with toksrc := token } })).isSome =
        true) ∧
    WriterFits lastByteOffered ∧ Sending [] [0xDE, 0xAD, 0xBE, 0xEF] lastByteOffered ∧
    (after (handle (.txAnswer (.moved 1)) lastByteOffered)).isSome = true := by
  refine ⟨by decide,
    ⟨?_, by decide, by decide, by decide, by decide, by decide, by decide, by decide, by decide, by decide⟩,
    ⟨by decide, by decide, fun _ => ⟨by decide, token_kept _ rfl rfl rfl⟩, by decide⟩, by decide⟩
  unfold EngineFits writerMoving
  decide

/-- SentIsAPrefixOfTheFrame: the step that ends the command `ST_OK`. -/
theorem witness_SentIsAPrefixOfTheFrame :
    let s : State := { sending .pay (engine .done 4 4 .kComplete) with
      env := { Env.reset with
        toksrc := token, wireTx := [0x16, 0, 0, 0, 4, 0xDE, 0xAD, 0xBE, 0xEF] } }
    WriterFits s ∧ Sending [] [0xDE, 0xAD, 0xBE, 0xEF] s ∧
    see (handle .wr s) (fun t => (t.w.ph, t.w.status)) = some (.idle, .stOk) := by
  refine ⟨⟨?_, by decide, by decide, by decide, by decide, by decide, by decide, by decide, by decide, by decide⟩,
    ⟨by decide, by decide, fun _ => ⟨by decide, token_kept _ rfl rfl rfl⟩, by decide⟩, by decide⟩
  unfold EngineFits writerMoving
  decide

/-- SentIsAPrefixOfTheFrame: a failure in each stage, with the bytes of that stage that are on the wire (the first as V-W7, the wire
of the second as V-W8). -/
theorem witness_SentIsAPrefixOfTheFrame_failures :
    (let s := { sending .flag (engine .done 1 0 .kClosed) with env := { Env.reset with toksrc := token } }
     Sending [] [0xDE, 0xAD, 0xBE, 0xEF] s ∧
     see (handle .wr s) (fun t => (t.w.status, t.w.stage, t.w.got)) = some (.stShortTransfer, .stgFlag, 0)) ∧
    (let s := { sending .len (engine .done 4 2 .kError) with
       env := { Env.reset with toksrc := token, wireTx := [0x16, 0, 0] } }
     Sending [] [0xDE, 0xAD, 0xBE, 0xEF] s ∧
     see (handle .wr s) (fun t => (t.w.status, t.w.stage, t.w.got)) = some (.stTransportError, .stgLength, 2)) ∧
    (let s := { sending .pay (engine .done 4 3 .kClosed) with
       env := { Env.reset with toksrc := token, wireTx := [0x16, 0, 0, 0, 4, 0xDE, 0xAD, 0xBE] } }
     Sending [] [0xDE, 0xAD, 0xBE, 0xEF] s ∧
     see (handle .wr s) (fun t => (t.w.status, t.w.stage, t.w.got)) = some (.stShortTransfer, .stgPayload, 3)) :=
  ⟨⟨⟨by decide, by decide, fun _ => ⟨by decide, token_kept _ rfl rfl rfl⟩, by decide⟩, by decide⟩,
    ⟨⟨by decide, by decide, fun _ => ⟨by decide, token_kept _ rfl rfl rfl⟩, by decide⟩, by decide⟩,
    ⟨⟨by decide, by decide, fun _ => ⟨by decide, token_kept _ rfl rfl rfl⟩, by decide⟩, by decide⟩⟩

/-- SendingIsKept and SentIsAPrefixOfTheFrame, for a token one byte too long after its flag byte (V-W12). -/
theorem witness_sending_oversized :
    let s : State := { State.reset with
      w := { Writer.reset with ph := .chk, flagIn := 1, fb := 1, tlen := 0x100000000, wx := engine .done 1 1 .kComplete }
      env := { Env.reset with wireTx := [1] } }
    WriterFits s ∧ Sending [] [] s ∧ 2 ^ 32 - 1 < s.w.tlen.toNat ∧
    see (handle .wr s) (fun t => t.w.ph) = some .halt := by
  refine ⟨⟨?_, by decide, by decide, by decide, by decide, by decide, by decide, by decide, by decide, by decide⟩,
    ⟨by decide, by decide, fun h => absurd h (by decide), by decide⟩, by decide, by decide⟩
  unfold EngineFits writerMoving
  decide

/-- StreamBytesAccounted: V-R4 ends `ST_OK` with 5 + 4 bytes consumed; V-R11 ends in `ST_ALLOC_FAILURE` with 5. -/
theorem witness_stream_bytes_at_the_end :
    see (handle .rd (paying (engine .done 4 4 .kComplete) [])) (fun t => (t.r.status, t.r.tok.length)) =
      some (.stOk, 4) ∧
    consumed (paying (engine .done 4 4 .kComplete) []) = 9 ∧
    see (handle (.allocAnswer .noMem) (receiving .alloc (engine .done 4 4 .kComplete) [])) (fun t => t.r.status) =
      some .stAllocFailure ∧
    consumed (receiving .alloc (engine .done 4 4 .kComplete) []) = 5 := by decide

/-- StreamBytesAccounted: a receive in progress, and one that ends. -/
theorem witness_StreamBytesAccounted :
    ReaderFits (paying (engine .att 4 3 .kNone) []) ∧ (paying (engine .att 4 3 .kNone) []).r.ph ≠ .idle ∧
    (after (handle (.rxAnswer (.err 5)) (paying (engine .att 4 3 .kNone) []))).isSome = true ∧
    see (handle .rd (paying (engine .done 4 3 .kClosed) [])) (fun t => failedR (paying (engine .done 4 3 .kClosed) []) t) =
      some true :=
  ⟨paying_fits, by decide, by decide, by decide⟩

/-- SendTransferMeetsBigStep and TransferAttemptsAreBounded: V-X2 and V-X4. -/
theorem witness_SendTransferMeetsBigStep :
    writerMoving (sending .len (engine .check 4 0 .kNone)) ∧
    txSource (sending .len (engine .check 4 0 .kNone)) = some [0, 0, 0, 4] ∧
    bigTx 4 0 [.moved 1, .moved 1, .moved 2] = some (⟨.kComplete, 4, none⟩, []) ∧
    bigTx 4 0 [.moved 1, .err 0x68] = some (⟨.kError, 1, some 0x68⟩, []) := by
  unfold writerMoving
  decide

/-- ReceiveTransferMeetsBigStep and TransferAttemptsAreBounded: V-R13's payload stage. -/
theorem witness_ReceiveTransferMeetsBigStep :
    (paying (engine .check 4 0 .kNone) []).r.ph = .pay ∧ (paying (engine .check 4 0 .kNone) []).env.wireRx = [] ∧
    poolSize (paying (engine .check 4 0 .kNone) []).env.pool 0x5000 = some 4 ∧
    bigRx 4 0 [.moved [0xDE, 0xAD], .timeout] = some (⟨.kPartial, 2, none⟩, [0xDE, 0xAD], []) ∧
    bigRx 4 0 [.moved [0xDE, 0xAD, 0xBE, 0xEF]] = some (⟨.kComplete, 4, none⟩, [0xDE, 0xAD, 0xBE, 0xEF], []) := by
  decide

/-- ReceiveTransferMeetsBigStep: the first-byte stage, and the length stage after a zero byte (P2). -/
theorem witness_ReceiveTransferMeetsBigStep_staging :
    (receiving .first (engine .check 1 0 .kNone) []).r.rx.req = 1#32 ∧
    bigRx 1 0 [.moved [0x16]] = some (⟨.kComplete, 1, none⟩, [0x16], []) ∧
    (let s := receiving .len (engine .check 3 0 .kNone) []
     let t : State := { s with r := { s.r with zf := true } }
     t.r.rx.req = (if t.r.zf = true then 3#32 else 4#32) ∧ t.env.wireRx = []) ∧
    bigRx 3 0 [.moved [0xAA], .err 5] = some (⟨.kError, 1, some 5⟩, [0xAA], []) := by
  decide

end Sys2Proof.Tests
end

section
/-! PROOF. What a unit does depends on nothing but its view (R5, R28, R44): O42 and O43.

The idea, for each unit: `writerIn u s` is the state `u` in which WR stands as it does in `s`, and every step of WR commutes with
`writerIn u`. Two states alike to WR are `writerIn` of each other around one state with nothing issued and nothing sent, so the
step in either is the image of the step in that one. `readerIn u m s` is the same for RD, with receive storage holding `m`; a
step of RD commutes with it up to what storage holds afterwards. -/

namespace Sys2Proof.Machine

/-! ## Outcomes carried along a map of states -/

/-- The outcome with its next state, if there is one, put through `g`. -/
def mapNext (g : State → State) : Res → Res
  | .next s => .next (g s)
  | .fault f => .fault f
  | .refused r => .refused r

theorem mapNext_eq_next {g : State → State} {o : Res} {t : State} :
    mapNext g o = .next t ↔ ∃ t', o = .next t' ∧ g t' = t := by
  cases o <;> simp [mapNext]

/-- A branch commutes with `g` when both its arms do. The steps below branch on what the unit sees, so on either side of their
equations the tests are the same: such a proof names the arms, in the order of the step's definition. -/
theorem ite_eq_map {α : Type} (g : α → α) {p : Prop} {d d' : Decidable p} {a b a' b' : α}
    (ha : a' = g a) (hb : b' = g b) : @ite α p d' a' b' = g (@ite α p d a b) := by
  split <;> assumption

/-- A branch commutes with some `g i` when each of its arms does. -/
theorem exists_ite_eq_map {ι α : Type} (g : ι → α → α) {p : Prop} {d d' : Decidable p} {a b a' b' : α}
    (ha : ∃ i, a' = g i a) (hb : ∃ i, b' = g i b) : ∃ i, @ite α p d' a' b' = g i (@ite α p d a b) := by
  split <;> assumption

/-- The state with nothing issued and nothing sent. -/
def unlogged (s : State) : State := { s with env := { s.env with out := [], wireTx := [] } }

/-! ## WR among the rest of another state -/

/-- The state `u` in which WR sees what it sees in `s`; what `s` has issued and sent comes after what `u` has. -/
def writerIn (u s : State) : State :=
  { u with
    fatal := s.fatal, diagEn := s.diagEn, w := s.w
    env := { u.env with
      wcmd := s.env.wcmd, offer := s.env.offer, toksrc := s.env.toksrc, older := s.env.older, draws := s.env.draws
      out := u.env.out ++ s.env.out, wireTx := u.env.wireTx ++ s.env.wireTx } }

theorem writerIn_unlogged {s u : State} (h : writerView s = writerView u) : writerIn u (unlogged s) = u := by
  simp only [writerView, Prod.mk.injEq] at h
  obtain ⟨hfatal, hdiag, hw, hcmd, hoffer, htok, holder, hdraws⟩ := h
  simp [writerIn, unlogged, hfatal, hdiag, hw, hcmd, hoffer, htok, holder, hdraws]

section
variable (u s : State)

@[simp] theorem writerIn_w : (writerIn u s).w = s.w := rfl

theorem result_writerIn : result .wr (writerIn u s) = writerIn u (result .wr s) := by
  simp [result_wr_eq, writerIn]

theorem fail_writerIn (k : XKind) (stage : Stage) (got exp : Len) (code : ErrCode) :
    fail .wr k stage got exp code (writerIn u s) = writerIn u (fail .wr k stage got exp code s) := by
  simp [fail_wr_eq, writerIn]

/-! ### Commands -/

theorem badCommandW_writerIn : badCommandW (writerIn u s) = writerIn u (badCommandW s) :=
  result_writerIn u { s with w := s.w.cleared .stBadCommand }

theorem acceptSend_writerIn (flag : FlagIn) (len : LenIn) (base : Handle) :
    acceptSend flag len base (writerIn u s) = writerIn u (acceptSend flag len base s) :=
  ite_eq_map (writerIn u) rfl rfl

theorem acceptW_writerIn {k k' : State} (hk : k' = writerIn u k) :
    acceptW (writerIn u s) k' = mapNext (writerIn u) (acceptW s k) :=
  ite_eq_map (mapNext (writerIn u)) rfl (ite_eq_map (mapNext (writerIn u)) (congrArg _ hk) rfl)

theorem exec_decodeWcmd_writerIn (word : WcmdWord) :
    exec (decodeWcmd word) (writerIn u s) = mapNext (writerIn u) (exec (decodeWcmd word) s) := by
  unfold decodeWcmd
  split
  case h_2 => exact acceptW_writerIn u s (acceptSend_writerIn u s _ _ _)
  all_goals exact acceptW_writerIn u s (badCommandW_writerIn u s)

theorem writerAccept_writerIn : writerAccept (writerIn u s) = mapNext (writerIn u) (writerAccept s) := by
  have hport : (writerIn u s).env.wcmd = s.env.wcmd := rfl
  unfold writerAccept
  rw [hport]
  split
  · rfl
  · next word rest _ => exact exec_decodeWcmd_writerIn u { s with env := { s.env with wcmd := rest } } word

/-! ### Stages -/

theorem txCheck_writerIn : txCheck (writerIn u s) = mapNext (writerIn u) (txCheck s) := by
  have hsource : txSource (writerIn u s) = txSource s := rfl
  refine ite_eq_map (mapNext (writerIn u)) rfl (ite_eq_map (mapNext (writerIn u)) ?_ rfl)
  rw [hsource]
  split
  · rfl
  · simp [mapNext, issue, setWx, writerIn]

theorem txStage_writerIn {ended ended' : State} (h : ended' = writerIn u ended) :
    txStage ended' (writerIn u s) = mapNext (writerIn u) (txStage ended s) := by
  unfold txStage
  rw [writerIn_w, h]
  split
  case h_1 => exact txCheck_writerIn u s
  all_goals rfl

theorem flagEnded_writerIn : flagEnded (writerIn u s) = writerIn u (flagEnded s) :=
  ite_eq_map (writerIn u) rfl (fail_writerIn ..)

theorem checkLength_writerIn : checkLength (writerIn u s) = writerIn u (checkLength s) :=
  ite_eq_map (writerIn u) (by simp [fatalStop_eq, writerIn]) rfl

theorem lengthEnded_writerIn : lengthEnded (writerIn u s) = writerIn u (lengthEnded s) :=
  ite_eq_map (writerIn u) rfl (fail_writerIn ..)

theorem payloadEnded_writerIn : payloadEnded (writerIn u s) = writerIn u (payloadEnded s) :=
  ite_eq_map (writerIn u) (result_writerIn u { s with w := { s.w with status := .stOk, ph := .idle } })
    (fail_writerIn ..)

theorem writerBusyStep_writerIn : writerBusyStep (writerIn u s) = mapNext (writerIn u) (writerBusyStep s) := by
  unfold writerBusyStep
  rw [writerIn_w]
  cases s.w.ph with
  | flag => exact txStage_writerIn u s (flagEnded_writerIn u s)
  | chk => exact congrArg _ (checkLength_writerIn u s)
  | len => exact txStage_writerIn u s (lengthEnded_writerIn u s)
  | pay => exact txStage_writerIn u s (payloadEnded_writerIn u s)
  | idle => rfl
  | halt => rfl

theorem writerStep_writerIn : writerStep (writerIn u s) = mapNext (writerIn u) (writerStep s) :=
  ite_eq_map (mapNext (writerIn u)) rfl
    (ite_eq_map (mapNext (writerIn u)) (writerAccept_writerIn u s) (writerBusyStep_writerIn u s))

/-! ### Answers -/

theorem txAnswered_writerIn (a : TxAnswer) :
    txAnswered a (writerIn u s) = mapNext (writerIn u) (txAnswered a s) := by
  unfold txAnswered
  split
  · rfl
  · rfl
  · exact ite_eq_map (mapNext (writerIn u)) rfl (by simp [mapNext, setWx, writerIn])

/-- Every step of WR commutes with putting WR among the rest of another state. -/
theorem handle_writerIn {e : Event} (he : Event.isWriters e = true) :
    handle e (writerIn u s) = mapNext (writerIn u) (handle e s) := by
  cases e with
  | wr => exact writerStep_writerIn u s
  | txAnswer a => exact ite_eq_map (mapNext (writerIn u)) (txAnswered_writerIn u s a) rfl
  | _ => exact absurd he Bool.false_ne_true

end

/-- Settles O42: WR's step in either state is its step in the state with nothing issued and nothing sent, put among the rest of
that state. -/
theorem writerDependsOnItsViewOnly : Obligations.WriterDependsOnItsViewOnly := by
  unfold Obligations.WriterDependsOnItsViewOnly
  intro e s₁ s₂ t₁ he hview hstep
  have h₁ := handle_writerIn s₁ (unlogged s₁) he
  have h₂ := handle_writerIn s₂ (unlogged s₁) he
  rw [writerIn_unlogged rfl, hstep] at h₁
  rw [writerIn_unlogged hview] at h₂
  obtain ⟨t, ht, rfl⟩ := mapNext_eq_next.1 h₁.symm
  rw [ht] at h₂
  exact ⟨writerIn s₂ t, h₂, rfl, t.env.out, t.env.wireTx, rfl, rfl, rfl, rfl⟩

/-! ## RD among the rest of another state -/

/-- The state `u` in which RD sees what it sees in `s` and receive storage holds `m`; what `s` has issued comes after what `u`
has. -/
def readerIn (u : State) (m : Memory) (s : State) : State :=
  { u with
    fatal := s.fatal, diagEn := s.diagEn, live := s.live, r := s.r
    env := { u.env with
      rcmd := s.env.rcmd, rxReady := s.env.rxReady, wireRx := s.env.wireRx, pool := s.env.pool
      rxbuf := m, out := u.env.out ++ s.env.out } }

theorem readerIn_unlogged {s u : State} (h : readerView s = readerView u) :
    readerIn u u.env.rxbuf (unlogged s) = u := by
  simp only [readerView, Prod.mk.injEq] at h
  obtain ⟨hfatal, hdiag, hlive, hr, hcmd, hready, hwire, hpool⟩ := h
  simp [readerIn, unlogged, hfatal, hdiag, hlive, hr, hcmd, hready, hwire, hpool]

/-- `o'` is the outcome `o` among the rest of `u`, whatever receive storage then holds. -/
def ReaderLike (u : State) (o o' : Res) : Prop := ∃ m, o' = mapNext (readerIn u m) o

/-- A branch is alike when both its arms are. -/
theorem ReaderLike.ite {u : State} {p : Prop} {d d' : Decidable p} {a b a' b' : Res} (ha : ReaderLike u a a')
    (hb : ReaderLike u b b') : ReaderLike u (@ite Res p d a b) (@ite Res p d' a' b') :=
  exists_ite_eq_map (fun m => mapNext (readerIn u m)) ha hb

section
variable (u : State) (m : Memory) (s : State)

@[simp] theorem readerIn_r : (readerIn u m s).r = s.r := rfl

theorem ReaderLike.next : ReaderLike u (.next s) (.next (readerIn u m s)) := ⟨m, rfl⟩

theorem ReaderLike.fault (f : Fault) : ReaderLike u (.fault f) (.fault f) := ⟨[], rfl⟩

theorem ReaderLike.refused (r : Refusal) : ReaderLike u (.refused r) (.refused r) := ⟨[], rfl⟩

theorem result_readerIn : result .rd (readerIn u m s) = readerIn u m (result .rd s) := by
  simp [result_rd_eq, readerIn]

theorem fail_readerIn (k : XKind) (stage : Stage) (got exp : Len) (code : ErrCode) :
    fail .rd k stage got exp code (readerIn u m s) = readerIn u m (fail .rd k stage got exp code s) := by
  simp [fail_rd_eq, readerIn]

theorem free_readerIn (h : Handle) :
    free h (readerIn u m s) = readerIn u (Memory.drop m h) (free h s) := by
  simp [free_eq, readerIn]

theorem allocFail_readerIn (n : Len) : allocFail n (readerIn u m s) = readerIn u m (allocFail n s) := by
  simp [allocFail_eq, readerIn]

/-! ### Commands -/

theorem releaseEnd_readerIn (st : Status) :
    releaseEnd st (readerIn u m s) = readerIn u m (releaseEnd st s) :=
  result_readerIn u m { s with r := s.r.cleared st }

/-- A release takes from storage at most what its handle names. -/
theorem releaseStep_readerIn (valid : Bool) (handle : Handle) :
    ∃ m', releaseStep valid handle (readerIn u m s) = readerIn u m' (releaseStep valid handle s) := by
  have hfree : releaseEnd .stOk { free handle (readerIn u m s) with live := liveErase s.live handle } =
      readerIn u (Memory.drop m handle) (releaseEnd .stOk { free handle s with live := liveErase s.live handle }) := by
    rw [free_readerIn]
    exact releaseEnd_readerIn u _ { free handle s with live := liveErase s.live handle } .stOk
  exact exists_ite_eq_map (readerIn u) ⟨m, releaseEnd_readerIn ..⟩
    (exists_ite_eq_map (readerIn u) ⟨_, hfree⟩ ⟨m, releaseEnd_readerIn ..⟩)

theorem acceptR_readerIn {k k' : State} (hk : ∃ m', k' = readerIn u m' k) :
    ReaderLike u (acceptR s k) (acceptR (readerIn u m s) k') := by
  obtain ⟨m', rfl⟩ := hk
  exact .ite (.fault u _) (.ite (.next u m' k) (.next u m s))

theorem exec_decodeRcmd_readerIn (word : RcmdWord) :
    ReaderLike u (exec (decodeRcmd word) s) (exec (decodeRcmd word) (readerIn u m s)) := by
  have hbad : ∃ m', badCommandR (readerIn u m s) = readerIn u m' (badCommandR s) :=
    ⟨m, releaseEnd_readerIn u m s .stBadCommand⟩
  unfold decodeRcmd
  split
  · exact acceptR_readerIn u m s hbad
  · exact acceptR_readerIn u m s hbad
  · exact acceptR_readerIn u m s ⟨m, rfl⟩
  · exact acceptR_readerIn u m s (releaseStep_readerIn u m s _ _)

theorem readerAccept_readerIn : ReaderLike u (readerAccept s) (readerAccept (readerIn u m s)) := by
  have hport : (readerIn u m s).env.rcmd = s.env.rcmd := rfl
  unfold readerAccept
  rw [hport]
  split
  · exact .next u m s
  · next word rest _ => exact exec_decodeRcmd_readerIn u m { s with env := { s.env with rcmd := rest } } word

/-! ### Stages -/

theorem rxCheck_readerIn : ReaderLike u (rxCheck s) (rxCheck (readerIn u m s)) :=
  .ite (.next u m _) (.ite (.next u m _) (.next u m s))

theorem rxAttempt_readerIn : rxAttempt (readerIn u m s) = mapNext (readerIn u m) (rxAttempt s) := by
  simp [rxAttempt, mapNext, issue, setRx, readerIn]

theorem rxStage_readerIn {ended ended' : Res} (h : ReaderLike u ended ended') :
    ReaderLike u (rxStage ended s) (rxStage ended' (readerIn u m s)) := by
  unfold rxStage
  rw [readerIn_r]
  cases s.r.rx.ph with
  | check => exact rxCheck_readerIn u m s
  | wait => exact .ite ⟨m, rxAttempt_readerIn u m s⟩ (.next u m s)
  | att => exact .next u m s
  | done => exact h

theorem firstEnded_readerIn : firstEnded (readerIn u m s) = readerIn u m (firstEnded s) :=
  ite_eq_map (readerIn u m) (fail_readerIn ..) (ite_eq_map (readerIn u m) rfl rfl)

theorem allocateFor_readerIn (bound : Option Nat) :
    allocateFor bound (readerIn u m s) = readerIn u m (allocateFor bound s) :=
  ite_eq_map (readerIn u m) (allocFail_readerIn u m (decodeLength s.r.lenbuf s) _)
    (by simp [issue, decodeLength, readerIn])

theorem takeHeader_readerIn (zf : Bool) (flag : Byte) (len : Len) :
    ReaderLike u (takeHeader zf flag len s) (takeHeader zf flag len (readerIn u m s)) :=
  .ite (.fault u _)
    (.ite ⟨m, congrArg _ (allocateFor_readerIn u m (stageHeader zf flag len s) _)⟩ (.next u m s))

theorem exec_headerInstr_readerIn :
    ReaderLike u (exec (headerInstr s) s) (exec (headerInstr (readerIn u m s)) (readerIn u m s)) := by
  have hinstr : headerInstr (readerIn u m s) = headerInstr s := rfl
  rw [hinstr]
  unfold headerInstr
  split <;> exact takeHeader_readerIn u m s _ _ _

theorem lengthStageEnded_readerIn : ReaderLike u (lengthStageEnded s) (lengthStageEnded (readerIn u m s)) :=
  .ite (exec_headerInstr_readerIn u m s) ⟨m, congrArg _ (fail_readerIn ..)⟩

theorem payloadReceived_readerIn : payloadReceived (readerIn u m s) = readerIn u m (payloadReceived s) := by
  simp [payloadReceived, result_rd_eq, readerIn]

theorem payloadFailed_readerIn :
    payloadFailed (readerIn u m s) = readerIn u (Memory.drop m s.r.h) (payloadFailed s) := by
  unfold payloadFailed
  rw [readerIn_r, free_readerIn]
  exact fail_readerIn u _ { free s.r.h s with r := { s.r with hv := false } } _ _ _ _ _

theorem payloadStageEnded_readerIn :
    ∃ m', payloadStageEnded (readerIn u m s) = readerIn u m' (payloadStageEnded s) :=
  exists_ite_eq_map (readerIn u) ⟨m, payloadReceived_readerIn u m s⟩ ⟨_, payloadFailed_readerIn u m s⟩

theorem readerStep_readerIn : ReaderLike u (readerStep s) (readerStep (readerIn u m s)) := by
  refine .ite (.fault u _) ?_
  rw [readerIn_r]
  cases s.r.ph with
  | idle => exact readerAccept_readerIn u m s
  | first => exact rxStage_readerIn u m s ⟨m, congrArg _ (firstEnded_readerIn u m s)⟩
  | len => exact rxStage_readerIn u m s (lengthStageEnded_readerIn u m s)
  | alloc => exact .next u m s
  | pay =>
    obtain ⟨m', hended⟩ := payloadStageEnded_readerIn u m s
    exact rxStage_readerIn u m s ⟨m', congrArg _ hended⟩

/-! ### Answers and ticks -/

/-- The sink's registers and its refusals do not depend on what storage holds; a payload's bytes go there. -/
theorem rxSink_readerIn (d : List Byte) :
    ∃ m', rxSink d (readerIn u m s) = (rxSink d s).map (readerIn u m') := by
  unfold rxSink
  rw [readerIn_r]
  cases s.r.ph with
  | pay => exact ⟨_, ite_eq_map _ rfl rfl⟩
  | _ => exact ⟨m, rfl⟩

theorem rxAnswered_readerIn (a : RxAnswer) :
    ReaderLike u (rxAnswered a s) (rxAnswered a (readerIn u m s)) := by
  unfold rxAnswered
  split
  · exact .next u m _
  · exact .next u m _
  · next k =>
    refine .ite (.refused u _) (.ite (.refused u _) ?_)
    obtain ⟨m', hsink⟩ := rxSink_readerIn u m s (s.env.wireRx.take (k + 1))
    refine ⟨m', ?_⟩
    rw [show (readerIn u m s).env.wireRx = s.env.wireRx from rfl, hsink]
    cases rxSink (s.env.wireRx.take (k + 1)) s <;> rfl

theorem allocAnswered_readerIn (a : AllocAnswer) :
    ReaderLike u (allocAnswered a s) (allocAnswered a (readerIn u m s)) := by
  cases a with
  | noMem => exact ⟨m, congrArg _ (allocFail_readerIn u m s _)⟩
  | ok h => exact .ite (.refused u _) (.next u (Memory.drop m h) _)

theorem onTick_readerIn : onTick (readerIn u m s) = readerIn u m (onTick s) :=
  ite_eq_map (readerIn u m) (ite_eq_map (readerIn u m) rfl rfl) rfl

/-- Every step of RD commutes with putting RD among the rest of another state, up to what storage then holds. -/
theorem handle_readerIn {e : Event} (he : Event.isReaders e = true) :
    ReaderLike u (handle e s) (handle e (readerIn u m s)) := by
  cases e with
  | rd => exact readerStep_readerIn u m s
  | rxAnswer a => exact .ite (rxAnswered_readerIn u m s a) (.next u m s)
  | allocAnswer a => exact .ite (allocAnswered_readerIn u m s a) (.next u m s)
  | tick => exact ⟨m, congrArg _ (onTick_readerIn u m s)⟩
  | _ => exact absurd he Bool.false_ne_true

end

/-- Settles O43: RD's step in either state is its step in the state with nothing issued, put among the rest of that state, up to
what receive storage holds. -/
theorem readerDependsOnItsViewOnly : Obligations.ReaderDependsOnItsViewOnly := by
  unfold Obligations.ReaderDependsOnItsViewOnly
  intro e s₁ s₂ t₁ he hview hstep
  obtain ⟨m₁, h₁⟩ := handle_readerIn s₁ s₁.env.rxbuf (unlogged s₁) he
  obtain ⟨m₂, h₂⟩ := handle_readerIn s₂ s₂.env.rxbuf (unlogged s₁) he
  rw [readerIn_unlogged rfl, hstep] at h₁
  rw [readerIn_unlogged hview] at h₂
  obtain ⟨t, ht, rfl⟩ := mapNext_eq_next.1 h₁.symm
  rw [ht] at h₂
  exact ⟨readerIn s₂ m₂ t, h₂, rfl, t.env.out, rfl, rfl⟩

end Sys2Proof.Machine
end

section
/-! PROOF. Who writes what (R5, R12, R26, R28, R53): O14, O34, O39, O40 and O41.

The idea: a step of WR leaves `s` as it is but for `withWritersOf t s`, a step of RD but for `withReadersOf t s`, and every event
of the environment but reset goes one of the ways of `EnvStepped`. The statements here, and those about what every step keeps,
read what they need off these three. -/

namespace Sys2Proof.Machine

variable {e : Event} {s t : State}

/-! ## WR's events -/

/-- The state `s` with everything that WR may write as it stands in `t`. -/
def withWritersOf (t s : State) : State :=
  { s with
    fatal := t.fatal, w := t.w
    env := { s.env with
      wcmd := t.env.wcmd, offer := t.env.offer, wireTx := t.env.wireTx, older := t.env.older, draws := t.env.draws
      out := t.env.out } }

theorem WriterStepped.frame (h : WriterStepped s t) : t = withWritersOf t s := by
  cases h with
  | sends =>
    unfold acceptSend
    split <;> rfl
  | fails =>
    rw [fail_wr_eq]
    rfl
  | _ => rfl

theorem TxAnswered.frame {a : TxAnswer} (h : TxAnswered s a t) : t = withWritersOf t s := by
  cases h <;> rfl

theorem handle_writers_frame (he : Event.isWriters e = true) (h : handle e s = .next t) : t = withWritersOf t s := by
  cases e with
  | wr => exact (writerStep_cases h).2.frame
  | txAnswer a =>
    obtain ⟨-, -, ha⟩ | ⟨-, rfl⟩ := onTxAnswer_cases h
    · exact ha.frame
    · rfl
  | _ => exact absurd he Bool.false_ne_true

/-! ## RD's events -/

/-- The state `s` with everything that RD may write as it stands in `t`. -/
def withReadersOf (t s : State) : State :=
  { s with
    live := t.live, r := t.r
    env := { s.env with
      rcmd := t.env.rcmd, wireRx := t.env.wireRx, rxbuf := t.env.rxbuf, pool := t.env.pool, out := t.env.out } }

theorem ReaderStepped.frame (h : ReaderStepped s t) : t = withReadersOf t s := by
  cases h with
  | fails =>
    rw [fail_rd_eq]
    rfl
  | frees =>
    rw [fail_rd_eq]
    rfl
  | _ => rfl

theorem RxAnswered.frame {a : RxAnswer} (h : RxAnswered s a t) : t = withReadersOf t s := by
  cases h with
  | moved k u _ _ _ hu => cases hu <;> rfl
  | _ => rfl

theorem AllocAnswered.frame {a : AllocAnswer} (h : AllocAnswered s a t) : t = withReadersOf t s := by
  cases h <;> rfl

theorem onTick_frame (s : State) : onTick s = withReadersOf (onTick s) s := by
  obtain ⟨-, -, -, ⟨-, h⟩ | ⟨-, h⟩⟩ | ⟨-, h⟩ := onTick_cases s <;> rw [h] <;> rfl

theorem handle_readers_frame (he : Event.isReaders e = true) (h : handle e s = .next t) : t = withReadersOf t s := by
  cases e with
  | rd => exact (readerStep_cases h).2.frame
  | rxAnswer a =>
    obtain ⟨-, -, ha⟩ | ⟨-, rfl⟩ := onRxAnswer_cases h
    · exact ha.frame
    · rfl
  | allocAnswer a =>
    obtain ⟨-, -, ha⟩ | ⟨-, rfl⟩ := onAllocAnswer_cases h
    · exact ha.frame
    · rfl
  | tick =>
    cases h
    exact onTick_frame s
  | _ => exact absurd he Bool.false_ne_true

/-! ## The environment's events -/

/-- Where an event of the environment other than reset leads. -/
inductive EnvStepped (s : State) : Event → State → Prop
  | rxReady (ready : Bool) : EnvStepped s (.rxReady ready) { s with env := { s.env with rxReady := ready } }
  | arrives (bytes : List Byte) :
      EnvStepped s (.arrive bytes) { s with env := { s.env with wireRx := s.env.wireRx ++ bytes } }
  | presentsW (word : WcmdWord) :
      EnvStepped s (.presentW word) { s with env := { s.env with wcmd := s.env.wcmd ++ [word] } }
  | presentsR (word : RcmdWord) :
      EnvStepped s (.presentR word) { s with env := { s.env with rcmd := s.env.rcmd ++ [word] } }
  | writesDiag (on : Bool) : EnvStepped s (.writeDiag on) { s with diagEn := on }
  | places (b : Handle) (i : Len) (v : Byte) : EnvStepped s (.placeTok b i v) (placeByte b i v s)
  | writes (h : Handle) (i : Len) (v : Byte) :
      EnvStepped s (.hostWrite h i v)
        { s with env := { s.env with rxbuf := Memory.write s.env.rxbuf (cellAddr h i.toNat) v } }
  | late (i : Nat) (a : LateAnswer) (t : State) (ht : LateAnswered s i a t) : EnvStepped s (.lateAnswer i a) t
  | reclaims : EnvStepped s .reclaim (reclaimPool s)

theorem handle_env_cases (hw : Event.isWriters e = false) (hr : Event.isReaders e = false) (hne : e ≠ .reset)
    (h : handle e s = .next t) : EnvStepped s e t := by
  cases e with
  | rxReady ready => cases h; exact .rxReady ready
  | arrive bytes => cases h; exact .arrives bytes
  | presentW word => cases h; exact .presentsW word
  | presentR word => cases h; exact .presentsR word
  | writeDiag on => cases h; exact .writesDiag on
  | placeTok b i v => cases h; exact .places b i v
  | hostWrite g i v =>
    obtain ⟨-, rfl⟩ := hostWrites_eq_next.1 h
    exact .writes g i v
  | lateAnswer i a => exact .late i a t (lateAnswered_cases h)
  | reclaim => cases h; exact .reclaims
  | reset => exact absurd rfl hne
  | wr | txAnswer => cases hw
  | rd | rxAnswer | allocAnswer | tick => cases hr

/-- No register is written but DIAG_EN, nothing is issued, and the offer stands. -/
theorem EnvStepped.registers (h : EnvStepped s e t) :
    t.fatal = s.fatal ∧ t.live = s.live ∧ t.w = s.w ∧ t.r = s.r ∧ t.env.out = s.env.out ∧ t.env.offer = s.env.offer := by
  cases h with
  | late i a t ht => cases ht <;> exact ⟨rfl, rfl, rfl, rfl, rfl, rfl⟩
  | _ => exact ⟨rfl, rfl, rfl, rfl, rfl, rfl⟩

theorem LateAnswered.frame {i : Nat} {a : LateAnswer} (h : LateAnswered s i a t) :
    t = { s with
      env := { s.env with
        forgotten := t.env.forgotten, wireTx := t.env.wireTx, wireRx := t.env.wireRx, rxbuf := t.env.rxbuf
        pool := t.env.pool } } := by
  cases h <;> rfl

/-! ### The storage of live tokens -/

theorem cellAddr_inj {g h : Handle} {i j : Len} (he : cellAddr g i.toNat = cellAddr h j.toNat) : g = h ∧ i = j := by
  have hi := i.isLt
  have hj := j.isLt
  unfold cellAddr at he
  exact ⟨BitVec.eq_of_toNat_eq (by omega), BitVec.eq_of_toNat_eq (by omega)⟩

theorem poolSize_cons_other {g h : Handle} (n : Nat) (pool : List (Handle × Nat)) (hne : h ≠ g) :
    poolSize ((h, n) :: pool) g = poolSize pool g := if_neg hne

theorem poolSize_reclaimPool {g : Handle} (hg : heldHandle s g = true) :
    poolSize (reclaimPool s).env.pool g = poolSize s.env.pool g :=
  poolSize_filter _ fun _ => hg

theorem read_reclaimPool {g : Handle} (i : Len) (hg : heldHandle s g = true) :
    Memory.read (reclaimPool s).env.rxbuf (cellAddr g i.toNat) = Memory.read s.env.rxbuf (cellAddr g i.toNat) :=
  Memory.read_filter _ fun _ => by simpa [cellAddr_div] using hg

theorem heldHandle_of_live {g : Handle} (hg : g ∈ s.live) : heldHandle s g = true := by
  simp [heldHandle, hg]

/-- The allocator and the platform leave a live token's storage alone, and the host writes there one byte at a time. -/
theorem EnvStepped.live_storage (h : EnvStepped s e t) {g : Handle} (hg : g ∈ s.live) :
    poolSize t.env.pool g = poolSize s.env.pool g ∧
      ∀ i : Len, (∀ v, e ≠ .hostWrite g i v) →
        Memory.read t.env.rxbuf (cellAddr g i.toNat) = Memory.read s.env.rxbuf (cellAddr g i.toNat) := by
  cases h with
  | writes g' i' v =>
    refine ⟨rfl, fun i hi => Memory.read_write_other _ _ fun he => ?_⟩
    obtain ⟨rfl, rfl⟩ := cellAddr_inj he
    exact hi v rfl
  | late i a t ht =>
    cases ht with
    | allocated n g' _ _ hl =>
      have hne : g ≠ g' := ne_of_mem_of_not_mem hg hl
      exact ⟨poolSize_cons_other _ _ hne.symm, fun i _ => Memory.read_drop_other _ i hne⟩
    | _ => exact ⟨rfl, fun _ _ => rfl⟩
  | reclaims =>
    exact ⟨poolSize_reclaimPool (heldHandle_of_live hg), fun i _ => read_reclaimPool i (heldHandle_of_live hg)⟩
  | _ => exact ⟨rfl, fun _ _ => rfl⟩

/-- Settles O41: each agent's frame, and the environment's events one by one. -/
theorem registersHaveTheirWriters : Obligations.RegistersHaveTheirWriters := by
  unfold Obligations.RegistersHaveTheirWriters
  intro e s t h
  refine ⟨fun hw => ?_, fun hr => ?_, fun hw hr hne => ?_⟩
  · rw [handle_writers_frame hw h]
    exact ⟨rfl, rfl, rfl, rfl, rfl, rfl, rfl, rfl, rfl⟩
  · rw [handle_readers_frame hr h]
    exact ⟨rfl, rfl, rfl, rfl, rfl, rfl, rfl, rfl⟩
  · have henv := handle_env_cases hw hr hne h
    refine ⟨henv.registers, ?_⟩
    simp only [← and_assoc]
    refine ⟨?_, fun g hg => henv.live_storage hg⟩
    cases henv with
    | late i a t ht =>
      rw [ht.frame]
      simp
    | places b i v => simp [placeByte]
    | reclaims => simp [reclaimPool]
    | _ => simp

/-! ## The ports -/

theorem acceptW_of_ready {k : State} (hf : s.fatal = false) (hw : s.w.ph = .idle) : acceptW s k = .next k := by
  simp [acceptW, running, hf, hw]

theorem acceptR_of_ready {k : State} (hf : s.fatal = false) (hr : s.r.ph = .idle) : acceptR s k = .next k := by
  simp [acceptR, running, hf, hr]

/-- A ready WR runs any word, which touches the port no more. -/
theorem exec_decodeWcmd_of_ready (hf : s.fatal = false) (hw : s.w.ph = .idle) (word : WcmdWord) :
    ∃ t, exec (decodeWcmd word) s = .next t ∧ t.env.wcmd = s.env.wcmd := by
  have hsend (flag : FlagIn) (len : LenIn) (base : Handle) :
      (acceptSend flag len base s).env.wcmd = s.env.wcmd := by
    unfold acceptSend
    split <;> rfl
  unfold decodeWcmd
  split
  case h_2 => exact ⟨_, acceptW_of_ready hf hw, hsend _ _ _⟩
  all_goals exact ⟨_, acceptW_of_ready hf hw, rfl⟩

/-- A ready RD runs any word, which touches the port no more. -/
theorem exec_decodeRcmd_of_ready (hf : s.fatal = false) (hr : s.r.ph = .idle) (word : RcmdWord) :
    ∃ t, exec (decodeRcmd word) s = .next t ∧ t.env.rcmd = s.env.rcmd := by
  have hrelease (valid : Bool) (h : Handle) : (releaseStep valid h s).env.rcmd = s.env.rcmd := by
    unfold releaseStep
    split
    · rfl
    · split <;> rfl
  unfold decodeRcmd
  split
  case h_4 => exact ⟨_, acceptR_of_ready hf hr, hrelease _ _⟩
  all_goals exact ⟨_, acceptR_of_ready hf hr, rfl⟩

theorem writerStep_of_presented {word : WcmdWord} {words : List WcmdWord} (hf : s.fatal = false) (hw : s.w.ph = .idle)
    (hc : s.env.wcmd = word :: words) :
    writerStep s = exec (decodeWcmd word) { s with env := { s.env with wcmd := words } } := by
  rw [writerStep, running_of_not_fatal hf, if_pos hw, writerAccept, hc]

theorem readerStep_of_presented {word : RcmdWord} {words : List RcmdWord} (hf : s.fatal = false) (hr : s.r.ph = .idle)
    (hc : s.env.rcmd = word :: words) :
    readerStep s = exec (decodeRcmd word) { s with env := { s.env with rcmd := words } } := by
  rw [readerStep, running_of_not_fatal hf, hr]
  simp only [readerAccept, hc]

theorem WriterStepped.wcmd_of_busy (h : WriterStepped s t) (hw : s.w.ph ≠ .idle) : t.env.wcmd = s.env.wcmd := by
  cases h with
  | idle hi | sends _ _ _ _ _ hi | rejects _ _ hi => exact absurd hi hw
  | fails => rw [fail_wr_eq]
  | _ => rfl

theorem ReaderStepped.rcmd_of_busy (h : ReaderStepped s t) (hr : s.r.ph ≠ .idle) : t.env.rcmd = s.env.rcmd := by
  cases h with
  | idle hi | receives _ _ hi | rejects _ _ hi | releases _ _ _ hi | releasesNothing _ _ _ hi => exact absurd hi hr
  | fails | frees => rw [fail_rd_eq]
  | _ => rfl

theorem wReady_iff : s.wReady = true ↔ s.w.ph = .idle ∧ s.fatal = false := by
  simp [State.wReady]

theorem rReady_iff : s.rReady = true ↔ s.r.ph = .idle ∧ s.fatal = false := by
  simp [State.rReady]

theorem wBusy_iff : s.wBusy = true ↔ s.w.ph ≠ .idle := by
  simp [State.wBusy]

theorem rBusy_iff : s.rBusy = true ↔ s.r.ph ≠ .idle := by
  simp [State.rBusy]

/-- Settles O14: a ready unit's word leaves the port and runs; of a busy unit's steps none is an accept. -/
theorem statusOutputsGovernPorts : Obligations.StatusOutputsGovernPorts := by
  unfold Obligations.StatusOutputsGovernPorts
  refine ⟨fun s => ⟨wBusy_iff, rBusy_iff, wReady_iff, rReady_iff⟩, fun s word words hs hc => ?_,
    fun s word words hs hc => ?_, fun s t hs h => ?_, fun s t hs h => ?_⟩
  · obtain ⟨hw, hf⟩ := wReady_iff.1 hs
    obtain ⟨t, ht, htc⟩ :=
      exec_decodeWcmd_of_ready (s := { s with env := { s.env with wcmd := words } }) hf hw word
    exact ⟨t, (writerStep_of_presented hf hw hc).trans ht, htc⟩
  · obtain ⟨hr, hf⟩ := rReady_iff.1 hs
    obtain ⟨t, ht, htc⟩ :=
      exec_decodeRcmd_of_ready (s := { s with env := { s.env with rcmd := words } }) hf hr word
    exact ⟨t, (readerStep_of_presented hf hr hc).trans ht, htc⟩
  · exact (writerStep_cases h).2.wcmd_of_busy (wBusy_iff.1 hs)
  · exact (readerStep_cases h).2.rcmd_of_busy (rBusy_iff.1 hs)

/-! ## FATAL -/

/-- What an event does to WR's side: a step of WR's, a reset, or nothing to its registers, FATAL and its offer. -/
inductive WriterHandled (s : State) : Event → State → Prop
  | steps (t : State) (hf : s.fatal = false) (h : WriterStepped s t) : WriterHandled s .wr t
  | answered (a : TxAnswer) (t : State) (hatt : s.w.wx.ph = .att) (h : TxAnswered s a t) :
      WriterHandled s (.txAnswer a) t
  | resets : WriterHandled s .reset (resetBlock s)
  | untouched (e : Event) (t : State) (hw : t.w = s.w) (hf : t.fatal = s.fatal) (ho : t.env.offer = s.env.offer) :
      WriterHandled s e t

theorem handle_writerHandled (h : handle e s = .next t) : WriterHandled s e t := by
  cases hw : Event.isWriters e with
  | true =>
    cases e with
    | wr =>
      obtain ⟨hf, hs⟩ := writerStep_cases h
      exact .steps t hf hs
    | txAnswer a =>
      obtain ⟨-, hatt, ha⟩ | ⟨-, rfl⟩ := onTxAnswer_cases h
      · exact .answered a t hatt ha
      · exact .untouched _ _ rfl rfl rfl
    | _ => cases hw
  | false =>
    by_cases hne : e = .reset
    · subst hne
      cases h
      exact .resets
    · cases hr : Event.isReaders e with
      | true =>
        rw [handle_readers_frame hr h]
        exact .untouched e _ rfl rfl rfl
      | false =>
        obtain ⟨hfatal, -, hwriter, -, -, hoffer⟩ := (handle_env_cases hw hr hne h).registers
        exact .untouched e t hwriter hfatal hoffer

/-- Of WR's own steps the oversize test alone sets FATAL. -/
theorem WriterStepped.fatal_cases (h : WriterStepped s t) :
    t.fatal = s.fatal ∨ s.w.ph = .chk ∧ 4294967295 < s.w.tlen.toNat := by
  cases h with
  | oversized hw hl => exact .inr ⟨hw, hl⟩
  | sends => exact .inl (by unfold acceptSend; split <;> rfl)
  | fails => exact .inl (by rw [fail_wr_eq])
  | _ => exact .inl rfl

theorem TxAnswered.fatal_eq {a : TxAnswer} (h : TxAnswered s a t) : t.fatal = s.fatal := by
  cases h <;> rfl

/-- An event that sets FATAL is WR's step on an oversized length. -/
theorem handle_sets_fatal (h : handle e s = .next t) (hs : s.fatal = false) (ht : t.fatal = true) :
    e = .wr ∧ s.w.ph = .chk ∧ 4294967295 < s.w.tlen.toNat := by
  have hchanged : t.fatal ≠ s.fatal := by simp [hs, ht]
  cases handle_writerHandled h with
  | steps _ _ hw => exact ⟨rfl, hw.fatal_cases.resolve_left hchanged⟩
  | answered _ _ _ ha => exact absurd ha.fatal_eq hchanged
  | resets => cases ht
  | untouched _ _ _ hf => exact absurd hf hchanged

/-- Taking an event touches the model's own fields alone. -/
theorem takeEvent_state (s : State) :
    ∃ script turn, (takeEvent s).2 = { s with env := { s.env with script := script, turn := turn } } := by
  unfold takeEvent
  split
  · exact ⟨_, s.env.turn, rfl⟩
  · exact ⟨s.env.script, _, rfl⟩

/-- Settles O40: an event that sets FATAL is WR's oversize test. -/
theorem onlyOversizeSetsFatal : Obligations.OnlyOversizeSetsFatal := by
  unfold Obligations.OnlyOversizeSetsFatal
  intro s t h hs ht
  obtain ⟨script, turn, htake⟩ := takeEvent_state s
  rw [step, htake] at h
  exact handle_sets_fatal (s := { s with env := { s.env with script := script, turn := turn } }) h hs ht

theorem exec_of_fatal (hs : s.fatal = true) (i : Instr) : exec i s = .fault .fatalStop := by
  cases i <;> exact running_of_fatal hs _

/-- With FATAL = 1 no answer is consumed and no tick counts. -/
theorem handle_of_fatal (hs : s.fatal = true) (hev : Event.isWriters e = true ∨ Event.isReaders e = true)
    (h : handle e s = .next t) : t = s := by
  have hrun : s.fatal ≠ false := by simp [hs]
  cases e with
  | wr => exact absurd (writerStep_cases h).1 hrun
  | rd => exact absurd (readerStep_cases h).1 hrun
  | txAnswer a => exact ((onTxAnswer_cases h).resolve_left fun hc => hrun hc.1).2
  | rxAnswer a => exact ((onRxAnswer_cases h).resolve_left fun hc => hrun hc.1).2
  | allocAnswer a => exact ((onAllocAnswer_cases h).resolve_left fun hc => hrun hc.1).2
  | tick =>
    cases h
    exact ((onTick_cases s).resolve_left fun hc => hrun hc.1).2
  | _ => simp [Event.isWriters, Event.isReaders] at hev

/-- Settles O39: every instruction and agent's step is guarded by FATAL, and the environment's events write no such register. -/
theorem fatalStopsTheBlock : Obligations.FatalStopsTheBlock := by
  unfold Obligations.FatalStopsTheBlock
  intro s hs
  refine ⟨exec_of_fatal hs, running_of_fatal hs _, running_of_fatal hs _, fun e t hne h => ?_⟩
  by_cases hev : Event.isWriters e = true ∨ Event.isReaders e = true
  · rw [handle_of_fatal hs hev h]
    exact ⟨hs, rfl, rfl, rfl⟩
  · simp only [not_or, Bool.not_eq_true] at hev
    obtain ⟨hfatal, hlive, hw, hr, -, -⟩ := (handle_env_cases hev.1 hev.2 hne h).registers
    exact ⟨hfatal.trans hs, hlive, hw, hr⟩

/-- Settles O34: the registers that R29 gives a value hold it in `State.reset`. -/
theorem resetValuesOfTheSpec : Obligations.ResetValuesOfTheSpec := by
  unfold Obligations.ResetValuesOfTheSpec
  decide

end Sys2Proof.Machine
end

section
/-! PROOF. The units' registers fit their phases after every step (R11, R18, R91 to R98, R107): O52 and O53.

The idea: `WriterFits` and `ReaderFits` fall into what is said of the engine (`TxFits`, `RxFits`), which each operation on the
engine's registers keeps, and what is said of the stage (`SendStageFits`, `ReceiveStageFits`), which an engine's own step leaves as
it is and a sequencer's step establishes for the next phase. -/

namespace Sys2Proof.Machine

variable {e : Event} {s t : State}

/-! ## A step and its event -/

/-- What every event keeps, and no field of the model's own bears on, every step keeps. -/
theorem step_keeps {P : State → Prop}
    (hown : ∀ s script turn, P s → P { s with env := { s.env with script := script, turn := turn } })
    (hevent : ∀ e s t, P s → handle e s = .next t → P t) (hs : P s) (h : step s = .next t) : P t := by
  obtain ⟨script, turn, htake⟩ := takeEvent_state s
  rw [step, htake] at h
  exact hevent _ _ t (hown s script turn hs) h

/-- What an event does to RD's side: a step of RD's, a reset, or nothing to its registers and LIVE, while the pool is changed by
the environment alone. -/
inductive ReaderHandled (s : State) : Event → State → Prop
  | steps (t : State) (h : ReaderStepped s t) : ReaderHandled s .rd t
  | answered (a : RxAnswer) (t : State) (hatt : s.r.rx.ph = .att) (h : RxAnswered s a t) :
      ReaderHandled s (.rxAnswer a) t
  | allocAnswered (a : AllocAnswer) (t : State) (hr : s.r.ph = .alloc) (h : AllocAnswered s a t) :
      ReaderHandled s (.allocAnswer a) t
  | ticks (hwait : s.r.rx.ph = .wait) (hlt : s.r.tmr + 1 < Config.rxTimeoutTicks) :
      ReaderHandled s .tick { s with r := { s.r with tmr := s.r.tmr + 1 } }
  | expires (hwait : s.r.rx.ph = .wait) :
      ReaderHandled s .tick
        { s with r := { s.r with tmr := Config.rxTimeoutTicks, rx := s.r.rx.finish .kPartial } }
  | resets : ReaderHandled s .reset (resetBlock s)
  | untouched (e : Event) (t : State) (hr : t.r = s.r) (hlive : t.live = s.live)
      (hpool : t.env.pool = s.env.pool ∨ EnvStepped s e t) : ReaderHandled s e t

theorem handle_readerHandled (h : handle e s = .next t) : ReaderHandled s e t := by
  cases hr : Event.isReaders e with
  | true =>
    cases e with
    | rd => exact .steps t (readerStep_cases h).2
    | rxAnswer a =>
      obtain ⟨-, hatt, ha⟩ | ⟨-, rfl⟩ := onRxAnswer_cases h
      · exact .answered a t hatt ha
      · exact .untouched _ _ rfl rfl (.inl rfl)
    | allocAnswer a =>
      obtain ⟨-, hph, ha⟩ | ⟨-, rfl⟩ := onAllocAnswer_cases h
      · exact .allocAnswered a t hph ha
      · exact .untouched _ _ rfl rfl (.inl rfl)
    | tick =>
      cases h
      obtain ⟨-, hwait, -, ⟨hlt, heq⟩ | ⟨-, heq⟩⟩ | ⟨-, heq⟩ := onTick_cases s <;> rw [heq]
      · exact .ticks hwait hlt
      · exact .expires hwait
      · exact .untouched _ _ rfl rfl (.inl rfl)
    | _ => cases hr
  | false =>
    by_cases hne : e = .reset
    · subst hne
      cases h
      exact .resets
    · cases hw : Event.isWriters e with
      | true =>
        rw [handle_writers_frame hw h]
        exact .untouched e _ rfl rfl (.inl rfl)
      | false =>
        have henv := handle_env_cases hw hr hne h
        obtain ⟨-, hlive, -, hreader, -, -⟩ := henv.registers
        exact .untouched e t hreader hlive (.inr henv)

/-! ## The engine's registers (R18) -/

section
variable {busy busy' : Prop} {x : Engine}

theorem EngineFits.start (hb : busy) (x : Engine) (n : Len) : EngineFits busy (x.start n) := by
  simp [EngineFits, Engine.start, hb, BitVec.le_def]

theorem EngineFits.complete (hn : x.cnt = x.req) : EngineFits busy (x.finish .kComplete) := by
  simp [EngineFits, Engine.finish, hn]

/-- A transfer that ends with a byte still to move. -/
theorem EngineFits.short {k : XKind} (c : ErrCode) (hn : x.cnt < x.req)
    (hk : k = .kPartial ∨ k = .kClosed ∨ k = .kError) :
    EngineFits busy { x with kind := k, code := c, ph := .done } := by
  have hle : x.cnt ≤ x.req := BitVec.le_of_lt hn
  obtain rfl | rfl | rfl := hk <;> simp [EngineFits, hn, hle]

/-- A transfer goes on to its wait or its attempt with a byte still to move. -/
theorem EngineFits.goesOn {ph : EPhase} (hb : busy) (hk : x.kind = .kNone) (hn : x.cnt < x.req)
    (hph : ph = .wait ∨ ph = .att) : EngineFits busy { x with ph := ph } := by
  have hle : x.cnt ≤ x.req := BitVec.le_of_lt hn
  obtain rfl | rfl := hph <;> simp [EngineFits, hb, hk, hn, hle]

theorem Engine.cnt_moved_le {k : Nat} (hn : x.cnt < x.req) (hk : k ≤ x.left) : (x.moved k).cnt ≤ (x.moved k).req := by
  have hr := x.req.isLt
  simp only [Engine.left] at hk
  simp only [BitVec.lt_def] at hn
  simp only [Engine.moved, BitVec.le_def, BitVec.toNat_add, BitVec.toNat_ofNat]
  omega

theorem EngineFits.moved {k : Nat} (hb : busy) (hkind : x.kind = .kNone) (hn : x.cnt < x.req) (hk : k ≤ x.left) :
    EngineFits busy (x.moved k) := by
  have hle := Engine.cnt_moved_le hn hk
  simp only [Engine.moved] at hle
  simp [EngineFits, Engine.moved, hb, hkind, hle]

/-- A unit in no stage has its engine done. -/
theorem EngineFits.done (h : EngineFits busy x) (hb : ¬ busy) : x.ph = .done := by
  obtain ⟨-, hcheck, hwait, hatt, -, -, -⟩ := h
  cases hph : x.ph with
  | check => exact absurd (hcheck hph).1 hb
  | wait => exact absurd (hwait hph).1 hb
  | att => exact absurd (hatt hph).1 hb
  | done => rfl

/-- A stage that has ended may be left. -/
theorem EngineFits.leave (h : EngineFits busy x) (hd : x.ph = .done) (hb : ¬ busy') : EngineFits busy' x := by
  obtain ⟨hle, -, -, -, -, hcomplete, hshort⟩ := h
  simp only [EngineFits, hd, hb]
  exact ⟨hle, nofun, nofun, nofun, nofun, hcomplete, hshort⟩

theorem EngineFits.kind_of_check (h : EngineFits busy x) (hph : x.ph = .check) : busy ∧ x.kind = .kNone := by
  obtain ⟨-, hcheck, -⟩ := h
  exact hcheck hph

theorem EngineFits.open_of_wait (h : EngineFits busy x) (hph : x.ph = .wait) :
    busy ∧ x.kind = .kNone ∧ x.cnt < x.req := by
  obtain ⟨-, -, hwait, -⟩ := h
  exact hwait hph

theorem EngineFits.open_of_att (h : EngineFits busy x) (hph : x.ph = .att) :
    busy ∧ x.kind = .kNone ∧ x.cnt < x.req := by
  obtain ⟨-, -, -, hatt, -⟩ := h
  exact hatt hph

theorem EngineFits.reset : EngineFits busy Engine.reset ↔ ¬ busy := by
  simp [EngineFits, Engine.reset]

end

/-! ## WR -/

/-- What `WriterFits` says of engine WX and its offer. -/
structure TxFits (busy : Prop) (x : Engine) (offer : List Byte) : Prop where
  fits : EngineFits busy x
  noWait : x.ph ≠ .wait
  noPartial : x.kind ≠ .kPartial
  offered : x.ph = .att → offer.length = x.left

/-- What `WriterFits` says of WR's phase, FATAL and the registers of the stage. -/
structure SendStageFits (fatal : Bool) (w : Writer) : Prop where
  halted : fatal = true ↔ w.ph = .halt
  flagByte : w.ph ≠ .idle → w.fb = w.flagIn.setWidth 8
  flagStage : w.ph = .flag → w.wx.req = 1#32 ∧ w.flagIn ≠ 0#32
  length : w.ph = .len ∨ w.ph = .pay → w.tlen.toNat ≤ 4294967295 ∧ w.lenbuf = encBytes (w.tlen.setWidth 32)
  lengthStage : w.ph = .len → w.wx.req = 4#32
  payloadStage : w.ph = .pay → w.wx.req = w.tlen.setWidth 32

theorem writerFits_iff :
    WriterFits s ↔ TxFits (writerMoving s) s.w.wx s.env.offer ∧ SendStageFits s.fatal s.w :=
  ⟨fun ⟨hfits, hhalt, hwait, hpartial, hoffer, hfb, hflag, hlen, hlreq, hpreq⟩ =>
    ⟨⟨hfits, hwait, hpartial, hoffer⟩, ⟨hhalt, hfb, hflag, hlen, hlreq, hpreq⟩⟩,
  fun ⟨x, p⟩ => ⟨x.fits, p.halted, x.noWait, x.noPartial, x.offered, p.flagByte, p.flagStage, p.length, p.lengthStage,
    p.payloadStage⟩⟩

section
variable {busy busy' : Prop} {x : Engine} {offer : List Byte}

theorem TxFits.start (hb : busy) (x : Engine) (n : Len) (offer : List Byte) : TxFits busy (x.start n) offer :=
  ⟨.start hb x n, nofun, nofun, nofun⟩

theorem TxFits.complete (hn : x.cnt = x.req) : TxFits busy (x.finish .kComplete) offer :=
  ⟨.complete hn, nofun, nofun, nofun⟩

theorem TxFits.offers {bytes : List Byte} (h : TxFits busy x offer) (hph : x.ph = .check) (hn : x.cnt < x.req)
    (hlen : bytes.length = x.left) : TxFits busy { x with ph := .att } bytes := by
  obtain ⟨hb, hk⟩ := h.fits.kind_of_check hph
  exact ⟨.goesOn hb hk hn (.inr rfl), nofun, h.noPartial, fun _ => hlen⟩

theorem TxFits.leave (h : TxFits busy x offer) (hd : x.ph = .done) (hb : ¬ busy') : TxFits busy' x offer :=
  ⟨h.fits.leave hd hb, h.noWait, h.noPartial, h.offered⟩

end

/-- A step of the engine's own keeps the count asked for, and with it what the stage fixes. -/
theorem SendStageFits.of_engine {fatal : Bool} {w : Writer} (p : SendStageFits fatal w) {x : Engine}
    (hreq : x.req = w.wx.req) : SendStageFits fatal { w with wx := x } := by
  obtain ⟨hhalt, hfb, hflag, hlen, hlreq, hpreq⟩ := p
  rw [← hreq] at hflag hlreq hpreq
  exact ⟨hhalt, hfb, hflag, hlen, hlreq, hpreq⟩

theorem SendStageFits.idle {w : Writer} (hw : w.ph = .idle) : SendStageFits false w := by
  constructor <;> simp [hw]

theorem not_writerMoving (hw : s.w.ph = .idle ∨ s.w.ph = .chk ∨ s.w.ph = .halt) : ¬ writerMoving s := by
  obtain hw | hw | hw := hw <;> simp [writerMoving, hw]

/-- An offer has all the bytes that the stage still lacks. -/
theorem txSource_length {bytes : List Byte} (p : SendStageFits s.fatal s.w) (hm : writerMoving s)
    (hb : txSource s = some bytes) : bytes.length = s.w.wx.left := by
  obtain hw | hw | hw := hm <;> simp only [txSource, hw, Option.some.injEq] at hb
  · subst hb
    simp [Engine.left, (p.flagStage hw).1]
  · subst hb
    simp [Engine.left, p.lengthStage hw, Be4.length_toList]
  · exact (readRun_eq_some_iff.1 hb).1

theorem writerFits_of_reset (hw : s.w = Writer.reset) (hf : s.fatal = false) : WriterFits s := by
  have hidle : s.w.ph = .idle := by rw [hw]; rfl
  refine writerFits_iff.2 ⟨?_, ?_⟩
  · rw [hw]
    exact ⟨EngineFits.reset.2 (not_writerMoving (.inl hidle)), nofun, nofun, nofun⟩
  · rw [hf]
    exact .idle hidle

theorem TxAnswered.keeps_fits {a : TxAnswer} (h : TxAnswered s a t) (hatt : s.w.wx.ph = .att) (hs : WriterFits s) :
    WriterFits t := by
  obtain ⟨x, p⟩ := writerFits_iff.1 hs
  obtain ⟨hb, hk, hn⟩ := x.fits.open_of_att hatt
  refine writerFits_iff.2 ?_
  cases h with
  | failed c => exact ⟨⟨.short c hn (.inr (.inr rfl)), nofun, nofun, nofun⟩, p.of_engine rfl⟩
  | closed => exact ⟨⟨.short _ hn (.inr (.inl rfl)), nofun, nofun, nofun⟩, p.of_engine rfl⟩
  | moved k _ hl => exact ⟨⟨.moved hb hk hn hl, nofun, x.noPartial, nofun⟩, p.of_engine rfl⟩

theorem acceptSend_fits (flag : FlagIn) (len : LenIn) (base : Handle) (hf : s.fatal = false) (hd : s.w.wx.ph = .done)
    (hs : WriterFits s) : WriterFits (acceptSend flag len base s) := by
  obtain ⟨x, p⟩ := writerFits_iff.1 hs
  refine writerFits_iff.2 ?_
  unfold acceptSend
  split
  · next hflag =>
    have hne : flag ≠ 0#32 := by simpa [Machine.flagSent] using hflag
    refine ⟨.start (.inl rfl) _ _ _, ?_⟩
    constructor <;> simp [Engine.start, hf, hne]
  · refine ⟨x.leave hd (not_writerMoving (.inr (.inl rfl))), ?_⟩
    constructor <;> simp [hf]

theorem WriterStepped.keeps_fits (h : WriterStepped s t) (hf : s.fatal = false) (hs : WriterFits s) : WriterFits t := by
  obtain ⟨x, p⟩ := writerFits_iff.1 hs
  have hfb : s.w.ph ≠ .idle → s.w.fb = s.w.flagIn.setWidth 8 := p.flagByte
  cases h with
  | idle | halted | waits | overrun => exact hs
  | sends word rest flag len base hw =>
    exact acceptSend_fits flag len base hf (x.fits.done (not_writerMoving (.inl hw))) hs
  | rejects => exact hs
  | completes _ _ hn => exact writerFits_iff.2 ⟨.complete hn, p.of_engine rfl⟩
  | offers bytes hm hph hn hb =>
    exact writerFits_iff.2 ⟨x.offers hph hn (txSource_length p hm hb), p.of_engine rfl⟩
  | flagSent hw hd =>
    refine writerFits_iff.2 ⟨x.leave hd (not_writerMoving (.inr (.inl rfl))), ?_⟩
    constructor <;> simp [hf, hfb, hw]
  | oversized hw =>
    have hd : s.w.wx.ph = .done := x.fits.done (not_writerMoving (.inr (.inl hw)))
    refine writerFits_iff.2 ⟨x.leave hd (not_writerMoving (.inr (.inr rfl))), ?_⟩
    constructor <;> simp [fatalStop_eq, hfb, hw]
  | encodes hw hl =>
    refine writerFits_iff.2 ⟨.start (.inr (.inl rfl)) _ _ _, ?_⟩
    constructor <;> simp [Engine.start, hf, hfb, hw, hl]
  | lengthSent hw =>
    refine writerFits_iff.2 ⟨.start (.inr (.inr rfl)) _ _ _, ?_⟩
    constructor <;> simp [Engine.start, hf, hfb, hw, p.length (.inl hw)]
  | payloadSent _ hd =>
    refine writerFits_iff.2 ⟨x.leave hd (not_writerMoving (.inl rfl)), ?_⟩
    rw [hf]
    exact .idle rfl
  | fails stage exp hd =>
    rw [fail_wr_eq]
    refine writerFits_iff.2 ⟨x.leave hd (not_writerMoving (.inl rfl)), ?_⟩
    rw [hf]
    exact .idle rfl

theorem handle_keeps_writerFits (hs : WriterFits s) (h : handle e s = .next t) : WriterFits t := by
  cases handle_writerHandled h with
  | steps _ hf hw => exact hw.keeps_fits hf hs
  | answered _ _ hatt ha => exact ha.keeps_fits hatt hs
  | resets => exact writerFits_of_reset rfl rfl
  | untouched _ _ hw hf ho =>
    rw [writerFits_iff, writerMoving, hw, hf, ho]
    exact writerFits_iff.1 hs

/-- Settles O52: each way WR can go keeps the engine and the stage in fit, and no other event touches either. -/
theorem stepKeepsWriterFits : Obligations.StepKeepsWriterFits := by
  unfold Obligations.StepKeepsWriterFits
  intro s t
  exact step_keeps (P := WriterFits) (fun _ _ _ hs => hs) fun _ _ _ hs h => handle_keeps_writerFits hs h

/-! ## RD -/

/-- The bytes of a decoded length are the bytes it was decoded from (R80, R81). -/
theorem encBytes_decBytes (b : Be4) : encBytes (decBytes b) = b := by
  obtain ⟨h0, h1, h2, h3⟩ := encBytes_toNat (decBytes b)
  rw [decBytes_toNat] at h0 h1 h2 h3
  have l0 := b.b0.isLt
  have l1 := b.b1.isLt
  have l2 := b.b2.isLt
  have l3 := b.b3.isLt
  have e0 : (encBytes (decBytes b)).b0 = b.b0 := BitVec.eq_of_toNat_eq (by omega)
  have e1 : (encBytes (decBytes b)).b1 = b.b1 := BitVec.eq_of_toNat_eq (by omega)
  have e2 : (encBytes (decBytes b)).b2 = b.b2 := BitVec.eq_of_toNat_eq (by omega)
  have e3 : (encBytes (decBytes b)).b3 = b.b3 := BitVec.eq_of_toNat_eq (by omega)
  exact (Be4.mk.injEq ..).mpr ⟨e0, e1, e2, e3⟩

/-- Bytes written behind element 0 leave it. -/
theorem Be4.setRun_b0 {b : Be4} {i : Nat} {d : List Byte} (hi : 1 ≤ i) (hd : i + d.length ≤ 4) :
    (Be4.setRun b i d).b0 = b.b0 := by
  have h := Be4.setRun_getElem? d b i 0 hd
  rw [if_neg (by omega)] at h
  simpa [Be4.toList] using h

/-- What `ReaderFits` says of engine RX and the timer. -/
structure RxFits (busy : Prop) (x : Engine) (tmr : Nat) : Prop where
  fits : EngineFits busy x
  waiting : x.ph = .wait → tmr < Config.rxTimeoutTicks
  bounded : tmr ≤ Config.rxTimeoutTicks

/-- R64: the flag and the first length byte fit the header's format. -/
def HeaderFits (zf : Bool) (flag : Byte) (b : Be4) : Prop :=
  (zf = true → flag = 0#8 ∧ b.b0 = 0#8) ∧ (zf = false → flag ≠ 0#8)

/-- A complete header stands in the staging registers as it stood (R133). -/
theorem HeaderFits.staged {zf : Bool} {flag : Byte} {b : Be4} (h : HeaderFits zf flag b) :
    HeaderFits zf (if zf then 0#8 else flag) (encBytes (decBytes b)) := by
  rw [encBytes_decBytes]
  cases zf with
  | true => exact ⟨fun hz => ⟨rfl, (h.1 hz).2⟩, nofun⟩
  | false => exact h

/-- Of a zero-flag header the bytes still to come go behind element 0 (R107). -/
theorem HeaderFits.sinks {zf : Bool} {flag : Byte} {b : Be4} (h : HeaderFits zf flag b) {i : Nat} {d : List Byte}
    (hd : i + zf.toNat + d.length ≤ 4) : HeaderFits zf flag (Be4.setRun b (i + zf.toNat) d) := by
  cases zf with
  | true =>
    obtain ⟨hflag, hb⟩ := h.1 rfl
    exact ⟨fun _ => ⟨hflag, (Be4.setRun_b0 (Nat.le_add_left 1 i) hd).trans hb⟩, nofun⟩
  | false => exact ⟨nofun, h.2⟩

/-- What `ReaderFits` says of RD's phase and the registers of the stage. -/
structure ReceiveStageFits (r : Reader) : Prop where
  first : r.ph = .first → r.rx.req = 1#32
  lengthStage : r.ph = .len → r.rx.req = if r.zf then 3#32 else 4#32
  header : r.ph = .len ∨ r.ph = .alloc ∨ r.ph = .pay → HeaderFits r.zf r.flag r.lenbuf
  length : r.ph = .alloc ∨ r.ph = .pay → r.len32 = decBytes r.lenbuf
  payloadStage : r.ph = .pay → r.rx.req = r.len32

theorem readerFits_iff : ReaderFits s ↔ RxFits (readerMoving s) s.r.rx s.r.tmr ∧ ReceiveStageFits s.r :=
  ⟨fun ⟨hfits, hfirst, hlreq, hheader, hlen, hpreq, hwait, hbound⟩ =>
    ⟨⟨hfits, hwait, hbound⟩, ⟨hfirst, hlreq, hheader, hlen, hpreq⟩⟩,
  fun ⟨x, p⟩ => ⟨x.fits, p.first, p.lengthStage, p.header, p.length, p.payloadStage, x.waiting, x.bounded⟩⟩

section
variable {busy busy' : Prop} {x : Engine} {tmr : Nat}

theorem RxFits.start (h : RxFits busy x tmr) (hb : busy') (n : Len) : RxFits busy' (x.start n) tmr :=
  ⟨.start hb x n, nofun, h.bounded⟩

theorem RxFits.complete (h : RxFits busy x tmr) (hn : x.cnt = x.req) : RxFits busy (x.finish .kComplete) tmr :=
  ⟨.complete hn, nofun, h.bounded⟩

theorem RxFits.arms (h : RxFits busy x tmr) (hph : x.ph = .check) (hn : x.cnt < x.req) :
    RxFits busy { x with ph := .wait } 0 := by
  obtain ⟨hb, hk⟩ := h.fits.kind_of_check hph
  exact ⟨.goesOn hb hk hn (.inl rfl), fun _ => Nat.succ_pos _, Nat.zero_le _⟩

theorem RxFits.asks (h : RxFits busy x tmr) (hph : x.ph = .wait) : RxFits busy { x with ph := .att } tmr := by
  obtain ⟨hb, hk, hn⟩ := h.fits.open_of_wait hph
  exact ⟨.goesOn hb hk hn (.inr rfl), nofun, h.bounded⟩

theorem RxFits.ticks (h : RxFits busy x tmr) (ht : tmr + 1 < Config.rxTimeoutTicks) : RxFits busy x (tmr + 1) :=
  ⟨h.fits, fun _ => ht, ht.le⟩

theorem RxFits.expires (h : RxFits busy x tmr) (hph : x.ph = .wait) :
    RxFits busy (x.finish .kPartial) Config.rxTimeoutTicks := by
  obtain ⟨-, -, hn⟩ := h.fits.open_of_wait hph
  exact ⟨.short _ hn (.inl rfl), nofun, le_rfl⟩

theorem RxFits.leave (h : RxFits busy x tmr) (hd : x.ph = .done) (hb : ¬ busy') : RxFits busy' x tmr :=
  ⟨h.fits.leave hd hb, h.waiting, h.bounded⟩

end

theorem ReceiveStageFits.of_engine {r : Reader} (p : ReceiveStageFits r) {x : Engine} (tmr : Nat)
    (hreq : x.req = r.rx.req) : ReceiveStageFits { r with rx := x, tmr := tmr } := by
  obtain ⟨hfirst, hlreq, hheader, hlen, hpreq⟩ := p
  rw [← hreq] at hfirst hlreq hpreq
  exact ⟨hfirst, hlreq, hheader, hlen, hpreq⟩

theorem ReceiveStageFits.idle {r : Reader} (hr : r.ph = .idle) : ReceiveStageFits r := by
  constructor <;> simp [hr]

theorem not_readerMoving (hr : s.r.ph = .idle ∨ s.r.ph = .alloc) : ¬ readerMoving s := by
  obtain hr | hr := hr <;> simp [readerMoving, hr]

theorem readerFits_of_reset (hr : s.r = Reader.reset) : ReaderFits s := by
  have hidle : s.r.ph = .idle := by rw [hr]; rfl
  refine readerFits_iff.2 ⟨?_, .idle hidle⟩
  rw [hr]
  exact ⟨EngineFits.reset.2 (not_readerMoving (.inl hidle)), nofun, Nat.zero_le _⟩

/-- A command that ends with its engine done leaves RD idle and in fit. -/
theorem ReaderFits.ends (hs : ReaderFits s) (hd : s.r.rx.ph = .done) (hrx : t.r.rx = s.r.rx) (htmr : t.r.tmr = s.r.tmr)
    (hr : t.r.ph = .idle) : ReaderFits t := by
  refine readerFits_iff.2 ⟨?_, .idle hr⟩
  rw [hrx, htmr]
  exact (readerFits_iff.1 hs).1.leave hd (not_readerMoving (.inl hr))

theorem ReaderStepped.keeps_fits (h : ReaderStepped s t) (hs : ReaderFits s) : ReaderFits t := by
  obtain ⟨x, p⟩ := readerFits_iff.1 hs
  cases h with
  | idle | allocating | waits | overrun | rejects | releases | releasesNothing => exact hs
  | receives =>
    refine readerFits_iff.2 ⟨x.start (.inl rfl) _, ?_⟩
    constructor <;> simp [acceptRecv, Engine.start]
  | completes _ _ hn => exact readerFits_iff.2 ⟨x.complete hn, p.of_engine _ rfl⟩
  | arms _ hph hn => exact readerFits_iff.2 ⟨x.arms hph hn, p.of_engine _ rfl⟩
  | asks _ hph => exact readerFits_iff.2 ⟨x.asks hph, p.of_engine _ rfl⟩
  | zeroByte =>
    refine readerFits_iff.2 ⟨x.start (.inr (.inl rfl)) _, ?_⟩
    constructor <;> simp [Engine.start, HeaderFits]
  | flagByte _ _ _ hb =>
    refine readerFits_iff.2 ⟨x.start (.inr (.inl rfl)) _, ?_⟩
    constructor <;> simp [Engine.start, HeaderFits, hb]
  | allocates hr hd =>
    refine readerFits_iff.2 ⟨x.leave hd (not_readerMoving (.inr rfl)), ?_⟩
    constructor <;> simp [(p.header (.inl hr)).staged]
  | full _ hd | received _ hd => exact hs.ends hd rfl rfl rfl
  | fails _ _ hd | frees _ hd =>
    rw [fail_rd_eq]
    exact hs.ends hd rfl rfl rfl

theorem RxAnswered.keeps_fits {a : RxAnswer} (h : RxAnswered s a t) (hatt : s.r.rx.ph = .att) (hs : ReaderFits s) :
    ReaderFits t := by
  obtain ⟨x, p⟩ := readerFits_iff.1 hs
  obtain ⟨hb, hk, hn⟩ := x.fits.open_of_att hatt
  cases h with
  | failed c => exact readerFits_iff.2 ⟨⟨.short c hn (.inr (.inr rfl)), nofun, x.bounded⟩, p.of_engine _ rfl⟩
  | closed => exact readerFits_iff.2 ⟨⟨.short _ hn (.inr (.inl rfl)), nofun, x.bounded⟩, p.of_engine _ rfl⟩
  | moved k u _ hl hw hu =>
    have hx : RxFits (readerMoving s) (s.r.rx.moved k) s.r.tmr := ⟨.moved hb hk hn hl, nofun, x.bounded⟩
    cases hu with
    | payload | nowhere => exact readerFits_iff.2 ⟨hx, p.of_engine _ rfl⟩
    | first hr =>
      refine readerFits_iff.2 ⟨hx, ?_⟩
      constructor <;> simp [hr, Engine.moved, p.first hr]
    | length hr =>
      have hfour : s.r.rx.cnt.toNat + s.r.zf.toNat + (s.env.wireRx.take k).length ≤ 4 := by
        have hreq : s.r.rx.req.toNat + s.r.zf.toNat = 4 := by
          rw [p.lengthStage hr]
          cases s.r.zf <;> rfl
        have hlen := List.length_take_le k s.env.wireRx
        have hcnt : s.r.rx.cnt.toNat < s.r.rx.req.toNat := hn
        rw [Engine.left] at hl
        omega
      refine readerFits_iff.2 ⟨hx, ?_⟩
      constructor <;> simp [hr, Engine.moved, p.lengthStage hr, (p.header (.inl hr)).sinks hfour]

theorem AllocAnswered.keeps_fits {a : AllocAnswer} (h : AllocAnswered s a t) (hr : s.r.ph = .alloc) (hs : ReaderFits s) :
    ReaderFits t := by
  obtain ⟨x, p⟩ := readerFits_iff.1 hs
  cases h with
  | noMem => exact hs.ends (x.fits.done (not_readerMoving (.inr hr))) rfl rfl rfl
  | ok h =>
    refine readerFits_iff.2 ⟨x.start (.inr (.inr rfl)) _, ?_⟩
    constructor <;> simp [Engine.start, p.header (.inr (.inl hr)), p.length (.inl hr)]

theorem handle_keeps_readerFits (hs : ReaderFits s) (h : handle e s = .next t) : ReaderFits t := by
  obtain ⟨x, p⟩ := readerFits_iff.1 hs
  cases handle_readerHandled h with
  | steps _ hr => exact hr.keeps_fits hs
  | answered _ _ hatt ha => exact ha.keeps_fits hatt hs
  | allocAnswered _ _ hr ha => exact ha.keeps_fits hr hs
  | ticks _ hlt => exact readerFits_iff.2 ⟨x.ticks hlt, p.of_engine _ rfl⟩
  | expires hwait => exact readerFits_iff.2 ⟨x.expires hwait, p.of_engine _ rfl⟩
  | resets => exact readerFits_of_reset rfl
  | untouched _ _ hr =>
    rw [readerFits_iff, readerMoving, hr]
    exact readerFits_iff.1 hs

/-- Settles O53: each way RD can go keeps the engine and the stage in fit, and no other event touches either. -/
theorem stepKeepsReaderFits : Obligations.StepKeepsReaderFits := by
  unfold Obligations.StepKeepsReaderFits
  intro s t
  exact step_keeps (P := ReaderFits) (fun _ _ _ hs => hs) fun _ _ _ hs h => handle_keeps_readerFits hs h

end Sys2Proof.Machine
end

section
/-! PROOF. Storage stays owned, and LIVE within its capacity, after every step (R14, R24, R47, R48, R133): O50 and O51; and the
invariants hold after reset: O48.

The idea: `StorageOwned` says that the live tokens are stored (`LiveStored`, about LIVE and the pool alone, which each operation on
the two keeps) and that the reader's buffer is owned (`BufferOwned`, which outside R_PAY says no more than R_HV = 0). -/

namespace Sys2Proof.Machine

variable {e : Event} {s t : State}

/-! ## Live tokens and the pool -/

/-- LIVE is a set of handles, each with storage in a pool that names no handle twice. -/
structure LiveStored (live : List Handle) (pool : List (Handle × Nat)) : Prop where
  nodup : live.Nodup
  poolNodup : (pool.map Prod.fst).Nodup
  stored : ∀ h ∈ live, (poolSize pool h).isSome = true

section
variable {live : List Handle} {pool : List (Handle × Nat)} {g : Handle}

theorem ne_of_poolSize_none {h : Handle} (hg : poolSize pool g = none) (hh : (poolSize pool h).isSome = true) : g ≠ h := by
  rintro rfl
  simp [hg] at hh

theorem poolNodup_filter (q : Handle × Nat → Bool) (hp : (pool.map Prod.fst).Nodup) :
    ((pool.filter q).map Prod.fst).Nodup :=
  hp.sublist (List.filter_sublist.map _)

theorem LiveStored.nil (hp : (pool.map Prod.fst).Nodup) : LiveStored [] pool := ⟨List.nodup_nil, hp, nofun⟩

/-- Storage that no live token names may go. -/
theorem LiveStored.filter (l : LiveStored live pool) {q : Handle × Nat → Bool} (hq : ∀ h ∈ live, ∀ n, q (h, n) = true) :
    LiveStored live (pool.filter q) := by
  refine ⟨l.nodup, poolNodup_filter q l.poolNodup, fun h hh => ?_⟩
  rw [poolSize_filter pool (hq h hh)]
  exact l.stored h hh

theorem LiveStored.free (l : LiveStored live pool) (hg : g ∉ live) : LiveStored live (poolFree pool g) :=
  l.filter fun _ hh _ => bne_iff_ne.2 (ne_of_mem_of_not_mem hh hg)

theorem LiveStored.erase (l : LiveStored live pool) (g : Handle) : LiveStored (liveErase live g) pool :=
  ⟨l.nodup.filter _, l.poolNodup, fun h hh => l.stored h (List.mem_of_mem_filter hh)⟩

theorem not_mem_liveErase (live : List Handle) (g : Handle) : g ∉ liveErase live g := by
  simp [liveErase]

theorem LiveStored.alloc (l : LiveStored live pool) (n : Nat) (hg : poolSize pool g = none) :
    LiveStored live ((g, n) :: pool) := by
  refine ⟨l.nodup, List.nodup_cons.2 ⟨(poolSize_eq_none_iff pool g).1 hg, l.poolNodup⟩, fun h hh => ?_⟩
  rw [poolSize_cons_other n pool (ne_of_poolSize_none hg (l.stored h hh))]
  exact l.stored h hh

theorem LiveStored.insert (l : LiveStored live pool) (hl : g ∉ live) (hg : (poolSize pool g).isSome = true) :
    LiveStored (liveInsert live g) pool := by
  rw [liveInsert, if_neg hl]
  refine ⟨List.concat_eq_append ▸ l.nodup.concat hl, l.poolNodup, fun h hh => ?_⟩
  obtain hh | hh := List.mem_append.1 hh
  · exact l.stored h hh
  · rwa [List.mem_singleton.1 hh]

end

/-! ## The reader's buffer -/

/-- RD holds a buffer exactly in R_PAY: allocated at max(R_LEN32, 1) bytes, and not live. -/
structure BufferOwned (live : List Handle) (pool : List (Handle × Nat)) (r : Reader) : Prop where
  held : r.hv = true ↔ r.ph = .pay
  buffer : r.ph = .pay → poolSize pool r.h = some (allocSize r.len32).toNat ∧ r.h ∉ live

theorem storageOwned_iff :
    StorageOwned s ↔ LiveStored s.live s.env.pool ∧ BufferOwned s.live s.env.pool s.r :=
  ⟨fun ⟨hlive, hpool, hstored, hheld, hbuffer⟩ => ⟨⟨hlive, hpool, hstored⟩, ⟨hheld, hbuffer⟩⟩,
  fun ⟨l, b⟩ => ⟨l.nodup, l.poolNodup, l.stored, b.held, b.buffer⟩⟩

section
variable {live : List Handle} {pool pool' : List (Handle × Nat)} {r : Reader}

theorem BufferOwned.hv_false (b : BufferOwned live pool r) (hr : r.ph ≠ .pay) : r.hv = false := by
  simpa using mt b.held.1 hr

theorem BufferOwned.of_not_pay (hv : r.hv = false) (hr : r.ph ≠ .pay) : BufferOwned live pool r :=
  ⟨by simp [hv, hr], fun h => absurd h hr⟩

/-- A pool in which the buffer has the same size serves as well. -/
theorem BufferOwned.of_poolSize (b : BufferOwned live pool r)
    (hp : r.ph = .pay → poolSize pool' r.h = poolSize pool r.h) : BufferOwned live pool' r :=
  ⟨b.held, fun hr => ⟨(hp hr).trans (b.buffer hr).1, (b.buffer hr).2⟩⟩

end

/-! ## Every event keeps storage owned -/

/-- Outside R_PAY nothing but the live tokens' storage is owned. -/
theorem storageOwned_of_not_pay (l : LiveStored t.live t.env.pool) (hv : t.r.hv = false) (hr : t.r.ph ≠ .pay) :
    StorageOwned t :=
  storageOwned_iff.2 ⟨l, .of_not_pay hv hr⟩

theorem ReaderStepped.keeps_owned (h : ReaderStepped s t) (hs : StorageOwned s) : StorageOwned t := by
  obtain ⟨l, b⟩ := storageOwned_iff.1 hs
  cases h with
  | idle | allocating | waits | overrun | rejects | releasesNothing | completes | arms | asks => exact hs
  | receives => exact storageOwned_of_not_pay l rfl nofun
  | releases _ _ h hr =>
    have hph : s.r.ph ≠ .pay := by simp [hr]
    exact storageOwned_of_not_pay ((l.erase h).free (not_mem_liveErase _ h)) (b.hv_false hph) hph
  | zeroByte hr | flagByte hr | full hr | allocates hr =>
    exact storageOwned_of_not_pay l (b.hv_false (by simp [hr])) nofun
  | received hr =>
    obtain ⟨hp, hl⟩ := b.buffer hr
    exact storageOwned_of_not_pay (l.insert hl (by simp [hp])) rfl nofun
  | fails _ _ _ _ hstage =>
    have hph : s.r.ph ≠ .pay := by obtain ⟨hr, -⟩ | ⟨hr, -⟩ := hstage <;> simp [hr]
    rw [fail_rd_eq]
    exact storageOwned_of_not_pay l (b.hv_false hph) nofun
  | frees hr =>
    rw [fail_rd_eq]
    exact storageOwned_of_not_pay (l.free (b.buffer hr).2) rfl nofun

theorem RxAnswered.keeps_owned {a : RxAnswer} (h : RxAnswered s a t) (hs : StorageOwned s) : StorageOwned t := by
  cases h with
  | moved k u _ _ _ hu => cases hu <;> exact hs
  | _ => exact hs

theorem AllocAnswered.keeps_owned {a : AllocAnswer} (h : AllocAnswered s a t) (hr : s.r.ph = .alloc)
    (hs : StorageOwned s) : StorageOwned t := by
  obtain ⟨l, b⟩ := storageOwned_iff.1 hs
  cases h with
  | noMem => exact storageOwned_of_not_pay l (b.hv_false (by simp [hr])) nofun
  | ok h hp hl => exact storageOwned_iff.2 ⟨l.alloc _ hp, by simp, fun _ => ⟨if_pos rfl, hl⟩⟩

/-- New storage is not the buffer's, and a reclaim leaves what RD holds. -/
theorem EnvStepped.keeps_owned (h : EnvStepped s e t) (hs : StorageOwned s) : StorageOwned t := by
  obtain ⟨l, b⟩ := storageOwned_iff.1 hs
  cases h with
  | late i a t ht =>
    cases ht with
    | allocated n h _ hp =>
      refine storageOwned_iff.2 ⟨l.alloc n hp, b.of_poolSize fun hr => ?_⟩
      exact poolSize_cons_other n _ (ne_of_poolSize_none hp (by simp [(b.buffer hr).1]))
    | _ => exact hs
  | reclaims =>
    refine storageOwned_iff.2 ⟨l.filter fun h hh _ => heldHandle_of_live hh, b.of_poolSize fun hr => ?_⟩
    exact poolSize_reclaimPool (by simp [heldHandle, b.held.2 hr])
  | _ => exact hs

theorem handle_keeps_storageOwned (hs : StorageOwned s) (h : handle e s = .next t) : StorageOwned t := by
  obtain ⟨l, b⟩ := storageOwned_iff.1 hs
  cases handle_readerHandled h with
  | steps _ hr => exact hr.keeps_owned hs
  | answered _ _ _ ha => exact ha.keeps_owned hs
  | allocAnswered _ _ hr ha => exact ha.keeps_owned hr hs
  | ticks | expires => exact hs
  | resets => exact storageOwned_of_not_pay (.nil l.poolNodup) rfl nofun
  | untouched _ _ hr hlive hpool =>
    obtain hpool | henv := hpool
    · rw [storageOwned_iff, hr, hlive, hpool]
      exact ⟨l, b⟩
    · exact henv.keeps_owned hs

/-- Settles O50: each way RD can go, and each event that changes the pool, keeps the live tokens and the buffer owned. -/
theorem stepKeepsStorageOwned : Obligations.StepKeepsStorageOwned := by
  unfold Obligations.StepKeepsStorageOwned
  intro s t
  exact step_keeps (P := StorageOwned) (fun _ _ _ hs => hs) fun _ _ _ hs h => handle_keeps_storageOwned hs h

/-! ## LIVE within its capacity -/

/-- RD is going to add a member to LIVE. -/
def reserving (s : State) : Prop := s.r.ph = .alloc ∨ s.r.ph = .pay

/-- LIVE no longer than before stays within, if RD has not begun to reserve a place there. -/
theorem WithinCapacity.of_le (hs : WithinCapacity s) (hl : t.live.length ≤ s.live.length)
    (hr : reserving t → reserving s) : WithinCapacity t := fun m hm =>
  ⟨hl.trans (hs m hm).1, fun h => hl.trans_lt ((hs m hm).2 (hr h))⟩

theorem length_liveErase_le (live : List Handle) (h : Handle) : (liveErase live h).length ≤ live.length :=
  List.length_filter_le _ _

theorem length_liveInsert_le (live : List Handle) (h : Handle) : (liveInsert live h).length ≤ live.length + 1 := by
  unfold liveInsert
  split <;> simp

theorem withinCapacity_of_live_nil (hl : s.live = []) (hr : ¬ reserving s) : WithinCapacity s := fun _ _ =>
  ⟨by simp [hl], fun h => absurd h hr⟩

/-- RD reserves a place only where LIVE has one, and takes no more than the place it reserved. -/
theorem ReaderStepped.keeps_capacity (h : ReaderStepped s t) (hs : WithinCapacity s) : WithinCapacity t := by
  cases h with
  | idle | allocating | waits | overrun | rejects | releasesNothing | completes | arms | asks => exact hs
  | receives | zeroByte | flagByte | full => exact hs.of_le le_rfl (by simp [reserving, acceptRecv, allocFail_eq])
  | releases _ _ h => exact hs.of_le (length_liveErase_le _ h) id
  | allocates _ _ _ hf =>
    intro m hm
    have hroom : s.live.length ≠ m := by
      rintro rfl
      exact hf hm
    exact ⟨(hs m hm).1, fun _ => lt_of_le_of_ne (hs m hm).1 hroom⟩
  | received hr =>
    intro m hm
    exact ⟨(length_liveInsert_le _ _).trans ((hs m hm).2 (.inr hr)), nofun⟩
  | fails | frees =>
    rw [fail_rd_eq]
    exact hs.of_le le_rfl (by simp [reserving])

theorem RxAnswered.keeps_capacity {a : RxAnswer} (h : RxAnswered s a t) (hs : WithinCapacity s) : WithinCapacity t := by
  cases h with
  | moved k u _ _ _ hu => cases hu <;> exact hs
  | _ => exact hs

theorem AllocAnswered.keeps_capacity {a : AllocAnswer} (h : AllocAnswered s a t) (hr : s.r.ph = .alloc)
    (hs : WithinCapacity s) : WithinCapacity t := by
  cases h <;> exact hs.of_le le_rfl fun _ => .inl hr

theorem handle_keeps_capacity (hs : WithinCapacity s) (h : handle e s = .next t) : WithinCapacity t := by
  cases handle_readerHandled h with
  | steps _ hr => exact hr.keeps_capacity hs
  | answered _ _ _ ha => exact ha.keeps_capacity hs
  | allocAnswered _ _ hr ha => exact ha.keeps_capacity hr hs
  | ticks | expires => exact hs
  | resets => exact withinCapacity_of_live_nil rfl nofun
  | untouched _ _ hr hlive => exact hs.of_le (by rw [hlive]) (by rw [reserving, hr]; exact id)

/-- Settles O51: RD adds a member to LIVE only where it found room, and nothing else adds one. -/
theorem stepKeepsWithinCapacity : Obligations.StepKeepsWithinCapacity := by
  unfold Obligations.StepKeepsWithinCapacity
  intro s t
  exact step_keeps (P := WithinCapacity) (fun _ _ _ hs => hs) fun _ _ _ hs h => handle_keeps_capacity hs h

/-! ## After reset -/

/-- Settles O48: at power-on nothing is placed, stored or live, and both units are idle with their engines done. -/
theorem resetMeetsInvariants : Obligations.ResetMeetsInvariants := by
  unfold Obligations.ResetMeetsInvariants
  exact ⟨reset_memory_wf, storageOwned_of_not_pay (.nil List.nodup_nil) rfl nofun,
    withinCapacity_of_live_nil rfl nofun, writerFits_of_reset rfl rfl, readerFits_of_reset rfl⟩

end Sys2Proof.Machine
end

section
/-! PROOF. The byte spaces, the streams and the storage (R40 to R48, R154, R176): O36, O38, O46, O47, O49 and O54.

The idea: where an event can lead is said once for all events (`Handled`), and the statements about what an event changes take
those cases. The last statement is about the fault of a write: RXT's answer alone can raise it (the lemmas `fault_of_...` say who
raises which fault), and only for bytes beyond the buffer, while RD asks for no more than the buffer has room for. -/

namespace Sys2Proof.Machine

variable {e : Event} {s t : State}

/-! ## The event of a step -/

theorem takeEvent_of_script {rest : List Event} (h : s.env.script = e :: rest) :
    takeEvent s = (e, { s with env := { s.env with script := rest } }) := by
  simp [takeEvent, h]

theorem takeEvent_of_empty (h : s.env.script = []) :
    takeEvent s = (Config.freeEvent s.env.turn, { s with env := { s.env with turn := s.env.turn + 1 } }) := by
  simp [takeEvent, h]

/-- Settles O36: the event taken is the script's head, or else the turn's free event. -/
theorem stepTakesNextEvent : Obligations.StepTakesNextEvent := by
  unfold Obligations.StepTakesNextEvent
  refine ⟨fun s e rest h => ?_, fun s h => ?_⟩
  · rw [step, takeEvent_of_script h]
  · rw [step, takeEvent_of_empty h]

/-! ## The host's bytes -/

theorem storageHolds_iff {pool : List (Handle × Nat)} {h : Handle} {i k : Nat} :
    storageHolds pool h i k = true ↔ ∃ n, poolSize pool h = some n ∧ i + k ≤ n := by
  unfold storageHolds
  cases poolSize pool h <;> simp

theorem hostWrites_of_not_live {h : Handle} (hl : h ∉ s.live) (i : Len) (v : Byte) :
    hostWrites h i v s = .refused .storageNotTheHosts :=
  if_neg fun hc => hl hc.1

/-- Settles O38: a host's write is one `Memory.write`, guarded by ownership for received storage. -/
theorem hostWritesItsBytes : Obligations.HostWritesItsBytes := by
  unfold Obligations.HostWritesItsBytes
  refine ⟨fun h i v n s hl hp hi => ?_, fun h i v s hl => hostWrites_of_not_live hl i v, fun b i v s => ?_,
    fun i v s t hw ht => ?_⟩
  · have howns : h ∈ s.live ∧ storageHolds s.env.pool h i.toNat 1 = true := ⟨hl, storageHolds_iff.2 ⟨n, hp, hi⟩⟩
    exact ⟨_, hostWrites_eq_next.2 ⟨howns, rfl⟩, Memory.read_write_same _ _ _,
      fun a ha => Memory.read_write_other _ v ha.symm⟩
  · obtain ⟨older, heq⟩ := placeByte_eq b i v s
    exact ⟨_, older, congrArg Host.Outcome.next heq, Memory.read_write_same _ _ _,
      fun a ha => Memory.read_write_other _ v ha.symm⟩
  · cases ht
    exact ⟨mem_tokValues_placeByte hw i v, fun j hj =>
      tokValues_placeByte_other v fun hc => hj (cellAddr_inj hc).2.symm⟩

/-! ## What an event can do -/

/-- Where an event leads: an agent's step, an answer that is awaited, a tick, a reset, an act of the environment, or nowhere when
nothing awaits the answer. -/
inductive Handled (s : State) : Event → State → Prop
  | writes (t : State) (h : WriterStepped s t) : Handled s .wr t
  | txAnswered (a : TxAnswer) (t : State) (hatt : s.w.wx.ph = .att) (h : TxAnswered s a t) : Handled s (.txAnswer a) t
  | reads (t : State) (h : ReaderStepped s t) : Handled s .rd t
  | rxAnswered (a : RxAnswer) (t : State) (hatt : s.r.rx.ph = .att) (h : RxAnswered s a t) : Handled s (.rxAnswer a) t
  | allocAnswered (a : AllocAnswer) (t : State) (hr : s.r.ph = .alloc) (h : AllocAnswered s a t) :
      Handled s (.allocAnswer a) t
  | ticks : Handled s .tick (onTick s)
  | resets : Handled s .reset (resetBlock s)
  | acts (e : Event) (t : State) (h : EnvStepped s e t) : Handled s e t
  | discards (e : Event) : Handled s e s

theorem handle_cases (h : handle e s = .next t) : Handled s e t := by
  cases e with
  | wr => exact .writes t (writerStep_cases h).2
  | rd => exact .reads t (readerStep_cases h).2
  | txAnswer a =>
    obtain ⟨-, hatt, ha⟩ | ⟨-, rfl⟩ := onTxAnswer_cases h
    · exact .txAnswered a t hatt ha
    · exact .discards _
  | rxAnswer a =>
    obtain ⟨-, hatt, ha⟩ | ⟨-, rfl⟩ := onRxAnswer_cases h
    · exact .rxAnswered a t hatt ha
    · exact .discards _
  | allocAnswer a =>
    obtain ⟨-, hr, ha⟩ | ⟨-, rfl⟩ := onAllocAnswer_cases h
    · exact .allocAnswered a t hr ha
    · exact .discards _
  | tick =>
    cases h
    exact .ticks
  | reset =>
    cases h
    exact .resets
  | _ => exact .acts _ t (handle_env_cases rfl rfl nofun h)

/-- A tick writes RD's registers alone. -/
theorem onTick_env (s : State) : (onTick s).env = s.env := by
  obtain ⟨-, -, -, ⟨-, h⟩ | ⟨-, h⟩⟩ | ⟨-, h⟩ := onTick_cases s <;> rw [h]

/-! ## The streams -/

/-- WR's own steps put nothing on the wire: TXT's answers do. -/
theorem WriterStepped.wireTx_eq (h : WriterStepped s t) : t.env.wireTx = s.env.wireTx := by
  cases h with
  | sends =>
    unfold acceptSend
    split <;> rfl
  | fails => rw [fail_wr_eq]
  | _ => rfl

/-- RD's own steps take nothing from its stream: RXT's answers do. -/
theorem ReaderStepped.wireRx_eq (h : ReaderStepped s t) : t.env.wireRx = s.env.wireRx := by
  cases h with
  | fails | frees => rw [fail_rd_eq]
  | _ => rfl

theorem handle_wireTx (h : handle e s = .next t) :
    t.env.wireTx = s.env.wireTx ∨
    (∃ k, e = .txAnswer (.moved k) ∧ t.env.wireTx = s.env.wireTx ++ s.env.offer.take k) ∨
    (∃ i k bytes, e = .lateAnswer i (.moved k) ∧ s.env.forgotten[i]? = some (.tx bytes) ∧
      t.env.wireTx = s.env.wireTx ++ bytes.take k) := by
  cases handle_cases h with
  | writes _ hw => exact .inl hw.wireTx_eq
  | txAnswered _ _ _ ha =>
    cases ha with
    | moved k => exact .inr (.inl ⟨k, rfl, rfl⟩)
    | failed | closed => exact .inl rfl
  | reads _ hr => exact .inl (by rw [hr.frame]; rfl)
  | rxAnswered _ _ _ ha => exact .inl (by rw [ha.frame]; rfl)
  | allocAnswered _ _ _ ha => exact .inl (by rw [ha.frame]; rfl)
  | ticks => exact .inl (by rw [onTick_env])
  | acts _ _ henv =>
    cases henv with
    | late i _ _ hl =>
      cases hl with
      | sent bytes k hi => exact .inr (.inr ⟨i, k, bytes, rfl, hi, rfl⟩)
      | _ => exact .inl rfl
    | _ => exact .inl rfl
  | resets | discards => exact .inl rfl

theorem handle_wireRx (h : handle e s = .next t) :
    t.env.wireRx = s.env.wireRx ∨
    (∃ bytes, e = .arrive bytes ∧ t.env.wireRx = s.env.wireRx ++ bytes) ∨
    (∃ k, e = .rxAnswer (.moved k) ∧ k ≤ s.r.rx.left ∧ t.env.wireRx = s.env.wireRx.drop k) ∨
    (∃ i k n, e = .lateAnswer i (.moved k) ∧ s.env.forgotten[i]? = some (.rx n) ∧ k ≤ n ∧
      t.env.wireRx = s.env.wireRx.drop k) := by
  cases handle_cases h with
  | writes _ hw => exact .inl (by rw [hw.frame]; rfl)
  | txAnswered _ _ _ ha => exact .inl (by rw [ha.frame]; rfl)
  | reads _ hr => exact .inl hr.wireRx_eq
  | rxAnswered _ _ _ ha =>
    cases ha with
    | moved k _ _ hk => exact .inr (.inr (.inl ⟨k, rfl, hk, rfl⟩))
    | failed | closed => exact .inl rfl
  | allocAnswered _ _ _ ha => cases ha <;> exact .inl rfl
  | ticks => exact .inl (by rw [onTick_env])
  | acts _ _ henv =>
    cases henv with
    | arrives bytes => exact .inr (.inl ⟨bytes, rfl, rfl⟩)
    | late i _ _ hl =>
      cases hl with
      | received n k hi hk => exact .inr (.inr (.inr ⟨i, k, n, rfl, hi, hk, rfl⟩))
      | _ => exact .inl rfl
    | _ => exact .inl rfl
  | resets | discards => exact .inl rfl

/-- Settles O46: of all that an event can do, a moved attempt alone appends to one stream or takes from the other. -/
theorem streamsMoveOnlyAsAnswered : Obligations.StreamsMoveOnlyAsAnswered := by
  unfold Obligations.StreamsMoveOnlyAsAnswered
  exact fun e s t h => ⟨handle_wireTx h, handle_wireRx h⟩

/-! ## Storage given back -/

theorem WriterStepped.count_free (h : WriterStepped s t) (g : Handle) :
    t.env.out.count (.free g) = s.env.out.count (.free g) := by
  cases h with
  | sends =>
    unfold acceptSend
    split <;> rfl
  | rejects => simp [badCommandW, result_wr_eq]
  | oversized => simp [fatalStop_eq]
  | fails =>
    rw [fail_wr_eq]
    cases s.diagEn <;> simp
  | offers | payloadSent => simp
  | _ => rfl

theorem RxAnswered.out_eq {a : RxAnswer} (h : RxAnswered s a t) : t.env.out = s.env.out := by
  cases h with
  | moved _ _ _ _ _ hu => cases hu <;> rfl
  | _ => rfl

theorem AllocAnswered.count_free {a : AllocAnswer} (h : AllocAnswered s a t) (g : Handle) :
    t.env.out.count (.free g) = s.env.out.count (.free g) := by
  cases h with
  | noMem => simp [allocFail_eq]
  | ok => rfl

/-- RD issues Free in two of its steps: the release of a live token, and the failure of a payload. -/
theorem ReaderStepped.frees_owned (h : ReaderStepped s t) (hs : StorageOwned s) (g : Handle) :
    t.env.out.count (.free g) = s.env.out.count (.free g) ∨
    (t.env.out.count (.free g) = s.env.out.count (.free g) + 1 ∧
      (poolSize s.env.pool g).isSome = true ∧ poolSize t.env.pool g = none ∧
      (g ∈ s.live ∨ s.r.hv = true ∧ s.r.h = g) ∧ g ∉ t.live ∧ t.r.hv = false) := by
  obtain ⟨l, b⟩ := storageOwned_iff.1 hs
  cases h with
  | releases _ _ h hr _ hl =>
    by_cases hg : h = g
    · subst hg
      exact .inr ⟨by simp [releaseEnd_eq], l.stored h hl, poolSize_free_same _ _, .inl hl, not_mem_liveErase _ h,
        b.hv_false (by simp [hr])⟩
    · exact .inl (by simp [releaseEnd_eq, hg])
  | frees hr =>
    rw [fail_rd_eq]
    obtain ⟨hp, hl⟩ := b.buffer hr
    by_cases hg : s.r.h = g
    · subst hg
      exact .inr ⟨by cases s.diagEn <;> simp, by simp [hp], poolSize_free_same _ _, .inr ⟨b.held.2 hr, rfl⟩, hl, rfl⟩
    · exact .inl (by cases s.diagEn <;> simp [hg])
  | fails =>
    rw [fail_rd_eq]
    exact .inl (by cases s.diagEn <;> simp)
  | rejects => exact .inl (by simp [badCommandR, result_rd_eq])
  | releasesNothing => exact .inl (by simp [releaseEnd_eq])
  | full => exact .inl (by simp [allocFail_eq])
  | received => exact .inl (by simp [payloadReceived, result_rd_eq])
  | asks | allocates => exact .inl (by simp)
  | _ => exact .inl rfl

/-- Settles O47: no event but RD's own step issues Free, and that frees a live token's storage or the reader's buffer. -/
theorem freeOnlyWhatIsOwned : Obligations.FreeOnlyWhatIsOwned := by
  unfold Obligations.FreeOnlyWhatIsOwned
  intro e s t g hs h
  cases handle_cases h with
  | reads _ hr => exact hr.frees_owned hs g
  | writes _ hw => exact .inl (hw.count_free g)
  | txAnswered _ _ _ ha => cases ha <;> exact .inl rfl
  | rxAnswered _ _ _ ha => exact .inl (by rw [ha.out_eq])
  | allocAnswered _ _ _ ha => exact .inl (ha.count_free g)
  | ticks => exact .inl (by rw [onTick_env])
  | acts _ _ henv =>
    obtain ⟨-, -, -, -, hout, -⟩ := henv.registers
    exact .inl (by rw [hout])
  | resets | discards => exact .inl rfl

/-! ## The canonical form -/

theorem ReaderStepped.keeps_rxbuf_wf (h : ReaderStepped s t) (hm : Memory.wf s.env.rxbuf = true) :
    Memory.wf t.env.rxbuf = true := by
  cases h with
  | releases => exact Memory.wf_drop _ hm
  | frees =>
    rw [fail_rd_eq]
    exact Memory.wf_drop _ hm
  | fails =>
    rw [fail_rd_eq]
    exact hm
  | _ => exact hm

theorem RxAnswered.keeps_rxbuf_wf {a : RxAnswer} (h : RxAnswered s a t) (hm : Memory.wf s.env.rxbuf = true) :
    Memory.wf t.env.rxbuf = true := by
  cases h with
  | moved _ _ _ _ _ hu =>
    cases hu with
    | payload => exact Memory.wf_writeRun _ _ _ hm
    | _ => exact hm
  | _ => exact hm

theorem AllocAnswered.keeps_rxbuf_wf {a : AllocAnswer} (h : AllocAnswered s a t) (hm : Memory.wf s.env.rxbuf = true) :
    Memory.wf t.env.rxbuf = true := by
  cases h with
  | noMem => exact hm
  | ok => exact Memory.wf_drop _ hm

theorem EnvStepped.keeps_canonical (h : EnvStepped s e t) (hs : MemoryCanonical s) : MemoryCanonical t := by
  obtain ⟨htok, hbuf⟩ := hs
  cases h with
  | places => exact ⟨Memory.wf_write _ _ htok, hbuf⟩
  | writes => exact ⟨htok, Memory.wf_write _ _ hbuf⟩
  | late _ _ _ hl =>
    cases hl with
    | allocated => exact ⟨htok, Memory.wf_drop _ hbuf⟩
    | _ => exact ⟨htok, hbuf⟩
  | reclaims => exact ⟨htok, Memory.wf_filter _ hbuf⟩
  | _ => exact ⟨htok, hbuf⟩

theorem handle_keeps_canonical (hs : MemoryCanonical s) (h : handle e s = .next t) : MemoryCanonical t := by
  obtain ⟨htok, hbuf⟩ := hs
  cases handle_cases h with
  | writes _ hw =>
    rw [hw.frame]
    exact ⟨htok, hbuf⟩
  | txAnswered _ _ _ ha =>
    rw [ha.frame]
    exact ⟨htok, hbuf⟩
  | reads _ hr => exact ⟨by rw [hr.frame]; exact htok, hr.keeps_rxbuf_wf hbuf⟩
  | rxAnswered _ _ _ ha => exact ⟨by rw [ha.frame]; exact htok, ha.keeps_rxbuf_wf hbuf⟩
  | allocAnswered _ _ _ ha => exact ⟨by rw [ha.frame]; exact htok, ha.keeps_rxbuf_wf hbuf⟩
  | ticks =>
    rw [MemoryCanonical, onTick_env]
    exact ⟨htok, hbuf⟩
  | acts _ _ henv => exact henv.keeps_canonical ⟨htok, hbuf⟩
  | resets | discards => exact ⟨htok, hbuf⟩

/-- Settles O49: an event writes bytes in their places or takes cells away, and both keep the form. -/
theorem stepKeepsMemoryCanonical : Obligations.StepKeepsMemoryCanonical := by
  unfold Obligations.StepKeepsMemoryCanonical
  intro s t
  exact step_keeps (P := MemoryCanonical) (fun _ _ _ hs => hs) fun _ _ _ hs h => handle_keeps_canonical hs h

/-! ## Who can fault -/

section
variable {f : Fault}

/-- A guarded step faults with FATAL = 1, or as the step does. -/
theorem fault_of_running {k : Res} (h : running s k = .fault f) : f = .fatalStop ∨ k = .fault f := by
  unfold running at h
  split at h
  · cases h
    exact .inl rfl
  · exact .inr h

theorem fault_of_acceptW {k : State} (h : acceptW s k = .fault f) : f = .fatalStop :=
  (fault_of_running h).resolve_right (by split <;> nofun)

theorem fault_of_acceptR {k : State} (h : acceptR s k = .fault f) : f = .fatalStop :=
  (fault_of_running h).resolve_right (by split <;> nofun)

/-- No instruction faults but for FATAL. -/
theorem fault_of_exec {i : Instr} (h : exec i s = .fault f) : f = .fatalStop := by
  cases i with
  | sendToken | illegalWcmdOp00 | illegalWcmdOp10 | illegalWcmdOp11 => exact fault_of_acceptW h
  | recvToken | releaseToken | illegalRcmdOp00 | illegalRcmdOp01 => exact fault_of_acceptR h
  | encBe32 | decBe32 => exact (fault_of_running h).resolve_right nofun
  | frameZeroFlag | frameNonzeroFlag | xferTx | xferRx =>
    exact (fault_of_running h).resolve_right (by split <;> nofun)

theorem fault_of_txStage {k : State} (h : txStage k s = .fault f) : f = .tokenByteAbsent := by
  unfold txStage at h
  split at h
  · simp only [txCheck] at h
    split at h
    · cases h
    · split at h
      · split at h
        · cases h
          rfl
        · cases h
      · cases h
  all_goals cases h

theorem fault_of_writerAccept (h : writerAccept s = .fault f) : f = .fatalStop := by
  unfold writerAccept at h
  split at h
  · cases h
  · exact fault_of_exec h

theorem fault_of_writerBusyStep (h : writerBusyStep s = .fault f) : f = .tokenByteAbsent := by
  unfold writerBusyStep at h
  split at h
  · exact fault_of_txStage h
  · cases h
  · exact fault_of_txStage h
  · exact fault_of_txStage h
  · cases h
  · cases h

/-- WR faults for FATAL, or for a token byte that is absent. -/
theorem fault_of_writerStep (h : writerStep s = .fault f) : f = .fatalStop ∨ f = .tokenByteAbsent := by
  obtain hf | hk := fault_of_running h
  · exact .inl hf
  · split at hk
    · exact .inl (fault_of_writerAccept hk)
    · exact .inr (fault_of_writerBusyStep hk)

theorem fault_of_readerAccept (h : readerAccept s = .fault f) : f = .fatalStop := by
  unfold readerAccept at h
  split at h
  · cases h
  · exact fault_of_exec h

/-- RX's own step never faults: the sequencer's may. -/
theorem fault_of_rxStage {k : Res} (h : rxStage k s = .fault f) : k = .fault f := by
  unfold rxStage at h
  split at h
  · unfold rxCheck at h
    dsimp only at h
    split at h
    · cases h
    · split at h <;> cases h
  · split at h <;> cases h
  · cases h
  · exact h

theorem fault_of_lengthStageEnded (h : lengthStageEnded s = .fault f) : f = .fatalStop := by
  unfold lengthStageEnded at h
  split at h
  · exact fault_of_exec h
  · cases h

/-- RD's own step faults for FATAL alone. -/
theorem fault_of_readerStep (h : readerStep s = .fault f) : f = .fatalStop := by
  obtain hf | hk := fault_of_running h
  · exact hf
  · split at hk
    · exact fault_of_readerAccept hk
    · cases fault_of_rxStage hk
    · exact fault_of_lengthStageEnded (fault_of_rxStage hk)
    · cases hk
    · cases fault_of_rxStage hk

theorem onTxAnswer_ne_fault (a : TxAnswer) (s : State) : onTxAnswer a s ≠ .fault f := by
  unfold onTxAnswer txAnswered
  split
  · split
    · nofun
    · nofun
    · dsimp only
      split <;> nofun
  · nofun

theorem onAllocAnswer_ne_fault (a : AllocAnswer) (s : State) : onAllocAnswer a s ≠ .fault f := by
  unfold onAllocAnswer allocAnswered
  split
  · split
    · nofun
    · split <;> nofun
  · nofun

theorem hostWrites_ne_fault (h : Handle) (i : Len) (v : Byte) (s : State) : hostWrites h i v s ≠ .fault f := by
  unfold hostWrites
  split <;> nofun

theorem lateAnswered_ne_fault (i : Nat) (a : LateAnswer) (s : State) : lateAnswered i a s ≠ .fault f := by
  unfold lateAnswered
  split
  · nofun
  · nofun
  · split <;> nofun
  · split
    · nofun
    · split <;> nofun
  · split <;> nofun
  all_goals nofun

/-- The sink has no place for bytes beyond the reader's storage, and for no others. -/
theorem rxSink_eq_none_iff {d : List Byte} :
    rxSink d s = none ↔
      s.r.ph = .pay ∧ storageHolds s.env.pool s.r.h s.r.rx.cnt.toNat d.length = false := by
  unfold rxSink
  cases hr : s.r.ph <;> simp

/-- RXT's answer faults where the sink has no place for the bytes it delivers. -/
theorem fault_of_rxAnswered {a : RxAnswer} (h : rxAnswered a s = .fault f) :
    ∃ k, k ≤ s.r.rx.left ∧ rxSink (s.env.wireRx.take k) s = none := by
  unfold rxAnswered at h
  split at h
  · cases h
  · cases h
  · next k =>
    dsimp only at h
    split at h
    · cases h
    · next hleft =>
      split at h
      · cases h
      · split at h
        · next hsink => exact ⟨k + 1, Nat.le_of_not_lt hleft, hsink⟩
        · cases h

theorem fault_of_onRxAnswer {a : RxAnswer} (h : onRxAnswer a s = .fault f) : rxAnswered a s = .fault f := by
  unfold onRxAnswer at h
  split at h
  · exact h
  · cases h

/-- An event that ends in the fault of a write is an answer of RXT. -/
theorem bufferByteAbsent_of_handle (h : handle e s = .fault .bufferByteAbsent) :
    ∃ a, rxAnswered a s = .fault .bufferByteAbsent := by
  cases e with
  | wr => exact absurd (fault_of_writerStep h) (by decide)
  | rd => exact absurd (fault_of_readerStep h) (by decide)
  | txAnswer a => exact absurd h (onTxAnswer_ne_fault a s)
  | rxAnswer a => exact ⟨a, fault_of_onRxAnswer h⟩
  | allocAnswer a => exact absurd h (onAllocAnswer_ne_fault a s)
  | hostWrite g i v => exact absurd h (hostWrites_ne_fault g i v s)
  | lateAnswer i a => exact absurd h (lateAnswered_ne_fault i a s)
  | _ => cases h

end

/-! ## The reader's writes -/

theorem toNat_le_allocSize (n : Len) : n.toNat ≤ (allocSize n).toNat := by
  unfold allocSize
  split
  · next h => simp [h]
  · exact le_rfl

/-- Bytes that RD asked for have their place: in R_PAY they lie below the requested length, and the buffer has that many. -/
theorem rxSink_ne_none {d : List Byte} (ho : StorageOwned s) (hs : ReaderFits s) (hd : d.length ≤ s.r.rx.left) :
    rxSink d s ≠ none := by
  intro hsink
  obtain ⟨-, b⟩ := storageOwned_iff.1 ho
  obtain ⟨x, p⟩ := readerFits_iff.1 hs
  obtain ⟨hr, hout⟩ := rxSink_eq_none_iff.1 hsink
  have hcnt : s.r.rx.cnt.toNat ≤ s.r.rx.req.toNat := x.fits.1
  have hroom : s.r.rx.cnt.toNat + d.length ≤ (allocSize s.r.len32).toNat := by
    have hreq := p.payloadStage hr
    have hsize := toNat_le_allocSize s.r.len32
    rw [← hreq] at hsize ⊢
    unfold Engine.left at hd
    omega
  rw [storageHolds_iff.2 ⟨_, (b.buffer hr).1, hroom⟩] at hout
  cases hout

/-- Settles O54: the fault is RXT's answer's alone, and there the bytes have their place. -/
theorem noWriteOutsideStorage : Obligations.NoWriteOutsideStorage := by
  unfold Obligations.NoWriteOutsideStorage
  intro e s ho hs h
  obtain ⟨a, ha⟩ := bufferByteAbsent_of_handle h
  obtain ⟨k, hk, hsink⟩ := fault_of_rxAnswered ha
  exact rxSink_ne_none ho hs ((List.length_take_le k _).trans hk) hsink

end Sys2Proof.Machine
end

section
/-! PROOF. What is decoded from bits and what bits stand for it (R61 to R64, R67 to R71, R80, R81): O1, O2, O3 and O4.

The idea: a command word with operands is four fields side by side, and it is put together from the fields that stand in their
places of it (`append_eq_iff_fields`); a header is taken apart by its first byte alone (`HeaderRead`), and the length functions are
inverse to each other. Either direction reads its cases off these. -/

namespace Sys2Proof.Machine

/-! ## Command words (R67 to R71) -/

section
variable {m n k j : Nat}

/-- Four fields side by side are a word exactly when each is what stands in its place of the word. -/
theorem append_eq_iff_fields {a : BitVec m} {b : BitVec n} {c : BitVec k} {d : BitVec j}
    {w : BitVec (m + n + k + j)} :
    a ++ b ++ c ++ d = w ↔
      w.extractLsb' 0 j = d ∧ w.extractLsb' j k = c ∧ w.extractLsb' (j + k) n = b ∧ w.extractLsb' (j + k + n) m = a := by
  constructor
  · rintro rfl
    simp [BitVec.extractLsb'_append_eq_of_le, BitVec.extractLsb'_append_eq_right, Nat.add_assoc]
  · rintro ⟨rfl, rfl, rfl, rfl⟩
    simp [BitVec.extractLsb'_append_extractLsb'_eq_extractLsb', Nat.add_assoc]

end

theorem encodeSend_eq_iff {flag : FlagIn} {len : LenIn} {base : Handle} {w : WcmdWord} :
    encodeSend flag len base = w ↔
      w.extractLsb' 0 2 = 1#2 ∧ w.extractLsb' 2 32 = flag ∧ w.extractLsb' 34 64 = len ∧ w.extractLsb' 98 64 = base :=
  append_eq_iff_fields

theorem encodeRelease_eq_iff {valid : Bool} {handle : Handle} {length : Len} {w : RcmdWord} :
    encodeRelease valid handle length = w ↔
      w.extractLsb' 0 2 = 3#2 ∧ w.getLsbD 2 = valid ∧ w.extractLsb' 3 64 = handle ∧ w.extractLsb' 67 32 = length := by
  have hvalid : w.extractLsb' 2 1 = BitVec.ofBool valid ↔ w.getLsbD 2 = valid := by
    rw [BitVec.getLsbD_eq_extractLsb', ← BitVec.ofBool_eq_iff_eq]
    generalize w.extractLsb' 2 1 = x
    revert x valid
    decide
  rw [← hvalid]
  exact append_eq_iff_fields

theorem decodeWcmd_of_send {w : WcmdWord} (h : w.extractLsb' 0 2 = 1#2) :
    decodeWcmd w = .sendToken (w.extractLsb' 2 32) (w.extractLsb' 34 64) (w.extractLsb' 98 64) := by
  rw [decodeWcmd, h]
  rfl

theorem decodeRcmd_of_release {w : RcmdWord} (h : w.extractLsb' 0 2 = 3#2) :
    decodeRcmd w = .releaseToken (w.getLsbD 2) (w.extractLsb' 3 64) (w.extractLsb' 67 32) := by
  rw [decodeRcmd, h]
  rfl

theorem decodeWcmd_encodeSend (flag : FlagIn) (len : LenIn) (base : Handle) :
    decodeWcmd (encodeSend flag len base) = .sendToken flag len base := by
  obtain ⟨hop, hflag, hlen, hbase⟩ := encodeSend_eq_iff.1 (rfl : encodeSend flag len base = _)
  rw [decodeWcmd_of_send hop, hflag, hlen, hbase]

theorem decodeRcmd_encodeRelease (valid : Bool) (handle : Handle) (length : Len) :
    decodeRcmd (encodeRelease valid handle length) = .releaseToken valid handle length := by
  obtain ⟨hop, hvalid, hhandle, hlength⟩ := encodeRelease_eq_iff.1 (rfl : encodeRelease valid handle length = _)
  rw [decodeRcmd_of_release hop, hvalid, hhandle, hlength]

/-! ## Lengths (R80, R81) -/

/-- The length of the bytes a length was encoded to is that length. -/
@[simp] theorem decBytes_encBytes (l : Len) : decBytes (encBytes l) = l := by
  obtain ⟨h0, h1, h2, h3⟩ := encBytes_toNat l
  have hl := l.isLt
  refine BitVec.eq_of_toNat_eq ?_
  rw [decBytes_toNat, h0, h1, h2, h3]
  omega

/-- The decoder's operand is taken apart as the encoder takes a length apart. -/
theorem decodeInternal_dec (w : BitVec 32) :
    decodeInternal .dec w = .decBe32 (encBytes w).b0 (encBytes w).b1 (encBytes w).b2 (encBytes w).b3 := rfl

/-! ## Wire headers (R61, R64) -/

theorem decodeHeader_zero {l : Be4} (hl : l.b0 = 0#8) (rest : List Byte) :
    decodeHeader (l.toList ++ rest) = .ok (.frameZeroFlag (decBytes l), rest) :=
  if_pos hl

theorem decodeHeader_nonzero {flag : Byte} (hf : flag ≠ 0#8) (l : Be4) (rest : List Byte) :
    decodeHeader (flag :: l.toList ++ rest) = .ok (.frameNonzeroFlag flag (decBytes l), rest) :=
  if_neg hf

/-- What a header at the front of the bytes is: four length bytes, the first of them 0, or a byte not 0 and four length bytes. -/
inductive HeaderRead (rest : List Byte) : List Byte → Instr → Prop
  | zero (l : Be4) (hl : l.b0 = 0#8) : HeaderRead rest (l.toList ++ rest) (.frameZeroFlag (decBytes l))
  | nonzero (flag : Byte) (l : Be4) (hf : flag ≠ 0#8) :
      HeaderRead rest (flag :: l.toList ++ rest) (.frameNonzeroFlag flag (decBytes l))

theorem decodeHeader_cases {bytes rest : List Byte} {i : Instr} (h : decodeHeader bytes = .ok (i, rest)) :
    HeaderRead rest bytes i := by
  unfold decodeHeader at h
  split at h
  · next b c0 c1 c2 _ =>
    split at h
    · next hb =>
      cases h
      exact .zero ⟨b, c0, c1, c2⟩ hb
    · next hb =>
      split at h
      · next c3 _ =>
        cases h
        exact .nonzero b ⟨c0, c1, c2, c3⟩ hb
      · cases h
  · cases h

theorem decode_wire_eq_ok {bytes : List Byte} {i : Instr} :
    decode (.wire bytes) = .ok i ↔ decodeHeader bytes = .ok (i, []) := by
  simp only [decode]
  split <;> simp [*]

/-- A header read is the encoding of the instruction read. -/
theorem HeaderRead.encode_eq {rest bytes : List Byte} {i : Instr} (h : HeaderRead rest bytes i) :
    ∃ header, encode i = .wire header ∧ bytes = header ++ rest := by
  cases h with
  | zero l => exact ⟨l.toList, by rw [encode, encBytes_decBytes], rfl⟩
  | nonzero flag l => exact ⟨flag :: l.toList, by rw [encode, encBytes_decBytes], rfl⟩

/-- Settles O4: the two formats' equations, with the length's value as a natural number. -/
theorem headerFormatByFirstByte : Obligations.HeaderFormatByFirstByte := by
  unfold Obligations.HeaderFormatByFirstByte
  refine ⟨fun b1 b2 b3 rest => ?_, fun b b1 b2 b3 b4 rest hb => ?_⟩
  · exact ⟨_, decodeHeader_zero (l := ⟨0#8, b1, b2, b3⟩) rfl rest, by simp [decBytes_toNat]⟩
  · exact ⟨_, decodeHeader_nonzero hb ⟨b1, b2, b3, b4⟩ rest, decBytes_toNat _⟩

/-! ## Both directions -/

/-- Settles O2: an instruction's bits hold its operands in the places where the decoder reads them. -/
theorem decodeEncodeIsIdentity : Obligations.DecodeEncodeIsIdentity := by
  unfold Obligations.DecodeEncodeIsIdentity
  intro i hwf
  cases i with
  | sendToken flag len base => exact congrArg Except.ok (decodeWcmd_encodeSend flag len base)
  | releaseToken valid handle length => exact congrArg Except.ok (decodeRcmd_encodeRelease valid handle length)
  | frameZeroFlag length =>
    have hheader := decodeHeader_zero (l := encBytes length) (beq_iff_eq.1 hwf) []
    rw [List.append_nil, decBytes_encBytes] at hheader
    exact decode_wire_eq_ok.2 hheader
  | frameNonzeroFlag flag length =>
    have hheader := decodeHeader_nonzero (bne_iff_ne.1 hwf) (encBytes length) []
    rw [List.append_nil, decBytes_encBytes] at hheader
    exact decode_wire_eq_ok.2 hheader
  | decBe32 b0 b1 b2 b3 => rw [encode, decode, decodeInternal_dec, encBytes_decBytes]
  | _ => rfl

/-- Settles O3: the fields of a word, and the bytes of a header, are all there is of it. -/
theorem encodeDecodeIsIdentity : Obligations.EncodeDecodeIsIdentity := by
  unfold Obligations.EncodeDecodeIsIdentity
  refine ⟨fun w hop => ?_, fun w hop => ?_, fun bytes i h => ?_⟩
  · rw [decodeWcmd_of_send hop, encode, encodeSend_eq_iff.2 ⟨hop, rfl, rfl, rfl⟩]
  · rw [decodeRcmd_of_release hop, encode, encodeRelease_eq_iff.2 ⟨hop, rfl, rfl, rfl⟩]
  · obtain ⟨header, hencode, rfl⟩ := (decodeHeader_cases (decode_wire_eq_ok.1 h)).encode_eq
    rw [hencode, List.append_nil]

/-- Settles O1: the decoder and the code functions evaluated at the words and codes that the spec writes out. -/
theorem wordsOfTheVectorsDecode : Obligations.WordsOfTheVectorsDecode := by
  unfold Obligations.WordsOfTheVectorsDecode
  decide

end Sys2Proof.Machine
end

section
/-! PROOF. Words run, and the Results they end in (R64, R66, R71, R75, R133): O13, O15, O37 and O44.

The idea of the last: a unit owes a Result for each word presented on its port and for the command in progress (`owedW`, `owedR`),
and what it has issued and what it owes add up to the same after each of its steps. -/

namespace Sys2Proof.Machine

variable {e : Event} {s t : State}

/-! ## Illegal words (R71) -/

/-- Settles O13: each of the five words runs as `badCommandW` or `badCommandR`, which an idle unit accepts. -/
theorem badCommandOnlyReports : Obligations.BadCommandOnlyReports := by
  unfold Obligations.BadCommandOnlyReports
  refine fun i s hf => ⟨fun hi hw => ?_, fun hi hr => ?_⟩
  · have hexec : exec i s = acceptW s (badCommandW s) := by
      obtain rfl | rfl | rfl := hi <;> rfl
    exact hexec.trans (acceptW_of_ready hf hw)
  · have hexec : exec i s = acceptR s (badCommandR s) := by
      obtain rfl | rfl := hi <;> rfl
    exact hexec.trans (acceptR_of_ready hf hr)

/-! ## A complete header (R64, R133) -/

theorem takeHeader_of_complete (hf : s.fatal = false) (hr : s.r.ph = .len) (hdone : s.r.rx.ph = .done)
    (hk : s.r.rx.kind = .kComplete) (zf : Bool) (flag : Byte) (len : Len) :
    takeHeader zf flag len s = .next (allocateFor Config.maxLivePred (stageHeader zf flag len s)) := by
  rw [takeHeader, running_of_not_fatal hf, if_pos (by simp [headerDone, hr, hdone, hk])]

/-- Settles O15: either format is taken by `allocateFor`, which has one equation for a full LIVE and one for room. -/
theorem completeHeaderTaken : Obligations.CompleteHeaderTaken := by
  unfold Obligations.CompleteHeaderTaken
  intro i zf f l s hi hf hr hdone hk
  have hexec : exec i s = takeHeader zf f l s := by
    obtain ⟨rfl, rfl, rfl⟩ | ⟨rfl, rfl⟩ := hi <;> rfl
  have hlen : decBytes (stageHeader zf f l s).r.lenbuf = l := decBytes_encBytes l
  rw [hexec, takeHeader_of_complete hf hr hdone hk]
  split
  · next hfull =>
    rw [allocateFor_of_full (s := stageHeader zf f l s) ((liveFull_iff s.live).2 hfull), hlen, allocFail_eq, decodeLength,
      hlen]
    rfl
  · next hroom =>
    rw [allocateFor_of_room (s := stageHeader zf f l s) fun hfull => hroom ((liveFull_iff s.live).1 hfull), hlen]
    rfl

/-! ## A presented word (R66, R67) -/

/-- Settles O37: the script's event is the unit's step, and the idle unit's step runs the word on its port. -/
theorem stepRunsPresentedWord : Obligations.StepRunsPresentedWord := by
  unfold Obligations.StepRunsPresentedWord
  refine ⟨fun s rest word words hscript hf hw hc => ⟨decodeWcmd word, rfl, ?_⟩,
    fun s rest word words hscript hf hr hc => ⟨decodeRcmd word, rfl, ?_⟩⟩
  · rw [step, takeEvent_of_script hscript]
    exact writerStep_of_presented (s := { s with env := { s.env with script := rest } }) hf hw hc
  · rw [step, takeEvent_of_script hscript]
    exact readerStep_of_presented (s := { s with env := { s.env with script := rest } }) hf hr hc

/-! ## One Result per command (R75) -/

/-- The Results that WR owes: one for each word presented, and one for the command in progress. -/
def owedW (s : State) : Nat := s.env.wcmd.length + if s.w.ph = .idle ∨ s.w.ph = .halt then 0 else 1

/-- The Results that RD owes: one for each word presented, and one for the command in progress. -/
def owedR (s : State) : Nat := s.env.rcmd.length + if s.r.ph = .idle then 0 else 1

/-- A step of WR issues no Result of RD's, and pays each Result it owes once. -/
theorem WriterStepped.results (h : WriterStepped s t) :
    resultsR t = resultsR s ∧ resultsW t + owedW t = resultsW s + owedW s := by
  unfold resultsR resultsW owedW
  cases h with
  | sends _ _ _ _ _ hw hc =>
    unfold acceptSend
    split <;> simp [hw, hc]
  | rejects _ _ hw hc =>
    simp +arith [badCommandW, result_wr_eq, Writer.cleared, hw, hc, Issue.isResultW, Issue.isResultR]
  | offers => simp [Issue.isResultW, Issue.isResultR]
  | flagSent hw | encodes hw | lengthSent hw => simp [hw]
  | oversized hw => simp +arith [fatalStop_eq, hw, Issue.isResultW, Issue.isResultR]
  | payloadSent hw => simp +arith [hw, Issue.isResultW, Issue.isResultR]
  | fails _ _ _ _ hs =>
    have hw : ¬ (s.w.ph = .idle ∨ s.w.ph = .halt) := by
      obtain ⟨hw, -⟩ | ⟨hw, -⟩ | ⟨hw, -⟩ := hs <;> simp [hw]
    rw [fail_wr_eq]
    cases s.diagEn <;> simp +arith [hw, Issue.isResultW, Issue.isResultR]
  | _ => exact ⟨rfl, rfl⟩

/-- A step of RD issues no Result of WR's, and pays each Result it owes once. -/
theorem ReaderStepped.results (h : ReaderStepped s t) :
    resultsW t = resultsW s ∧ resultsR t + owedR t = resultsR s + owedR s := by
  unfold resultsW resultsR owedR
  cases h with
  | receives _ _ hr hc => simp [acceptRecv, hr, hc]
  | rejects _ _ hr hc =>
    simp +arith [badCommandR, result_rd_eq, Reader.cleared, hr, hc, Issue.isResultW, Issue.isResultR]
  | releases _ _ _ hr hc | releasesNothing _ _ _ hr hc =>
    simp +arith [releaseEnd_eq, Reader.cleared, hr, hc, Issue.isResultW, Issue.isResultR]
  | asks => simp [Issue.isResultW, Issue.isResultR]
  | zeroByte hr | flagByte hr => simp [hr]
  | full hr => simp +arith [allocFail_eq, hr, Issue.isResultW, Issue.isResultR]
  | allocates hr => simp [hr, Issue.isResultW, Issue.isResultR]
  | received hr => simp +arith [payloadReceived, result_rd_eq, hr, Issue.isResultW, Issue.isResultR]
  | fails _ _ _ _ hs =>
    have hr : s.r.ph ≠ .idle := by
      obtain ⟨hr, -⟩ | ⟨hr, -⟩ := hs <;> simp [hr]
    rw [fail_rd_eq]
    cases s.diagEn <;> simp +arith [hr, Issue.isResultW, Issue.isResultR]
  | frees hr =>
    rw [fail_rd_eq]
    cases s.diagEn <;> simp +arith [hr, Issue.isResultW, Issue.isResultR]
  | _ => exact ⟨rfl, rfl⟩

theorem AllocAnswered.results {a : AllocAnswer} (h : AllocAnswered s a t) :
    resultsW t = resultsW s ∧ resultsR t = resultsR s + if t.r.ph = .idle then 1 else 0 := by
  unfold resultsW resultsR
  cases h with
  | noMem => simp [allocFail_eq, Issue.isResultW, Issue.isResultR]
  | ok => exact ⟨rfl, rfl⟩

theorem results_of_out_eq (h : t.env.out = s.env.out) : resultsW t = resultsW s ∧ resultsR t = resultsR s := by
  simp [resultsW, resultsR, h]

/-! ### WR -/

theorem WriterStepped.eq_of_halted (h : WriterStepped s t) (hw : s.w.ph = .halt) : t = s := by
  have hnot := not_writerMoving (.inr (.inr hw))
  cases h with
  | halted => rfl
  | waits hm | overrun hm | completes hm | offers _ hm => exact absurd hm hnot
  | idle hi | sends _ _ _ _ _ hi | rejects _ _ hi | flagSent hi | oversized hi | encodes hi | lengthSent hi
  | payloadSent hi => exact absurd (hw.symm.trans hi) nofun
  | fails _ _ _ _ hs => simp [hw] at hs

theorem WriterStepped.not_halted_of_idle (h : WriterStepped s t) (hw : s.w.ph = .idle) : t.w.ph ≠ .halt := by
  cases h with
  | sends =>
    unfold acceptSend
    split <;> simp
  | oversized hchk => simp [hw] at hchk
  | fails => simp [fail_wr_eq]
  | rejects => simp [badCommandW, result_wr_eq, Writer.cleared, hw]
  | _ => simp [hw]

theorem WriterStepped.resultsW_of_busy (h : WriterStepped s t) (hw : s.w.ph ≠ .idle) :
    resultsW t = resultsW s + if t.w.ph = .idle ∨ t.w.ph = .halt ∧ s.w.ph ≠ .halt then 1 else 0 := by
  by_cases hhalt : s.w.ph = .halt
  · simp [h.eq_of_halted hhalt, hhalt]
  · have hsum := h.results.2
    simp only [owedW, h.wcmd_of_busy hw, hw, hhalt, or_self, if_false] at hsum
    simp only [hhalt, ne_eq, not_false_eq_true, and_true]
    split at hsum
    · next hended => rw [if_pos hended]; omega
    · next hgoes => rw [if_neg hgoes]; omega

theorem WriterStepped.resultsW_of_idle (h : WriterStepped s t) (hw : s.w.ph = .idle) :
    resultsW t + t.env.wcmd.length + (if t.w.ph = .idle then 0 else 1) = resultsW s + s.env.wcmd.length := by
  have hsum := h.results.2
  simpa [owedW, hw, h.not_halted_of_idle hw, Nat.add_assoc] using hsum

/-- No event but WR's own step issues a Result of WR's. -/
theorem handle_resultsW (h : handle e s = .next t) (hne : e ≠ .reset) (hwr : e ≠ .wr) : resultsW t = resultsW s := by
  cases handle_cases h with
  | writes => exact absurd rfl hwr
  | txAnswered _ _ _ ha => cases ha <;> rfl
  | reads _ hr => exact hr.results.1
  | rxAnswered _ _ _ ha => exact (results_of_out_eq ha.out_eq).1
  | allocAnswered _ _ _ ha => exact ha.results.1
  | ticks => exact (results_of_out_eq (by rw [onTick_env])).1
  | resets => exact absurd rfl hne
  | acts _ _ henv =>
    obtain ⟨-, -, -, -, hout, -⟩ := henv.registers
    exact (results_of_out_eq hout).1
  | discards => rfl

/-! ### RD -/

theorem RxAnswered.ph_eq {a : RxAnswer} (h : RxAnswered s a t) : t.r.ph = s.r.ph := by
  cases h with
  | moved _ _ _ _ _ hu => cases hu <;> rfl
  | _ => rfl

theorem onTick_ph (s : State) : (onTick s).r.ph = s.r.ph := by
  obtain ⟨-, -, -, ⟨-, h⟩ | ⟨-, h⟩⟩ | ⟨-, h⟩ := onTick_cases s <;> rw [h]

theorem ReaderStepped.resultsR_of_busy (h : ReaderStepped s t) (hr : s.r.ph ≠ .idle) :
    resultsR t = resultsR s + if t.r.ph = .idle then 1 else 0 := by
  have hsum := h.results.2
  simp only [owedR, h.rcmd_of_busy hr, hr, if_false] at hsum
  split at hsum
  · next hended => rw [if_pos hended]; omega
  · next hgoes => rw [if_neg hgoes]; omega

theorem ReaderStepped.resultsR_of_idle (h : ReaderStepped s t) (hr : s.r.ph = .idle) :
    resultsR t + t.env.rcmd.length + (if t.r.ph = .idle then 0 else 1) = resultsR s + s.env.rcmd.length := by
  have hsum := h.results.2
  simpa [owedR, hr, Nat.add_assoc] using hsum

/-- An event that is not RD's own step leaves RD's phase and issues no Result of RD's, but for the allocator's answer. -/
theorem handle_resultsR (h : handle e s = .next t) (hne : e ≠ .reset) (hrd : e ≠ .rd) :
    t.r.ph = s.r.ph ∧ resultsR t = resultsR s ∨
    s.r.ph = .alloc ∧ resultsR t = resultsR s + if t.r.ph = .idle then 1 else 0 := by
  cases handle_cases h with
  | writes _ hw => exact .inl ⟨by rw [hw.frame]; rfl, hw.results.1⟩
  | txAnswered _ _ _ ha => cases ha <;> exact .inl ⟨rfl, rfl⟩
  | reads => exact absurd rfl hrd
  | rxAnswered _ _ _ ha => exact .inl ⟨ha.ph_eq, (results_of_out_eq ha.out_eq).2⟩
  | allocAnswered _ _ hr ha => exact .inr ⟨hr, ha.results.2⟩
  | ticks => exact .inl ⟨onTick_ph s, (results_of_out_eq (by rw [onTick_env])).2⟩
  | resets => exact absurd rfl hne
  | acts _ _ henv =>
    obtain ⟨-, -, -, hreader, hout, -⟩ := henv.registers
    exact .inl ⟨by rw [hreader], (results_of_out_eq hout).2⟩
  | discards => exact .inl ⟨rfl, rfl⟩

theorem handle_resultsR_of_busy (h : handle e s = .next t) (hne : e ≠ .reset) (hr : s.r.ph ≠ .idle) :
    resultsR t = resultsR s + if t.r.ph = .idle then 1 else 0 := by
  by_cases hrd : e = .rd
  · subst hrd
    exact (readerStep_cases h).2.resultsR_of_busy hr
  · obtain ⟨hph, hsame⟩ | ⟨-, hends⟩ := handle_resultsR h hne hrd
    · rw [hph, if_neg hr, hsame, Nat.add_zero]
    · exact hends

theorem handle_resultsR_of_idle (h : handle e s = .next t) (hne : e ≠ .reset) (hr : s.r.ph = .idle) (hrd : e ≠ .rd) :
    resultsR t = resultsR s := by
  obtain ⟨-, hsame⟩ | ⟨halloc, -⟩ := handle_resultsR h hne hrd
  · exact hsame
  · simp [hr] at halloc

/-- Settles O44: what a unit has issued and what it owes keep their sum in its own step, and of the other events the allocator's
answer alone ends a command. -/
theorem oneResultPerCommand : Obligations.OneResultPerCommand := by
  unfold Obligations.OneResultPerCommand
  refine fun e s t h hne => ⟨handle_resultsW h hne, fun he hw => ?_, fun he hw => ?_, handle_resultsR_of_busy h hne,
    handle_resultsR_of_idle h hne, fun hr he => ?_⟩ <;> subst he
  · exact (writerStep_cases h).2.resultsW_of_busy hw
  · exact (writerStep_cases h).2.resultsW_of_idle hw
  · exact (readerStep_cases h).2.resultsR_of_idle hr

end Sys2Proof.Machine
end

section
/-! PROOF. The marshaller (R80, R81, R82): O6, O7 and O8.

The idea of the last: a length is a number of four digits in base 256 (`decBytes_toNat`), the first of them the most significant,
so two lengths compare as their bytes do at the first place where these differ. -/

namespace Sys2Proof.Machine

/-! ## The two operations (R80, R81) -/

/-- R80's two forms of a byte of a length: shift and mask, and the slice of bits. -/
theorem setWidth_shiftRight_and_mask (l : Len) (i : Nat) : ((l >>> i) &&& 0xff#32).setWidth 8 = l.extractLsb' i 8 := by
  have hmask : (0xff#32).setWidth 8 = BitVec.allOnes 8 := rfl
  rw [BitVec.setWidth_and, hmask, BitVec.and_allOnes]
  exact BitVec.eq_of_toNat_eq (by simp)

theorem encBytes_eq_shifts_masked (l : Len) :
    encBytes l = ⟨((l >>> 24) &&& 0xff#32).setWidth 8, ((l >>> 16) &&& 0xff#32).setWidth 8,
      ((l >>> 8) &&& 0xff#32).setWidth 8, (l &&& 0xff#32).setWidth 8⟩ := by
  have hlow := setWidth_shiftRight_and_mask l 0
  rw [BitVec.ushiftRight_zero] at hlow
  simp only [encBytes, setWidth_shiftRight_and_mask, hlow]

/-- Settles O6: outside FATAL the instruction is `encodeLength`, whose slices of bits are the shifts and masks of R80. -/
theorem encodeLengthCompletes : Obligations.EncodeLengthCompletes := by
  unfold Obligations.EncodeLengthCompletes
  intro l s hf
  have hexec : exec (.encBe32 l) s = running s (.next (encodeLength l s)) := rfl
  rw [hexec, running_of_not_fatal hf, encodeLength, encBytes_eq_shifts_masked]

/-- Settles O7: outside FATAL the instruction is `decodeLength`, and `decBytes_toNat` is the value it writes. -/
theorem decodeLengthCompletes : Obligations.DecodeLengthCompletes := by
  unfold Obligations.DecodeLengthCompletes
  intro b0 b1 b2 b3 s hf
  have hexec : exec (.decBe32 b0 b1 b2 b3) s = running s (.next (decodeLength ⟨b0, b1, b2, b3⟩ s)) := rfl
  exact ⟨_, decBytes_toNat ⟨b0, b1, b2, b3⟩, hexec.trans (running_of_not_fatal hf _)⟩

/-! ## The order (R82) -/

theorem toList_lt_iff_first_difference (b c : Be4) :
    b.toList < c.toList ↔
      b.b0 < c.b0 ∨ b.b0 = c.b0 ∧ (b.b1 < c.b1 ∨ b.b1 = c.b1 ∧ (b.b2 < c.b2 ∨ b.b2 = c.b2 ∧ b.b3 < c.b3)) := by
  simp only [Be4.toList, List.cons_lt_cons_iff, List.not_lt_nil, and_false, or_false]

/-- The first byte that differs outweighs all that follow it. -/
theorem toList_lt_iff_decBytes_lt (b c : Be4) : b.toList < c.toList ↔ decBytes b < decBytes c := by
  rw [toList_lt_iff_first_difference]
  simp only [BitVec.lt_def, ← BitVec.toNat_inj, decBytes_toNat]
  omega

/-- Settles O8: decoding keeps and reflects the order, and encoding is its inverse. -/
theorem marshallerIsOrderBijection : Obligations.MarshallerIsOrderBijection := by
  unfold Obligations.MarshallerIsOrderBijection
  refine ⟨decBytes_encBytes, encBytes_decBytes, fun l m => ?_, toList_lt_iff_decBytes_lt⟩
  rw [toList_lt_iff_decBytes_lt, decBytes_encBytes, decBytes_encBytes]

end Sys2Proof.Machine
end

section
/-! PROOF. The engines' steps one by one (R91 to R101, R107): O16 to O25.

The idea: in a stage, a unit's step is `txStage` or `rxStage`, and each way through these has one equation. What a send attempt
offers is read off `txSource`, the bytes of the stage from `WX_CNT` on; what a receive attempt delivers goes through `rxSink`. -/

namespace Sys2Proof.Machine

variable {s t : State}

/-! ## A unit in a stage -/

theorem writerStep_of_moving (hf : s.fatal = false) (hm : writerMoving s) :
    ∃ ended, writerStep s = txStage ended s := by
  rw [writerStep, running_of_not_fatal hf, writerBusyStep]
  obtain hw | hw | hw := hm <;> exact ⟨_, by rw [hw]; rfl⟩

theorem readerStep_of_moving (hf : s.fatal = false) (hm : readerMoving s) :
    ∃ ended, readerStep s = rxStage ended s := by
  rw [readerStep, running_of_not_fatal hf]
  obtain hr | hr | hr := hm <;> exact ⟨_, by rw [hr]⟩

/-! ## WR's turn in a stage (R92, R93, R104) -/

theorem writerStep_of_check (hf : s.fatal = false) (hm : writerMoving s) (he : s.w.wx.ph = .check) :
    writerStep s = txCheck s := by
  obtain ⟨_, hstep⟩ := writerStep_of_moving hf hm
  rw [hstep, txStage, he]

theorem writerStep_completes (hf : s.fatal = false) (hm : writerMoving s) (he : s.w.wx.ph = .check)
    (hn : s.w.wx.cnt = s.w.wx.req) : writerStep s = .next (setWx (s.w.wx.finish .kComplete) s) :=
  (writerStep_of_check hf hm he).trans (if_pos hn)

theorem writerStep_offers {bytes : List Byte} (hf : s.fatal = false) (hm : writerMoving s) (he : s.w.wx.ph = .check)
    (hn : s.w.wx.cnt < s.w.wx.req) (hb : txSource s = some bytes) :
    writerStep s = .next { s with
      w := { s.w with wx := { s.w.wx with ph := .att } }
      env := { s.env with offer := bytes, draws := s.env.draws + 1, out := s.env.out ++ [.txAttempt bytes] } } := by
  have hne : s.w.wx.cnt ≠ s.w.wx.req := fun h => absurd hn (by simp [h])
  simp [writerStep_of_check hf hm he, txCheck, hne, hn, hb, issue, setWx]

theorem writerStep_waits (hf : s.fatal = false) (hm : writerMoving s) (he : s.w.wx.ph = .att) :
    writerStep s = .next s := by
  obtain ⟨_, hstep⟩ := writerStep_of_moving hf hm
  rw [hstep, txStage, he]

/-! ## RD's turn in a stage (R92, R95, R97, R104) -/

theorem readerStep_of_check (hf : s.fatal = false) (hm : readerMoving s) (he : s.r.rx.ph = .check) :
    readerStep s = rxCheck s := by
  obtain ⟨_, hstep⟩ := readerStep_of_moving hf hm
  rw [hstep, rxStage, he]

theorem readerStep_completes (hf : s.fatal = false) (hm : readerMoving s) (he : s.r.rx.ph = .check)
    (hn : s.r.rx.cnt = s.r.rx.req) : readerStep s = .next (setRx (s.r.rx.finish .kComplete) s) :=
  (readerStep_of_check hf hm he).trans (if_pos hn)

theorem readerStep_arms (hf : s.fatal = false) (hm : readerMoving s) (he : s.r.rx.ph = .check)
    (hn : s.r.rx.cnt < s.r.rx.req) :
    readerStep s = .next { s with r := { s.r with tmr := 0, rx := { s.r.rx with ph := .wait } } } := by
  have hne : s.r.rx.cnt ≠ s.r.rx.req := fun h => absurd hn (by simp [h])
  simp [readerStep_of_check hf hm he, rxCheck, hne, hn]

theorem readerStep_asks (hf : s.fatal = false) (hm : readerMoving s) (he : s.r.rx.ph = .wait)
    (hy : s.env.rxReady = true) :
    readerStep s = .next { s with
      r := { s.r with rx := { s.r.rx with ph := .att } }
      env := { s.env with out := s.env.out ++ [.rxAttempt s.r.rx.left] } } := by
  obtain ⟨_, hstep⟩ := readerStep_of_moving hf hm
  simp [hstep, rxStage, he, hy, rxAttempt, issue, setRx]

theorem readerStep_waits (hf : s.fatal = false) (hm : readerMoving s)
    (he : s.r.rx.ph = .att ∨ s.r.rx.ph = .wait ∧ s.env.rxReady = false) : readerStep s = .next s := by
  obtain ⟨_, hstep⟩ := readerStep_of_moving hf hm
  rw [hstep]
  obtain he | ⟨he, hy⟩ := he <;> simp [rxStage, *]

theorem readerStep_allocating (hf : s.fatal = false) (hr : s.r.ph = .alloc) : readerStep s = .next s := by
  rw [readerStep, running_of_not_fatal hf, hr]

/-! ## What an attempt offers (R93, R107) -/

/-- A buffer that has each byte up to `req` has all of its bytes from `cnt` on to offer. -/
theorem length_drop_take_of_getElem? {buf : List Byte} {cnt req : Nat}
    (hp : ∀ i, cnt ≤ i → i < req → buf[i]?.toList ≠ []) : ((buf.drop cnt).take (req - cnt)).length = req - cnt := by
  obtain hlt | hle := Nat.lt_or_ge cnt req
  · have hlast : req - 1 < buf.length := by
      by_contra hout
      exact hp (req - 1) (by omega) (by omega) (by rw [List.getElem?_eq_none (Nat.le_of_not_lt hout)]; rfl)
    simp only [List.length_take, List.length_drop]
    omega
  · simp [Nat.sub_eq_zero_of_le hle]

/-- The bytes of a buffer from `cnt` on are its values there. -/
theorem mem_of_drop_take_getElem? {buf : List Byte} {cnt n j : Nat} (hj : j < ((buf.drop cnt).take n).length) :
    ∃ v ∈ buf[cnt + j]?.toList, ((buf.drop cnt).take n)[j]? = some v := by
  refine ⟨((buf.drop cnt).take n)[j], ?_, List.getElem?_eq_getElem hj⟩
  simp only [List.length_take, List.length_drop] at hj
  simp [List.getElem?_eq_getElem (show cnt + j < buf.length by omega)]

/-- Where each byte not yet moved is there, the source is one value of each. -/
theorem txSource_of_present (hm : writerMoving s)
    (hp : ∀ i, s.w.wx.cnt.toNat ≤ i → i < s.w.wx.req.toNat → srcValues s i ≠ []) :
    ∃ bytes, txSource s = some bytes ∧ bytes.length = s.w.wx.left ∧
      ∀ j, j < bytes.length → ∃ v ∈ srcValues s (s.w.wx.cnt.toNat + j), bytes[j]? = some v := by
  obtain hw | hw | hw := hm <;> simp only [srcValues, hw] at hp ⊢ <;> simp only [txSource, hw]
  · exact ⟨_, rfl, length_drop_take_of_getElem? hp, fun _ => mem_of_drop_take_getElem?⟩
  · exact ⟨_, rfl, length_drop_take_of_getElem? hp, fun _ => mem_of_drop_take_getElem?⟩
  · obtain ⟨bytes, hbytes⟩ := readRun_isSome (read := tokRead s) (i := s.w.wx.cnt.toNat) (n := s.w.wx.left)
      fun j h1 h2 => pickOne_isSome (hp j h1 (by unfold Engine.left at h2; omega))
    obtain ⟨hlen, hread⟩ := readRun_eq_some_iff.1 hbytes
    refine ⟨bytes, hbytes, hlen, fun j hj => ⟨bytes[j], ?_, List.getElem?_eq_getElem hj⟩⟩
    have hj' := hread j (hlen ▸ hj)
    rw [List.getElem?_eq_getElem hj] at hj'
    exact pickOne_mem hj'.symm

/-! ## Answers (R94, R96, R101) and ticks (R98) -/

theorem onTxAnswer_of_att (hf : s.fatal = false) (he : s.w.wx.ph = .att) (a : TxAnswer) :
    onTxAnswer a s = txAnswered a s :=
  if_pos ⟨hf, he⟩

theorem onRxAnswer_of_att (hf : s.fatal = false) (he : s.r.rx.ph = .att) (a : RxAnswer) :
    onRxAnswer a s = rxAnswered a s :=
  if_pos ⟨hf, he⟩

theorem txAnswered_moved {k : Nat} (h1 : 1 ≤ k) (hk : k ≤ s.w.wx.left) :
    txAnswered (.moved k) s = .next { s with
      w := { s.w with wx := s.w.wx.moved k }
      env := { s.env with offer := [], wireTx := s.env.wireTx ++ s.env.offer.take k } } := by
  obtain ⟨k, rfl⟩ := Nat.exists_eq_add_of_le' h1
  exact if_neg (Nat.not_lt.2 hk)

theorem txAnswered_too_many {k : Nat} (hk : s.w.wx.left < k) :
    txAnswered (.moved k) s = .refused .txAnswerOutOfRange := by
  obtain ⟨k, rfl⟩ := Nat.exists_eq_add_of_lt hk
  exact if_pos hk

theorem rxAnswered_moved {k : Nat} (h1 : 1 ≤ k) (hk : k ≤ s.r.rx.left) (hw : k ≤ s.env.wireRx.length)
    (hs : rxSink (s.env.wireRx.take k) s = some t) :
    rxAnswered (.moved k) s = .next { t with
      r := { t.r with rx := s.r.rx.moved k }
      env := { t.env with wireRx := s.env.wireRx.drop k } } := by
  obtain ⟨k, rfl⟩ := Nat.exists_eq_add_of_le' h1
  simp [rxAnswered, Nat.not_lt.2 hk, Nat.not_lt.2 hw, hs, setRx]

theorem rxAnswered_too_many {k : Nat} (hk : s.r.rx.left < k) :
    rxAnswered (.moved k) s = .refused .rxAnswerOutOfRange := by
  obtain ⟨k, rfl⟩ := Nat.exists_eq_add_of_lt hk
  exact if_pos hk

theorem onTick_of_waiting (hf : s.fatal = false) (he : s.r.rx.ph = .wait) (hy : s.env.rxReady = false) :
    onTick s = rxTick Config.rxTimeoutTicks s :=
  if_pos ⟨hf, he, hy⟩

/-! ## The stages' sinks (R107) -/

theorem rxSink_first (hr : s.r.ph = .first) (hn : s.r.rx.cnt = 0#32) (b : Byte) :
    rxSink [b] s = some { s with r := { s.r with b0 := b } } := by
  simp [rxSink, hr, hn]

theorem rxSink_length (hr : s.r.ph = .len) (d : List Byte) :
    rxSink d s = some { s with
      r := { s.r with lenbuf := Be4.setRun s.r.lenbuf (s.r.rx.cnt.toNat + s.r.zf.toNat) d } } := by
  simp [rxSink, hr]

theorem rxSink_payload {d : List Byte} {n : Nat} (hr : s.r.ph = .pay) (hp : poolSize s.env.pool s.r.h = some n)
    (hn : s.r.rx.cnt.toNat + d.length ≤ n) :
    rxSink d s = some { s with
      env := { s.env with rxbuf := Memory.writeRun s.env.rxbuf s.r.h s.r.rx.cnt.toNat d } } := by
  simp [rxSink, hr, storageHolds_iff.2 ⟨n, hp, hn⟩]

/-! ## The statements -/

/-- Settles O18: `txSource` is what is offered, and it has a value of each byte not yet moved. -/
theorem sendAttemptOffersTheRest : Obligations.SendAttemptOffersTheRest := by
  unfold Obligations.SendAttemptOffersTheRest
  intro s hf hm he hn hp
  obtain ⟨bytes, hsource, hlen, hvalues⟩ := txSource_of_present hm hp
  exact ⟨bytes, s.env.draws + 1, writerStep_offers hf hm he hn hsource, hlen, hvalues⟩

/-- Settles O22: the first byte's and the length's sink, the latter element by element. -/
theorem stagingBytesReceived : Obligations.StagingBytesReceived := by
  unfold Obligations.StagingBytesReceived
  constructor
  · intro s b rest hf hr he hn hreq hw
    have hleft : 1 ≤ s.r.rx.left := by
      rw [Engine.left, hn]
      exact hreq
    have hsink : rxSink (s.env.wireRx.take 1) s = some { s with r := { s.r with b0 := b } } := by
      rw [hw]
      exact rxSink_first hr hn b
    refine (onRxAnswer_of_att hf he _).trans ((rxAnswered_moved le_rfl hleft (by simp [hw]) hsink).trans ?_)
    simp [Engine.moved, hn, hw]
  · intro s k hf hr he h1 hk hw hfour
    have hlen : (s.env.wireRx.take k).length = k := List.length_take_of_le hw
    have hfit : s.r.rx.cnt.toNat + s.r.zf.toNat + (s.env.wireRx.take k).length ≤ 4 := by omega
    have hmoved := rxAnswered_moved h1 hk hw (rxSink_length hr _)
    refine ⟨_, (onRxAnswer_of_att hf he _).trans hmoved, ?_, ?_⟩
    · intro j hj
      rw [Be4.setRun_getElem? _ _ _ _ hfit, if_pos (by omega), Nat.add_sub_cancel_left, List.getElem?_take_of_lt hj]
    · intro i hi
      rw [Be4.setRun_getElem? _ _ _ _ hfit, if_neg (by omega)]

/-- Settles O23: the payload's sink is one run of bytes, and it has its place. -/
theorem payloadBytesReceived : Obligations.PayloadBytesReceived := by
  unfold Obligations.PayloadBytesReceived
  intro s k n hf hr he h1 hk hw hp hn
  have hlen : (s.env.wireRx.take k).length = k := List.length_take_of_le hw
  have hmoved := rxAnswered_moved h1 hk hw (rxSink_payload (d := s.env.wireRx.take k) hr hp (by omega))
  refine ⟨_, (onRxAnswer_of_att hf he _).trans hmoved, ?_, ?_⟩
  · intro j hj
    rw [Memory.read_writeRun, hlen, if_pos (by unfold cellAddr; omega), ← List.getElem?_take_of_lt hj]
    congr 1
    unfold cellAddr
    omega
  · intro a ha
    rw [Memory.read_writeRun, hlen, if_neg (by omega)]

/-- Settles O16: outside FATAL the two instructions are `startTx` and `startRx` for an engine that is done. -/
theorem transferStarts : Obligations.TransferStarts := by
  unfold Obligations.TransferStarts
  intro n s hf
  have htx : exec (.xferTx n) s = running s (if s.w.wx.ph = .done then .next (startTx n s) else .next s) := rfl
  have hrx : exec (.xferRx n) s = running s (if s.r.rx.ph = .done then .next (startRx n s) else .next s) := rfl
  rw [htx, hrx, running_of_not_fatal hf, running_of_not_fatal hf]
  exact ⟨fun hd => if_pos hd, fun hd => if_pos hd⟩

/-- Settles O17: the check of either engine sees the count satisfied. -/
theorem satisfiedTransferCompletes : Obligations.SatisfiedTransferCompletes := by
  unfold Obligations.SatisfiedTransferCompletes
  exact fun s hf => ⟨writerStep_completes hf, readerStep_completes hf⟩

/-- Settles O19: one equation for each answer. -/
theorem sendAttemptAnswered : Obligations.SendAttemptAnswered := by
  unfold Obligations.SendAttemptAnswered
  intro s hf he
  have hans (a : TxAnswer) : handle (.txAnswer a) s = txAnswered a s := onTxAnswer_of_att hf he a
  exact ⟨fun k h1 hk => (hans _).trans (txAnswered_moved h1 hk), hans _, fun c => hans _⟩

/-- Settles O20: one equation for each way RD's turn can go in a transfer, and WR's turn with an attempt outstanding. -/
theorem attemptFollowsFreshWait : Obligations.AttemptFollowsFreshWait := by
  unfold Obligations.AttemptFollowsFreshWait
  exact fun s hf => ⟨readerStep_arms hf, readerStep_asks hf, fun hm he hy => readerStep_waits hf hm (.inr ⟨he, hy⟩),
    fun hm he => readerStep_waits hf hm (.inl he), readerStep_allocating hf, writerStep_waits hf⟩

/-- Settles O21: a tick that finds RD waiting is `rxTick`, whose test is the statement's; any other finds no wait. -/
theorem tickAdvancesOrExpires : Obligations.TickAdvancesOrExpires := by
  unfold Obligations.TickAdvancesOrExpires
  intro s hf
  refine ⟨fun he hy ht => ?_, fun he hy ht => ?_, fun hidle => congrArg _ (if_neg ?_)⟩
  · exact congrArg _ ((onTick_of_waiting hf he hy).trans (if_pos ht))
  · exact congrArg _ ((onTick_of_waiting hf he hy).trans (if_neg ht))
  · rintro ⟨-, he, hy⟩
    simp [he, hy] at hidle

/-- Settles O24: one equation for each answer that ends the transfer. -/
theorem receiveAttemptEnds : Obligations.ReceiveAttemptEnds := by
  unfold Obligations.ReceiveAttemptEnds
  exact fun s hf he => ⟨onRxAnswer_of_att hf he _, fun c => onRxAnswer_of_att hf he _⟩

/-- Settles O25: either engine's answer is held against what the attempt named. -/
theorem oversizedAnswersRefused : Obligations.OversizedAnswersRefused := by
  unfold Obligations.OversizedAnswersRefused
  exact ⟨fun s k hf he hk => (onTxAnswer_of_att hf he _).trans (txAnswered_too_many hk),
    fun s k hf he hk => (onRxAnswer_of_att hf he _).trans (rxAnswered_too_many hk)⟩

end Sys2Proof.Machine
end

section
/-! PROOF. Whole transfers: the engines' small steps and the big-step loop (R105, R106): O58, O59 and O60.

The idea: `TxLoop` and `RxLoop` are the ways the big-step loop can go, and every statement here is an induction along them. For
the small steps, `sendState s e sent …` is the state `s` with WX at `e` and the bytes `sent` added on the wire, and
`receiveState s e d …` is `s` with RX at `e` and the bytes `d` in the stage's sink: one turn of a transfer leads from one such
state to another, with more bytes sent or received. -/

namespace Sys2Proof.Machine

variable {s : State} {r : XferResult} {n req : Nat}

/-! ## The ways of the loop (R105) -/

/-- XFER_TX from `cnt` on: its answers, the result, and the answers not consumed. -/
inductive TxLoop (req : Nat) : Nat → List TxAnswer → XferResult → List TxAnswer → Prop
  | completes (as : List TxAnswer) : TxLoop req req as ⟨.kComplete, req, none⟩ as
  | fails {cnt : Nat} (c : ErrCode) (as : List TxAnswer) (hn : cnt < req) :
      TxLoop req cnt (.err c :: as) ⟨.kError, cnt, some c⟩ as
  | closes {cnt : Nat} (as : List TxAnswer) (hn : cnt < req) :
      TxLoop req cnt (.moved 0 :: as) ⟨.kClosed, cnt, none⟩ as
  | moves {cnt k : Nat} {as rest : List TxAnswer} {r : XferResult} (h1 : 1 ≤ k) (hk : cnt + k ≤ req)
      (h : TxLoop req (cnt + k) as r rest) : TxLoop req cnt (.moved k :: as) r rest

/-- XFER_RX from `cnt` on: its turns, the result, the bytes delivered, and the turns not consumed. -/
inductive RxLoop (req : Nat) : Nat → List RxTurn → XferResult → List Byte → List RxTurn → Prop
  | completes (ts : List RxTurn) : RxLoop req req ts ⟨.kComplete, req, none⟩ [] ts
  | expires {cnt : Nat} (ts : List RxTurn) (hn : cnt < req) :
      RxLoop req cnt (.timeout :: ts) ⟨.kPartial, cnt, none⟩ [] ts
  | fails {cnt : Nat} (c : ErrCode) (ts : List RxTurn) (hn : cnt < req) :
      RxLoop req cnt (.err c :: ts) ⟨.kError, cnt, some c⟩ [] ts
  | closes {cnt : Nat} (ts : List RxTurn) (hn : cnt < req) :
      RxLoop req cnt (.moved [] :: ts) ⟨.kClosed, cnt, none⟩ [] ts
  | moves {cnt : Nat} {d sunk : List Byte} {ts rest : List RxTurn} {r : XferResult} (h1 : 1 ≤ d.length)
      (hk : cnt + d.length ≤ req) (h : RxLoop req (cnt + d.length) ts r sunk rest) :
      RxLoop req cnt (.moved d :: ts) r (d ++ sunk) rest

theorem bigTx_loop {cnt : Nat} {answers rest : List TxAnswer} (hcnt : cnt ≤ req)
    (h : bigTx req cnt answers = some (r, rest)) : TxLoop req cnt answers r rest := by
  induction answers generalizing cnt with
  | nil =>
    unfold bigTx at h
    split at h
    · subst cnt
      cases h
      exact .completes []
    · cases h
  | cons a as ih =>
    unfold bigTx at h
    split at h
    · subst cnt
      cases h
      exact .completes (a :: as)
    · have hlt : cnt < req := by omega
      split at h
      · cases h
        exact .fails _ _ hlt
      · cases h
        exact .closes _ hlt
      · split at h
        · cases h
        · exact .moves (Nat.succ_pos _) (by omega) (ih (by omega) h)

theorem bigRx_loop {cnt : Nat} {turns rest : List RxTurn} {sunk : List Byte} (hcnt : cnt ≤ req)
    (h : bigRx req cnt turns = some (r, sunk, rest)) : RxLoop req cnt turns r sunk rest := by
  induction turns generalizing cnt sunk with
  | nil =>
    unfold bigRx at h
    split at h
    · subst cnt
      cases h
      exact .completes []
    · cases h
  | cons a ts ih =>
    unfold bigRx at h
    split at h
    · subst cnt
      cases h
      exact .completes (a :: ts)
    · have hlt : cnt < req := by omega
      split at h
      · cases h
        exact .expires _ hlt
      · cases h
        exact .fails _ _ hlt
      · cases h
        exact .closes _ hlt
      · next b d =>
        split at h
        · cases h
        · next hk =>
          have hk : cnt + (d.length + 1) ≤ req := by omega
          split at h
          · cases h
          · next hrec =>
            cases h
            exact .moves (d := b :: d) (Nat.succ_pos _) hk (ih hk hrec)

/-! ## The loop is bounded (R106) -/

/-- Each answer but the last has moved a byte at least, and the last one of a transfer that ends early finds one missing. -/
theorem TxLoop.bounded {cnt : Nat} {answers rest : List TxAnswer} (h : TxLoop req cnt answers r rest) :
    answers.length + cnt ≤ req + rest.length ∧ r.cnt ≤ req ∧ (r.kind ≠ .kComplete → r.cnt < req) := by
  induction h with
  | completes as => exact ⟨(Nat.add_comm _ _).le, le_rfl, fun hk => absurd rfl hk⟩
  | fails _ as hn | closes as hn => exact ⟨by rw [List.length_cons]; omega, hn.le, fun _ => hn⟩
  | moves _ _ _ ih =>
    obtain ⟨hlen, hend⟩ := ih
    exact ⟨by rw [List.length_cons]; omega, hend⟩

theorem RxLoop.bounded {cnt : Nat} {turns rest : List RxTurn} {sunk : List Byte}
    (h : RxLoop req cnt turns r sunk rest) :
    turns.length + cnt ≤ req + rest.length ∧ r.cnt ≤ req ∧ (r.kind ≠ .kComplete → r.cnt < req) := by
  induction h with
  | completes ts => exact ⟨(Nat.add_comm _ _).le, le_rfl, fun hk => absurd rfl hk⟩
  | expires ts hn | fails _ ts hn | closes ts hn => exact ⟨by rw [List.length_cons]; omega, hn.le, fun _ => hn⟩
  | moves _ _ _ ih =>
    obtain ⟨hlen, hend⟩ := ih
    exact ⟨by rw [List.length_cons]; omega, hend⟩

theorem RxLoop.cnt_eq {cnt : Nat} {turns rest : List RxTurn} {sunk : List Byte}
    (h : RxLoop req cnt turns r sunk rest) : r.cnt = cnt + sunk.length := by
  induction h with
  | completes | expires | fails | closes => rfl
  | moves _ _ _ ih => rw [ih, List.length_append, Nat.add_assoc]

/-- Settles O60: the loop's ways, from a count of 0. -/
theorem transferAttemptsAreBounded : Obligations.TransferAttemptsAreBounded := by
  unfold Obligations.TransferAttemptsAreBounded
  exact ⟨fun n _ _ _ h => (bigTx_loop n.zero_le h).bounded, fun n _ _ _ _ h => (bigRx_loop n.zero_le h).bounded⟩

/-! ## The engine along the loop -/

/-- The engine between two turns, with `n` bytes moved. -/
def Engine.reached (e : Engine) (n : Nat) : Engine :=
  { e with ph := .check, kind := .kNone, cnt := BitVec.ofNat 32 n }

/-- The engine that holds the loop's result (R102). -/
def XferResult.engine (r : XferResult) (e : Engine) : Engine :=
  { e with ph := .done, kind := r.kind, cnt := BitVec.ofNat 32 r.cnt, code := r.code.getD e.code }

section
variable {e : Engine}

theorem Engine.reached_zero (he : e.ph = .check) (hn : e.cnt = 0#32) (hk : e.kind = .kNone) : e.reached 0 = e := by
  rw [Engine.reached, ← he, ← hn, ← hk]

theorem Engine.reached_moved (e : Engine) (n k : Nat) : (e.reached n).moved k = e.reached (n + k) := by
  simp [Engine.reached, Engine.moved, BitVec.ofNat_add]

theorem Engine.toNat_cnt_reached (hn : n ≤ e.req.toNat) : (e.reached n).cnt.toNat = n :=
  Nat.mod_eq_of_lt (Nat.lt_of_le_of_lt hn e.req.isLt)

theorem Engine.left_reached (hn : n ≤ e.req.toNat) : (e.reached n).left = e.req.toNat - n :=
  congrArg (e.req.toNat - ·) (Engine.toNat_cnt_reached hn)

theorem Engine.reached_unsatisfied (hn : n < e.req.toNat) : (e.reached n).cnt < (e.reached n).req := by
  rw [BitVec.lt_def, Engine.toNat_cnt_reached hn.le]
  exact hn

theorem Engine.reached_satisfied : (e.reached e.req.toNat).cnt = (e.reached e.req.toNat).req :=
  BitVec.ofNat_toNat .. |>.trans (BitVec.setWidth_eq _)

end

/-! ## Runs of events -/

theorem handleAll_cons {e : Event} {s t : State} (h : handle e s = .next t) (es : List Event) :
    handleAll (e :: es) s = handleAll es t := by
  rw [handleAll, h]

theorem handleAll_singleton (e : Event) (s : State) : handleAll [e] s = handle e s := by
  rw [handleAll]
  cases handle e s <;> rfl

theorem handleAll_append {es es' : List Event} {s t : State} (h : handleAll es s = .next t) :
    handleAll (es ++ es') s = handleAll es' t := by
  induction es generalizing s with
  | nil =>
    cases h
    rfl
  | cons e es ih =>
    rw [handleAll] at h
    split at h
    · next he => exact (handleAll_cons he _).trans (ih h)
    · cases h
    · cases h

theorem txEvents_cons (r : XferResult) (a : TxAnswer) (as : List TxAnswer) :
    txEvents r (a :: as) = txTurnEvents a ++ txEvents r as := by
  simp [txEvents]

theorem rxEvents_cons (r : XferResult) (a : RxTurn) (ts : List RxTurn) :
    rxEvents r (a :: ts) = rxTurnEvents a ++ rxEvents r ts := by
  simp [rxEvents]

/-! ## Sending (R93, R94) -/

/-- The state `s` with WX at `e` and the bytes `sent` added on the wire. -/
def sendState (s : State) (e : Engine) (sent offer : List Byte) (draws : Nat) (out : List Issue) : State :=
  { s with
    w := { s.w with wx := e }
    env := { s.env with offer := offer, draws := draws, out := out, wireTx := s.env.wireTx ++ sent } }

/-- WR is in a stage whose source is `src`, each byte with one value. -/
structure SendsFrom (src : List Byte) (s : State) : Prop where
  running : s.fatal = false
  moving : writerMoving s
  length : s.w.wx.req.toNat = src.length
  values : ∀ i v, src[i]? = some v → srcValues s i = [v]

section
variable {src sent offer : List Byte} {draws : Nat} {out : List Issue}

/-- With one value for each byte, the offer is the rest of the source. -/
theorem SendsFrom.txSource_eq (hs : SendsFrom src s) (hn : n ≤ src.length) :
    txSource (sendState s (s.w.wx.reached n) sent offer draws out) = some (src.drop n) := by
  have hreq := hs.length
  have hcnt : (s.w.wx.reached n).cnt.toNat = n := Engine.toNat_cnt_reached (hreq ▸ hn)
  have hvalue (i : Nat) (hi : i < src.length) :
      srcValues (sendState s (s.w.wx.reached n) sent offer draws out) i = [src[i]] :=
    hs.values i _ (List.getElem?_eq_getElem hi)
  obtain ⟨bytes, hsource, hlen, hbytes⟩ := txSource_of_present
    (s := sendState s (s.w.wx.reached n) sent offer draws out) hs.moving
    fun i _ (hi : i < s.w.wx.req.toNat) => by simp [hvalue i (hreq ▸ hi)]
  have hlen : bytes.length = src.length - n :=
    (hlen.trans (Engine.left_reached (hreq ▸ hn))).trans (congrArg (· - n) hreq)
  rw [hsource, Option.some.injEq]
  refine List.ext_getElem (by rw [hlen, List.length_drop]) fun j hj _ => ?_
  obtain ⟨v, hv, hj'⟩ := hbytes j hj
  have hv : v ∈ srcValues (sendState s (s.w.wx.reached n) sent offer draws out) (n + j) := hcnt ▸ hv
  rw [hvalue _ (by omega), List.mem_singleton] at hv
  rw [List.getElem?_eq_getElem hj, Option.some.injEq] at hj'
  rw [hj', hv, List.getElem_drop]

/-- A turn offers the rest of the source, and the answer does the rest of it. -/
theorem SendsFrom.turn (hs : SendsFrom src s) (hn : n < src.length) (a : TxAnswer) :
    handleAll (txTurnEvents a) (sendState s (s.w.wx.reached n) sent offer draws out) =
      txAnswered a (sendState s { s.w.wx.reached n with ph := .att } sent (src.drop n) (draws + 1)
        (out ++ [.txAttempt (src.drop n)])) := by
  have hoffer : handle .wr (sendState s (s.w.wx.reached n) sent offer draws out) =
      .next (sendState s { s.w.wx.reached n with ph := .att } sent (src.drop n) (draws + 1)
        (out ++ [.txAttempt (src.drop n)])) :=
    writerStep_offers hs.running hs.moving rfl (Engine.reached_unsatisfied (hs.length ▸ hn)) (hs.txSource_eq hn.le)
  rw [txTurnEvents, handleAll_cons hoffer, handleAll_singleton]
  refine onTxAnswer_of_att ?_ rfl a
  exact hs.running

theorem txAnswered_sendState {e : Engine} {k : Nat} (h1 : 1 ≤ k) (hk : k ≤ e.left) :
    txAnswered (.moved k) (sendState s e sent offer draws out) =
      .next (sendState s (e.moved k) (sent ++ offer.take k) [] draws out) :=
  (txAnswered_moved h1 hk).trans (by simp [sendState])

theorem SendsFrom.turn_moved (hs : SendsFrom src s) {k : Nat} (h1 : 1 ≤ k) (hk : n + k ≤ src.length) :
    handleAll (txTurnEvents (.moved k)) (sendState s (s.w.wx.reached n) (src.take n) offer draws out) =
      .next (sendState s (s.w.wx.reached (n + k)) (src.take (n + k)) [] (draws + 1)
        (out ++ [.txAttempt (src.drop n)])) := by
  have hreq := hs.length
  have hleft : (s.w.wx.reached n).left = s.w.wx.req.toNat - n := Engine.left_reached (by omega)
  rw [← Engine.reached_moved, List.take_add]
  exact (hs.turn (by omega) _).trans (txAnswered_sendState h1 (le_of_le_of_eq (by omega) hleft.symm))

/-- The small steps go the loop's way. -/
theorem TxLoop.run {answers rest : List TxAnswer} (h : TxLoop src.length n answers r rest) (hrest : rest = [])
    (hs : SendsFrom src s) :
    ∃ offer' draws' out',
      handleAll (txEvents r answers) (sendState s (s.w.wx.reached n) (src.take n) offer draws out) =
        .next (sendState s (r.engine s.w.wx) (src.take r.cnt) offer' draws' out') := by
  induction h generalizing offer draws out with
  | completes as =>
    subst hrest
    refine ⟨_, _, _, (handleAll_singleton .wr _).trans (writerStep_completes hs.running hs.moving rfl ?_)⟩
    rw [← hs.length]
    exact Engine.reached_satisfied
  | fails c as hn =>
    subst hrest
    exact ⟨_, _, _, hs.turn hn (.err c)⟩
  | closes as hn =>
    subst hrest
    exact ⟨_, _, _, hs.turn hn (.moved 0)⟩
  | moves h1 hk _ ih =>
    rw [txEvents_cons, handleAll_append (hs.turn_moved h1 hk)]
    exact ih hrest

end

/-- Settles O58: the transfer begins in a `sendState` with nothing sent, and goes the loop's way. -/
theorem sendTransferMeetsBigStep : Obligations.SendTransferMeetsBigStep := by
  unfold Obligations.SendTransferMeetsBigStep
  intro s src answers r hf hm he hn hk hreq hvalues hbig
  have hstart : sendState s (s.w.wx.reached 0) (src.take 0) s.env.offer s.env.draws s.env.out = s := by
    simp [sendState, Engine.reached_zero he hn hk]
  obtain ⟨offer, draws, out, hrun⟩ := (bigTx_loop (Nat.zero_le _) hbig).run rfl ⟨hf, hm, hreq, hvalues⟩
  rw [hstart] at hrun
  exact ⟨_, hrun, rfl, rfl, rfl, rfl, hf, rfl, rfl⟩

/-! ## Receiving (R95 to R98) -/

theorem Be4.setRun_append (b : Be4) (i : Nat) (d d' : List Byte) :
    Be4.setRun b i (d ++ d') = Be4.setRun (Be4.setRun b i d) (i + d.length) d' := by
  induction d generalizing b i with
  | nil => rfl
  | cons v d ih =>
    rw [List.cons_append, Be4.setRun, ih, Be4.setRun, List.length_cons, Nat.add_assoc, Nat.add_comm 1]

theorem Memory.writeRun_append (m : Memory) (h : Handle) (i : Nat) (d d' : List Byte) :
    Memory.writeRun m h i (d ++ d') = Memory.writeRun (Memory.writeRun m h i d) h (i + d.length) d' := by
  induction d generalizing m i with
  | nil => rfl
  | cons v d ih =>
    rw [List.cons_append, Memory.writeRun, ih, Memory.writeRun, List.length_cons, Nat.add_assoc, Nat.add_comm 1]

/-- The state `s` with RX at `e`, the bytes `d` in the stage's sink from its start on, and `wire` on WIRE_RX. -/
def receiveState (s : State) (e : Engine) (d wire : List Byte) (tmr : Nat) (ready : Bool) (out : List Issue) : State :=
  { s with
    r := { s.r with
      b0 := if s.r.ph = .first then d.headD s.r.b0 else s.r.b0
      lenbuf := if s.r.ph = .len then Be4.setRun s.r.lenbuf s.r.zf.toNat d else s.r.lenbuf
      tmr := tmr, rx := e }
    env := { s.env with
      rxReady := ready, wireRx := wire, out := out
      rxbuf := if s.r.ph = .pay then Memory.writeRun s.env.rxbuf s.r.h 0 d else s.env.rxbuf } }

/-- RD is in a stage whose sink has a place for each byte asked for. -/
structure ReceivesInto (s : State) : Prop where
  running : s.fatal = false
  moving : readerMoving s
  storage : s.r.ph = .pay → ∃ size, poolSize s.env.pool s.r.h = some size ∧ s.r.rx.req.toNat ≤ size

section
variable {d wire : List Byte} {tmr : Nat} {ready : Bool} {out : List Issue}

/-- The first byte is the one received with the count at 0. -/
theorem headD_of_count {cnt : Len} (hcnt : cnt.toNat = d.length) (b : List Byte) (b0 : Byte) :
    (if cnt = 0#32 then b.headD (d.headD b0) else d.headD b0) = (d ++ b).headD b0 := by
  cases d with
  | nil => exact if_pos (BitVec.eq_of_toNat_eq hcnt)
  | cons v d =>
    refine if_neg ?_
    rintro rfl
    cases hcnt

/-- Bytes that come after `d` go to the sink after `d`. -/
theorem ReceivesInto.rxSink_eq (hs : ReceivesInto s) {e : Engine} {b : List Byte} (hcnt : e.cnt.toNat = d.length)
    (hreq : d.length + b.length ≤ s.r.rx.req.toNat) :
    rxSink b (receiveState s e d wire tmr ready out) = some (receiveState s e (d ++ b) wire tmr ready out) := by
  obtain ⟨-, hr | hr | hr, hstorage⟩ := hs
  · simp only [rxSink, receiveState, hr, if_true, headD_of_count hcnt, reduceCtorEq, if_false]
  · simp [rxSink, receiveState, hr, Be4.setRun_append, hcnt, Nat.add_comm]
  · obtain ⟨size, hp, hsize⟩ := hstorage hr
    have hroom : e.cnt.toNat + b.length ≤ size := by omega
    rw [rxSink_payload (s := receiveState s e d wire tmr ready out) hr hp hroom]
    simp [receiveState, hr, Memory.writeRun_append, hcnt]

theorem ReceivesInto.rxAnswered_eq (hs : ReceivesInto s) {e : Engine} {b : List Byte} (hcnt : e.cnt.toNat = d.length)
    (hreq : d.length + b.length ≤ s.r.rx.req.toNat) (h1 : 1 ≤ b.length) (hk : b.length ≤ e.left) :
    rxAnswered (.moved b.length) (receiveState s e d b tmr ready out) =
      .next (receiveState s (e.moved b.length) (d ++ b) [] tmr ready out) := by
  have hsink := hs.rxSink_eq (wire := b) (tmr := tmr) (ready := ready) (out := out) hcnt hreq
  have hall : b.take b.length = b := List.take_length
  refine (rxAnswered_moved h1 hk le_rfl ((congrArg (rxSink · _) hall).trans hsink)).trans ?_
  simp [receiveState]

theorem ReceivesInto.arms (hs : ReceivesInto s) (hn : n < s.r.rx.req.toNat) :
    handle .rd (receiveState s (s.r.rx.reached n) d wire tmr ready out) =
      .next (receiveState s { s.r.rx.reached n with ph := .wait } d wire 0 ready out) :=
  readerStep_arms hs.running hs.moving rfl (Engine.reached_unsatisfied hn)

/-- Once the transport is ready, RD asks, and the answer does the rest of the turn. -/
theorem ReceivesInto.asks (hs : ReceivesInto s) (a : RxAnswer) (e : Engine) :
    handleAll [.rxReady true, .rd, .rxAnswer a] (receiveState s { e with ph := .wait } d wire tmr ready out) =
      rxAnswered a (receiveState s { e with ph := .att } d wire tmr true (out ++ [.rxAttempt e.left])) := by
  have hready : handle (.rxReady true) (receiveState s { e with ph := .wait } d wire tmr ready out) =
      .next (receiveState s { e with ph := .wait } d wire tmr true out) := rfl
  have hask : handle .rd (receiveState s { e with ph := .wait } d wire tmr true out) =
      .next (receiveState s { e with ph := .att } d wire tmr true (out ++ [.rxAttempt e.left])) :=
    readerStep_asks hs.running hs.moving rfl rfl
  rw [handleAll_cons hready, handleAll_cons hask, handleAll_singleton]
  refine onRxAnswer_of_att ?_ rfl a
  exact hs.running

/-- Without readiness, the wait ends with the tick that brings the timer to RX_TIMEOUT_TICKS. -/
theorem handleAll_ticks {e : Engine} (hf : s.fatal = false) (k : Nat) (ht : tmr + (k + 1) = Config.rxTimeoutTicks) :
    handleAll (List.replicate (k + 1) .tick) (receiveState s { e with ph := .wait } d wire tmr false out) =
      .next (receiveState s (e.finish .kPartial) d wire Config.rxTimeoutTicks false out) := by
  have htick (m : Nat) : handle .tick (receiveState s { e with ph := .wait } d wire m false out) =
      .next (rxTick Config.rxTimeoutTicks (receiveState s { e with ph := .wait } d wire m false out)) :=
    congrArg _ (if_pos ⟨hf, rfl, rfl⟩)
  induction k generalizing tmr with
  | zero =>
    refine (handleAll_singleton ..).trans ((htick tmr).trans (congrArg _ (if_neg ?_)))
    exact (Nat.lt_irrefl _ <| lt_of_eq_of_lt ht.symm ·)
  | succ k ih =>
    have hadvance : handle .tick (receiveState s { e with ph := .wait } d wire tmr false out) =
        .next (receiveState s { e with ph := .wait } d wire (tmr + 1) false out) :=
      (htick tmr).trans (congrArg _ (if_pos (show tmr + 1 < Config.rxTimeoutTicks by omega)))
    rw [List.replicate_succ, handleAll_cons hadvance]
    exact ih (by omega)

theorem ReceivesInto.turn_timeout (hs : ReceivesInto s) (hn : n < s.r.rx.req.toNat) :
    handleAll (rxTurnEvents .timeout) (receiveState s (s.r.rx.reached n) d wire tmr ready out) =
      .next (receiveState s ((s.r.rx.reached n).finish .kPartial) d wire Config.rxTimeoutTicks false out) := by
  have hready : handle (.rxReady false) (receiveState s { s.r.rx.reached n with ph := .wait } d wire 0 ready out) =
      .next (receiveState s { s.r.rx.reached n with ph := .wait } d wire 0 false out) := rfl
  have hwait := handleAll_ticks (e := s.r.rx.reached n) (d := d) (wire := wire) (out := out) hs.running
    Config.rxTimeoutTicksPred (Nat.zero_add _)
  exact (handleAll_cons (hs.arms hn) _).trans ((handleAll_cons hready _).trans hwait)

theorem ReceivesInto.turn_err (hs : ReceivesInto s) (hn : n < s.r.rx.req.toNat) (c : ErrCode) :
    handleAll (rxTurnEvents (.err c)) (receiveState s (s.r.rx.reached n) d wire tmr ready out) =
      .next (receiveState s ((s.r.rx.reached n).fail c) d wire 0 true
        (out ++ [.rxAttempt (s.r.rx.reached n).left])) :=
  (handleAll_cons (hs.arms hn) _).trans (hs.asks (.err c) _)

/-- A turn that is answered with bytes: they arrive, and the answer moves them. -/
theorem ReceivesInto.turn_answered (hs : ReceivesInto s) (hn : n < s.r.rx.req.toNat) (b : List Byte) :
    handleAll (rxTurnEvents (.moved b)) (receiveState s (s.r.rx.reached n) d [] tmr ready out) =
      rxAnswered (.moved b.length) (receiveState s { s.r.rx.reached n with ph := .att } d b 0 true
        (out ++ [.rxAttempt (s.r.rx.reached n).left])) := by
  have harrive : handle (.arrive b) (receiveState s { s.r.rx.reached n with ph := .wait } d [] 0 ready out) =
      .next (receiveState s { s.r.rx.reached n with ph := .wait } d b 0 ready out) := rfl
  exact (handleAll_cons (hs.arms hn) _).trans ((handleAll_cons harrive _).trans (hs.asks (.moved b.length) _))

theorem ReceivesInto.turn_moved (hs : ReceivesInto s) {b : List Byte} (h1 : 1 ≤ b.length)
    (hk : d.length + b.length ≤ s.r.rx.req.toNat) :
    handleAll (rxTurnEvents (.moved b)) (receiveState s (s.r.rx.reached d.length) d [] tmr ready out) =
      .next (receiveState s (s.r.rx.reached (d.length + b.length)) (d ++ b) [] 0 true
        (out ++ [.rxAttempt (s.r.rx.reached d.length).left])) := by
  have hcnt : (s.r.rx.reached d.length).cnt.toNat = d.length := Engine.toNat_cnt_reached (by omega)
  have hleft : (s.r.rx.reached d.length).left = s.r.rx.req.toNat - d.length := Engine.left_reached (by omega)
  rw [← Engine.reached_moved]
  exact (hs.turn_answered (by omega) b).trans
    (hs.rxAnswered_eq (e := { s.r.rx.reached d.length with ph := .att }) hcnt hk h1
      (le_of_le_of_eq (by omega) hleft.symm))

/-- The small steps go the loop's way. -/
theorem RxLoop.run {turns rest : List RxTurn} {sunk : List Byte} (h : RxLoop s.r.rx.req.toNat n turns r sunk rest)
    (hrest : rest = []) (hn : n = d.length) (hs : ReceivesInto s) :
    ∃ tmr' ready' out',
      handleAll (rxEvents r turns) (receiveState s (s.r.rx.reached n) d [] tmr ready out) =
        .next (receiveState s (r.engine s.r.rx) (d ++ sunk) [] tmr' ready' out') := by
  induction h generalizing d tmr ready out with
  | completes ts =>
    subst hrest
    rw [List.append_nil]
    exact ⟨_, _, _, (handleAll_singleton .rd _).trans
      (readerStep_completes hs.running hs.moving rfl Engine.reached_satisfied)⟩
  | expires ts hlt =>
    subst hrest
    rw [List.append_nil, rxEvents_cons, handleAll_append (hs.turn_timeout hlt)]
    exact ⟨_, _, _, rfl⟩
  | fails c ts hlt =>
    subst hrest
    rw [List.append_nil, rxEvents_cons, handleAll_append (hs.turn_err hlt c)]
    exact ⟨_, _, _, rfl⟩
  | closes ts hlt =>
    subst hrest
    rw [List.append_nil]
    exact ⟨_, _, _, hs.turn_answered hlt []⟩
  | moves h1 hk _ ih =>
    subst hn
    rw [rxEvents_cons, handleAll_append (hs.turn_moved h1 hk), ← List.append_assoc]
    exact ih hrest List.length_append.symm

end

/-- Settles O59: the transfer begins in a `receiveState` with nothing received, and goes the loop's way; the sinks of its bytes
are read element by element. -/
theorem receiveTransferMeetsBigStep : Obligations.ReceiveTransferMeetsBigStep := by
  unfold Obligations.ReceiveTransferMeetsBigStep
  intro s turns r sunk hf hm he hn hk hwire _ hlen hstorage hbig
  have hloop := bigRx_loop (Nat.zero_le _) hbig
  have hcnt : r.cnt = sunk.length := hloop.cnt_eq.trans (Nat.zero_add _)
  have hreq : r.cnt ≤ s.r.rx.req.toNat := hloop.bounded.2.1
  have hstart : receiveState s (s.r.rx.reached 0) [] s.env.wireRx s.r.tmr s.env.rxReady s.env.out = s := by
    simp [receiveState, Be4.setRun, Memory.writeRun, Engine.reached_zero he hn hk]
  obtain ⟨tmr, ready, out, hrun⟩ := hloop.run (d := []) rfl rfl ⟨hf, hm, hstorage⟩
  rw [hwire] at hstart
  rw [hstart, List.nil_append] at hrun
  refine ⟨_, _, _, tmr, hrun, rfl, hcnt.symm, rfl, fun i => ?_, fun a => ?_, rfl, rfl, rfl, rfl, hf⟩
  · by_cases hr : s.r.ph = .len
    · have hfour : s.r.zf.toNat + s.r.rx.req.toNat = 4 := by
        rw [hlen hr]
        cases s.r.zf <;> rfl
      have hfit : s.r.zf.toNat + sunk.length ≤ 4 := by omega
      simp [hr, Be4.setRun_getElem? _ _ _ _ hfit, hcnt]
    · simp [hr]
  · by_cases hr : s.r.ph = .pay
    · simp [receiveState, hr, Memory.read_writeRun, hcnt]
    · simp [receiveState, hr]

end Sys2Proof.Machine
end

section
/-! PROOF. The Frame Writer's own steps one by one (R111 to R115, R168): O9, O27 and O28. -/

namespace Sys2Proof.Machine

variable {s : State}

/-! ## The accept (R111) -/

/-- What an accept writes. -/
theorem acceptSend_eq (flag : FlagIn) (len : LenIn) (base : Handle) (s : State) :
    acceptSend flag len base s = { s with
      w := { s.w with
        flagIn := flag, tlen := len, tbase := base, fb := flag.extractLsb' 0 8,
        status := .stNone, stage := .stgNone, got := 0#32, exp := 0#32, errcode := 0#32,
        wx := if flag = 0#32 then s.w.wx else s.w.wx.start 1#32,
        ph := if flag = 0#32 then .chk else .flag }
      env := { s.env with older := [] } } := by
  have hfb : flag.setWidth 8 = flag.extractLsb' 0 8 := BitVec.setWidth_eq_extractLsb' (by decide)
  by_cases hflag : flag = 0#32 <;> simp [acceptSend, Machine.flagSent, hflag, hfb, Writer.cleared]

/-- Settles O9: an idle WR takes `acceptSend`. -/
theorem sendTokenAccepted : Obligations.SendTokenAccepted := by
  unfold Obligations.SendTokenAccepted
  intro flag len base s hf hw
  have hexec : exec (.sendToken flag len base) s = .next (acceptSend flag len base s) := acceptW_of_ready hf hw
  exact ⟨[], hexec.trans (congrArg _ (acceptSend_eq flag len base s))⟩

/-! ## The sequencer (R112 to R115) -/

theorem handle_wr_of_busy (hf : s.fatal = false) (hw : s.w.ph ≠ .idle) : handle .wr s = writerBusyStep s :=
  (running_of_not_fatal hf _).trans (if_neg hw)

/-- With the engine done, WR's step in a stage is the stage's end. -/
theorem handle_wr_of_done {ended : State} (hf : s.fatal = false) (hd : s.w.wx.ph = .done) (hw : s.w.ph ≠ .idle)
    (hstage : writerBusyStep s = txStage ended s) : handle .wr s = .next ended := by
  rw [handle_wr_of_busy hf hw, hstage, txStage, hd]

/-- Settles O27: the ends of the stages are `flagEnded`, `lengthEnded` and `payloadEnded`. -/
theorem writerStagesEnd : Obligations.WriterStagesEnd := by
  unfold Obligations.WriterStagesEnd
  intro s hf hd
  have htlen : s.w.tlen.extractLsb' 0 32 = s.w.tlen.setWidth 32 :=
    (BitVec.setWidth_eq_extractLsb' (by decide)).symm
  rw [htlen]
  refine ⟨fun hw => ?_, fun hw => ?_, fun hw => ?_⟩
  · exact handle_wr_of_done hf hd (by simp [hw]) (ended := flagEnded s) (by rw [writerBusyStep, hw])
  · exact handle_wr_of_done hf hd (by simp [hw]) (ended := lengthEnded s) (by rw [writerBusyStep, hw])
  · exact handle_wr_of_done hf hd (by simp [hw]) (ended := payloadEnded s) (by rw [writerBusyStep, hw])

/-- The encoded low half of a length (R80, R113): the bytes are the length's own. -/
theorem encBytes_setWidth (len : LenIn) :
    encBytes (len.setWidth 32) =
      ⟨len.extractLsb' 24 8, len.extractLsb' 16 8, len.extractLsb' 8 8, len.extractLsb' 0 8⟩ := by
  simp [encBytes, BitVec.extractLsb'_setWidth_of_le]

/-- Settles O28: in `W_CHK` WR's step is `checkLength`, whose test is the statement's. -/
theorem oversizeTestDecides : Obligations.OversizeTestDecides := by
  unfold Obligations.OversizeTestDecides
  intro s hf hw
  have hstep : handle .wr s = .next (checkLength s) := by
    rw [handle_wr_of_busy hf (by simp [hw]), writerBusyStep, hw]
  rw [hstep, ← encBytes_setWidth]
  refine ⟨fun hl => congrArg _ ?_, fun hl => congrArg _ ?_⟩
  · exact (if_pos (decide_eq_true hl)).trans (fatalStop_eq s)
  · exact if_neg (by simpa [oversized] using hl)

end Sys2Proof.Machine
end

section
/-! PROOF. What a SEND_TOKEN puts on the wire (R60, R118): O55 and O56.

The idea: `Sending` says that the wire holds `stagesBefore ++ stageBytes`, the latter cut at `WX_CNT`. A stage that ends complete
is on the wire whole, and the next phase begins where it ended; a stage that fails is cut short of its end. So the wire holds a
front of the frame at all times, and all of it at the end of a command that does not fail. -/

namespace Sys2Proof.Machine

variable {e : Event} {s t : State} {before payload : List Byte}

/-! ## What a stage has (R107) -/

/-- What `Sending` says of the token: if it fits, its bytes stand in the store, unchanged since the accept (R201). -/
def TokenKept (payload : List Byte) (s : State) : Prop :=
  s.w.tlen.toNat ≤ 4294967295 → payload.length = s.w.tlen.toNat ∧
    ∀ i v, payload[i]? = some v →
      Memory.read s.env.toksrc (cellAddr s.w.tbase i) = some v ∧ tokValues s i = [v]

/-- A stage asks for as many bytes as it has. -/
theorem stageBytes_length (hfit : WriterFits s) (htok : TokenKept payload s) (hm : writerMoving s) :
    s.w.wx.req.toNat = (stageBytes payload s).length := by
  obtain ⟨-, p⟩ := writerFits_iff.1 hfit
  obtain hw | hw | hw := hm <;> simp only [stageBytes, hw]
  · simp [(p.flagStage hw).1]
  · simp [p.lengthStage hw, Be4.length_toList]
  · have hl := (p.length (.inr hw)).1
    rw [p.payloadStage hw, (htok hl).1, BitVec.toNat_setWidth]
    exact Nat.mod_eq_of_lt (Nat.lt_succ_of_le hl)

theorem srcValues_of_stageBytes (hfit : WriterFits s) (htok : TokenKept payload s) (hm : writerMoving s) {i : Nat} {v : Byte}
    (hi : (stageBytes payload s)[i]? = some v) : srcValues s i = [v] := by
  obtain ⟨-, p⟩ := writerFits_iff.1 hfit
  obtain hw | hw | hw := hm <;> simp only [stageBytes, hw] at hi <;> simp only [srcValues, hw]
  · rw [hi]; rfl
  · rw [hi]; rfl
  · exact ((htok (p.length (.inr hw)).1).2 i v hi).2

/-- The stage's bytes are the source of the transfer. -/
theorem sendsFrom_stageBytes (hfit : WriterFits s) (htok : TokenKept payload s) (hm : writerMoving s) :
    SendsFrom (stageBytes payload s) s where
  running := by
    have hhalt : s.w.ph ≠ .halt := fun hw => not_writerMoving (.inr (.inr hw)) hm
    simpa [hhalt] using (writerFits_iff.1 hfit).2.halted
  moving := hm
  length := stageBytes_length hfit htok hm
  values _ _ := srcValues_of_stageBytes hfit htok hm

/-- An attempt offers the rest of the stage. -/
theorem txSource_of_tokenKept (hfit : WriterFits s) (htok : TokenKept payload s) (hm : writerMoving s)
    (he : s.w.wx.ph = .check) : txSource s = some ((stageBytes payload s).drop s.w.wx.cnt.toNat) := by
  obtain ⟨x, -⟩ := writerFits_iff.1 hfit
  have hsrc := sendsFrom_stageBytes hfit htok hm
  obtain ⟨hle, -⟩ := x.fits
  obtain ⟨-, hkind⟩ := x.fits.kind_of_check he
  have hcnt : s.w.wx.cnt.toNat ≤ (stageBytes payload s).length := hsrc.length ▸ hle
  have hnow : sendState s (s.w.wx.reached s.w.wx.cnt.toNat) [] s.env.offer s.env.draws s.env.out = s := by
    simp [sendState, Engine.reached, ← he, ← hkind]
  have hoffer := hsrc.txSource_eq (sent := []) (offer := s.env.offer) (draws := s.env.draws) (out := s.env.out) hcnt
  rwa [hnow] at hoffer

/-- A stage that ended complete is on the wire whole. -/
theorem sentSoFar_of_complete (hfit : WriterFits s) (htok : TokenKept payload s) (hm : writerMoving s)
    (hk : s.w.wx.kind = .kComplete) : sentSoFar payload s = stagesBefore s ++ stageBytes payload s := by
  obtain ⟨-, -, -, -, -, hcomplete, -⟩ := (writerFits_iff.1 hfit).1.fits
  rw [sentSoFar, hcomplete hk, stageBytes_length hfit htok hm, List.take_length]

/-- Before a stage has moved a byte, the stages before it are on the wire. -/
theorem sentSoFar_of_start (hn : s.w.wx.cnt = 0#32) : sentSoFar payload s = stagesBefore s := by
  simp [sentSoFar, hn]

/-- Between the flag stage and the length stage, and after the fatal stop, the flag byte is on the wire, if there is one. -/
theorem sentSoFar_of_no_stage (hw : s.w.ph = .chk ∨ s.w.ph = .halt) : sentSoFar payload s = flagBytes s.w.flagIn := by
  obtain hw | hw := hw <;> simp [sentSoFar, stagesBefore, stageBytes, hw]

theorem flagBytes_of_ne_zero {flag : FlagIn} (h : flag ≠ 0#32) : flagBytes flag = [flag.setWidth 8] := if_neg h

/-! ## Sending is kept (R118) -/

theorem acceptSend_sending (flag : FlagIn) (len : LenIn) (base : Handle) (hd : s.w.wx.ph = .done)
    (htok : len.toNat ≤ 4294967295 → payload.length = len.toNat ∧
      ∀ i v, payload[i]? = some v → Memory.read s.env.toksrc (cellAddr base i) = some v) :
    Sending s.env.wireTx payload (acceptSend flag len base s) := by
  rw [acceptSend_eq]
  refine ⟨?_, ?_, fun hl => ⟨(htok hl).1, fun i v hi => ?_⟩, ?_⟩
  · by_cases hflag : flag = 0#32 <;> simp [hflag]
  · by_cases hflag : flag = 0#32 <;>
      simp [sentSoFar, stagesBefore, stageBytes, flagBytes, hflag, Engine.start]
  · have hread := (htok hl).2 i v hi
    exact ⟨hread, by simp [tokValues, hread]⟩
  · by_cases hflag : flag = 0#32 <;> simp [hflag, hd, Engine.start]

/-- A step that starts or ends a stage keeps `Sending` when it leaves token and wire as they are and the new phase takes as sent
what the old one did. -/
theorem Sending.advance (hs : Sending before payload s) (hbusy : t.w.ph ≠ .idle) (hatt : t.w.wx.ph ≠ .att)
    (htok : TokenKept payload t) (hwire : t.env.wireTx = s.env.wireTx)
    (hsent : sentSoFar payload t = sentSoFar payload s) : Sending before payload t := by
  obtain ⟨-, hwire', -, -⟩ := hs
  exact ⟨hbusy, by rw [hwire, hwire', hsent], htok, fun ha => absurd ha hatt⟩

theorem WriterStepped.keeps_sending (h : WriterStepped s t) (hfit : WriterFits s) (hs : Sending before payload s)
    (ht : t.w.ph ≠ .idle) : Sending before payload t := by
  have ⟨hbusy, hwire, htok, _⟩ := hs
  obtain ⟨x, p⟩ := writerFits_iff.1 hfit
  cases h with
  | idle | halted | waits | overrun => exact hs
  | sends _ _ _ _ _ hw | rejects _ _ hw => exact absurd hw hbusy
  | completes => exact hs.advance hbusy nofun htok rfl rfl
  | offers bytes hm he _ hb =>
    rw [txSource_of_tokenKept hfit htok hm he, Option.some.injEq] at hb
    exact ⟨hbusy, hwire, htok, fun _ => hb.symm⟩
  | flagSent hw he hk =>
    have hsent : flagBytes s.w.flagIn = sentSoFar payload s := by
      rw [sentSoFar_of_complete hfit htok (.inl hw) hk, flagBytes_of_ne_zero (p.flagStage hw).2, ← p.flagByte hbusy]
      simp [stagesBefore, stageBytes, hw]
    exact hs.advance nofun (by simp [he]) htok rfl ((sentSoFar_of_no_stage (.inl rfl)).trans hsent)
  | oversized hw =>
    have hd : s.w.wx.ph = .done := x.fits.done (not_writerMoving (.inr (.inl hw)))
    exact hs.advance nofun (by simp [fatalStop_eq, hd]) htok rfl
      ((sentSoFar_of_no_stage (.inr rfl)).trans (sentSoFar_of_no_stage (.inl hw)).symm)
  | encodes hw =>
    exact hs.advance nofun nofun htok rfl ((sentSoFar_of_start rfl).trans (sentSoFar_of_no_stage (.inl hw)).symm)
  | lengthSent hw _ hk =>
    have hsent : flagBytes s.w.flagIn ++ s.w.lenbuf.toList = sentSoFar payload s := by
      rw [sentSoFar_of_complete hfit htok (.inr (.inl hw)) hk]
      simp [stagesBefore, stageBytes, hw]
    exact hs.advance nofun nofun htok rfl ((sentSoFar_of_start rfl).trans hsent)
  | payloadSent => exact absurd rfl ht
  | fails => exact absurd (by rw [fail_wr_eq]) ht

/-- An answer within its range takes the count no further than the bytes asked for. -/
theorem Engine.toNat_cnt_moved {x : Engine} {k : Nat} (hk : k ≤ x.left) : (x.moved k).cnt.toNat = x.cnt.toNat + k := by
  have hreq := x.req.isLt
  simp only [Engine.left] at hk
  simp only [Engine.moved, BitVec.toNat_add, BitVec.toNat_ofNat]
  omega

theorem TxAnswered.keeps_sending {a : TxAnswer} (h : TxAnswered s a t) (hatt : s.w.wx.ph = .att)
    (hs : Sending before payload s) : Sending before payload t := by
  obtain ⟨hbusy, hwire, htok, hoffer⟩ := hs
  cases h with
  | failed | closed => exact ⟨hbusy, hwire, htok, nofun⟩
  | moved k _ hl =>
    refine ⟨hbusy, ?_, htok, nofun⟩
    show s.env.wireTx ++ s.env.offer.take k =
      before ++ (stagesBefore s ++ (stageBytes payload s).take (s.w.wx.moved k).cnt.toNat)
    rw [hwire, hoffer hatt, Engine.toNat_cnt_moved hl, List.take_add, sentSoFar]
    simp only [List.append_assoc]

/-- The host's write keeps the token when it gives none of its bytes another value. -/
theorem TokenKept.placeByte (h : TokenKept payload s) (b : Handle) (i : Len) (v : Byte)
    (hsame : b = s.w.tbase → ∀ u, payload[i.toNat]? = some u → u = v) : TokenKept payload (placeByte b i v s) := by
  intro hl
  obtain ⟨hlen, hbytes⟩ := h hl
  refine ⟨hlen, fun j u hj => ?_⟩
  obtain ⟨hread, hvalues⟩ := hbytes j u hj
  have hlast : j < payload.length := (List.getElem?_eq_some_iff.1 hj).1
  obtain ⟨j, rfl⟩ : ∃ k : Len, k.toNat = j :=
    ⟨BitVec.ofNat 32 j, Nat.mod_eq_of_lt (Nat.lt_succ_of_le (hlast.le.trans (hlen ▸ hl)))⟩
  by_cases hc : cellAddr b i.toNat = cellAddr s.w.tbase j.toNat
  · obtain ⟨rfl, rfl⟩ := cellAddr_inj hc
    obtain rfl := hsame rfl u hj
    exact ⟨Memory.read_write_same _ _ _, (tokValues_placeByte_same hread).trans hvalues⟩
  · exact ⟨(Memory.read_write_other _ _ hc).trans hread, (tokValues_placeByte_other v hc).trans hvalues⟩

theorem EnvStepped.keeps_sending (h : EnvStepped s e t) (hs : Sending before payload s)
    (hplace : ∀ (i : Len) (u v : Byte), e = .placeTok s.w.tbase i v → payload[i.toNat]? = some u → u = v)
    (hlate : ∀ i k bytes, e = .lateAnswer i (.moved k) → s.env.forgotten[i]? ≠ some (.tx bytes)) :
    Sending before payload t := by
  obtain ⟨hbusy, hwire, htok, hoffer⟩ := hs
  cases h with
  | places b i v =>
    have hkept : TokenKept payload s := htok
    exact ⟨hbusy, hwire, hkept.placeByte b i v fun hb u => hplace i u v (by rw [hb]), hoffer⟩
  | late i a _ hl =>
    cases hl with
    | sent bytes k hi => exact absurd hi (hlate i k bytes rfl)
    | _ => exact ⟨hbusy, hwire, htok, hoffer⟩
  | _ => exact ⟨hbusy, hwire, htok, hoffer⟩

/-- RD's events leave all that `Sending` speaks of. -/
theorem Sending.of_readers (hs : Sending before payload s) (he : Event.isReaders e = true) (h : handle e s = .next t) :
    Sending before payload t := by
  rw [handle_readers_frame he h]
  exact hs

theorem handle_keeps_sending (h : handle e s = .next t) (hfit : WriterFits s) (hs : Sending before payload s)
    (hne : e ≠ .reset)
    (hplace : ∀ (i : Len) (u v : Byte), e = .placeTok s.w.tbase i v → payload[i.toNat]? = some u → u = v)
    (hlate : ∀ i k bytes, e = .lateAnswer i (.moved k) → s.env.forgotten[i]? ≠ some (.tx bytes))
    (ht : t.w.ph ≠ .idle) : Sending before payload t := by
  cases handle_cases h with
  | writes _ hw => exact hw.keeps_sending hfit hs ht
  | txAnswered _ _ hatt ha => exact ha.keeps_sending hatt hs
  | reads | rxAnswered | allocAnswered | ticks => exact hs.of_readers rfl h
  | resets => exact absurd rfl hne
  | acts _ _ henv => exact henv.keeps_sending hs hplace hlate
  | discards => exact hs

/-- A command ends in a step of WR's own, which puts nothing on the wire. -/
theorem handle_ends_send (h : handle e s = .next t) (hne : e ≠ .reset) (hs : s.w.ph ≠ .idle) (ht : t.w.ph = .idle) :
    t.env.wireTx = s.env.wireTx := by
  cases handle_writerHandled h with
  | steps _ _ hw => exact hw.wireTx_eq
  | answered _ _ _ ha => cases ha <;> exact absurd ht hs
  | resets => exact absurd rfl hne
  | untouched _ _ hw => exact absurd (hw ▸ ht) hs

/-- Settles O55: the accept begins with nothing sent, and each way an event can go keeps `Sending` or ends the command. -/
theorem sendingIsKept : Obligations.SendingIsKept := by
  unfold Obligations.SendingIsKept
  refine ⟨fun flag len base payload s t hw hd htok h => ?_, fun e before payload s t hfit hs h hne hplace hlate =>
    ⟨handle_keeps_sending h hfit hs hne hplace hlate, fun ht => ?_⟩⟩
  · obtain ⟨-, h⟩ := acceptW_eq_next.1 h
    rw [if_pos hw] at h
    exact h ▸ acceptSend_sending flag len base hd htok
  · obtain ⟨hbusy, hwire, -, -⟩ := hs
    exact (handle_ends_send h hne hbusy ht).trans hwire

/-! ## The frame (R60, R118) -/

/-- The frame of a token that fits, else its flag byte, if there is one. -/
def frameOf (payload : List Byte) (s : State) : List Byte :=
  if s.w.tlen.toNat ≤ 4294967295 then frameBytes s.w.flagIn payload else flagBytes s.w.flagIn

theorem flagBytes_prefix_frameOf (payload : List Byte) (s : State) : flagBytes s.w.flagIn <+: frameOf payload s := by
  unfold frameOf
  split
  · rw [frameBytes, List.append_assoc]
    exact List.prefix_append _ _
  · exact List.prefix_rfl

/-- In the last two stages the frame is flag byte, length buffer and payload. -/
theorem frameOf_of_length (p : SendStageFits s.fatal s.w) (htok : TokenKept payload s)
    (hw : s.w.ph = .len ∨ s.w.ph = .pay) :
    frameOf payload s = flagBytes s.w.flagIn ++ s.w.lenbuf.toList ++ payload := by
  obtain ⟨hl, hbuf⟩ := p.length hw
  have hlen : BitVec.ofNat 32 payload.length = s.w.tlen.setWidth 32 := by
    rw [(htok hl).1, BitVec.ofNat_toNat]
  rw [frameOf, if_pos hl, frameBytes, hlen, hbuf]

/-- The stages up to the one in progress are the front of the frame. -/
theorem stages_prefix_frameOf (hfit : WriterFits s) (htok : TokenKept payload s) (hbusy : s.w.ph ≠ .idle) :
    stagesBefore s ++ stageBytes payload s <+: frameOf payload s := by
  obtain ⟨-, p⟩ := writerFits_iff.1 hfit
  have hflag := flagBytes_prefix_frameOf payload s
  cases hw : s.w.ph with
  | idle => exact absurd hw hbusy
  | flag =>
    rw [flagBytes_of_ne_zero (p.flagStage hw).2, ← p.flagByte hbusy] at hflag
    simpa [stagesBefore, stageBytes, hw] using hflag
  | chk | halt => simpa [stagesBefore, stageBytes, hw] using hflag
  | len =>
    rw [frameOf_of_length p htok (.inl hw)]
    simp [stagesBefore, stageBytes, hw]
  | pay =>
    rw [frameOf_of_length p htok (.inr hw)]
    simp [stagesBefore, stageBytes, hw]

theorem sentSoFar_prefix_frameOf (hfit : WriterFits s) (hs : Sending before payload s) :
    sentSoFar payload s <+: frameOf payload s := by
  obtain ⟨hbusy, -, htok, -⟩ := hs
  exact ((List.prefix_append_right_inj _).2 (List.take_prefix _ _)).trans (stages_prefix_frameOf hfit htok hbusy)

/-- A transfer that ended and is not complete is short of what it was asked for. -/
theorem EngineFits.cnt_lt_of_failed {busy : Prop} {x : Engine} (h : EngineFits busy x) (hb : busy) (he : x.ph = .done)
    (hk : x.kind ≠ .kComplete) : x.cnt < x.req := by
  obtain ⟨-, -, -, -, hnone, -, hshort⟩ := h
  refine hshort ?_
  cases hkind : x.kind with
  | kNone => exact absurd hkind (hnone he hb)
  | kComplete => exact absurd hkind hk
  | kPartial => exact .inl rfl
  | kClosed => exact .inr (.inl rfl)
  | kError => exact .inr (.inr rfl)

/-- What a failed stage leaves on the wire: the stages before it and its first WX_CNT bytes, less than the frame. -/
theorem sentSoFar_of_failed (hfit : WriterFits s) (hs : Sending before payload s) (hm : writerMoving s)
    (he : s.w.wx.ph = .done) (hk : s.w.wx.kind ≠ .kComplete) :
    (stagesBefore s).length + s.w.wx.cnt.toNat < (frameOf payload s).length ∧
      sentSoFar payload s = (frameOf payload s).take ((stagesBefore s).length + s.w.wx.cnt.toNat) := by
  have hprefix := sentSoFar_prefix_frameOf hfit hs
  obtain ⟨hbusy, -, htok, -⟩ := hs
  have hcnt : s.w.wx.cnt.toNat < (stageBytes payload s).length :=
    stageBytes_length hfit htok hm ▸ (writerFits_iff.1 hfit).1.fits.cnt_lt_of_failed hm he hk
  have hlen : (sentSoFar payload s).length = (stagesBefore s).length + s.w.wx.cnt.toNat := by
    simp [sentSoFar, hcnt.le]
  have hstages := (stages_prefix_frameOf hfit htok hbusy).length_le
  rw [List.length_append] at hstages
  exact ⟨by omega, hlen ▸ List.prefix_iff_eq_take.1 hprefix⟩

theorem length_flagBytes (flag : FlagIn) : (flagBytes flag).length = if flag = 0#32 then 0 else 1 := by
  unfold flagBytes
  split <;> rfl

theorem failStatus_cases (k : XKind) : failStatus k = .stShortTransfer ∨ failStatus k = .stTransportError := by
  cases k <;> simp [failStatus]

/-- How a SEND_TOKEN ends: `ST_OK` or `ST_OVERSIZED` with the frame on the wire, or in a failed stage with its front. -/
theorem WriterStepped.ends_send (h : WriterStepped s t) (hf : s.fatal = false) (hfit : WriterFits s)
    (hs : Sending before payload s) (ht : t.w.ph = .idle ∨ t.w.ph = .halt) :
    ((t.w.status = .stOk ∨ t.w.status = .stOversized) ∧ sentSoFar payload s = frameOf payload s) ∨
    ((t.w.status = .stShortTransfer ∨ t.w.status = .stTransportError) ∧
      ∃ m, m < (frameOf payload s).length ∧ sentSoFar payload s = (frameOf payload s).take m ∧
        ((t.w.stage = .stgFlag ∧ m = t.w.got.toNat) ∨
          (t.w.stage = .stgLength ∧ m = (flagBytes s.w.flagIn).length + t.w.got.toNat) ∨
          (t.w.stage = .stgPayload ∧ m = (flagBytes s.w.flagIn).length + 4 + t.w.got.toNat))) := by
  have hfailed := sentSoFar_of_failed hfit hs
  obtain ⟨hbusy, -, htok, -⟩ := hs
  obtain ⟨-, p⟩ := writerFits_iff.1 hfit
  have hhalt : s.w.ph ≠ .halt := fun hw => Bool.false_ne_true (hf.symm.trans (p.halted.2 hw))
  have hstopped : ¬ (s.w.ph = .idle ∨ s.w.ph = .halt) := not_or.2 ⟨hbusy, hhalt⟩
  cases h with
  | idle | halted | waits | overrun | completes | offers => exact absurd ht hstopped
  | sends _ _ _ _ _ hw | rejects _ _ hw => exact absurd hw hbusy
  | flagSent | encodes | lengthSent => simp at ht
  | oversized hw hl =>
    refine .inl ⟨.inr rfl, ?_⟩
    rw [sentSoFar_of_no_stage (.inl hw), frameOf, if_neg (Nat.not_le.2 hl)]
  | payloadSent hw _ hk =>
    refine .inl ⟨.inl rfl, ?_⟩
    rw [sentSoFar_of_complete hfit htok (.inr (.inr hw)) hk, frameOf_of_length p htok (.inr hw)]
    simp [stagesBefore, stageBytes, hw]
  | fails stage exp he hk hstage =>
    rw [fail_wr_eq]
    refine .inr ⟨failStatus_cases _, (stagesBefore s).length + s.w.wx.cnt.toNat, ?_⟩
    obtain ⟨hw, rfl, -⟩ | ⟨hw, rfl, -⟩ | ⟨hw, rfl, -⟩ := hstage
    · obtain ⟨hlt, hsent⟩ := hfailed (.inl hw) he hk
      exact ⟨hlt, hsent, .inl ⟨rfl, by simp [stagesBefore, hw]⟩⟩
    · obtain ⟨hlt, hsent⟩ := hfailed (.inr (.inl hw)) he hk
      exact ⟨hlt, hsent, .inr (.inl ⟨rfl, by simp [stagesBefore, hw]⟩)⟩
    · obtain ⟨hlt, hsent⟩ := hfailed (.inr (.inr hw)) he hk
      exact ⟨hlt, hsent, .inr (.inr ⟨rfl, by simp [stagesBefore, hw, Be4.length_toList]⟩)⟩

/-- Settles O56: what is on the wire is the front of the frame, up to the end of a complete stage or the count of a failed one. -/
theorem sentIsAPrefixOfTheFrame : Obligations.SentIsAPrefixOfTheFrame := by
  unfold Obligations.SentIsAPrefixOfTheFrame
  intro before payload frame h s hfit hs hfits hover hh
  have hframe : frame = frameOf payload s := by
    unfold frameOf
    split
    · next hl => exact hfits hl
    · next hl =>
      rw [hover (Nat.lt_of_not_le hl), flagBytes, BitVec.setWidth_eq_extractLsb' (by decide)]
  rw [← length_flagBytes] at hh
  subst hframe hh
  have ⟨_, hwire, _, _⟩ := hs
  refine ⟨sentSoFar_prefix_frameOf hfit hs, fun t hstep ht => ?_⟩
  obtain ⟨hf, hw⟩ := writerStep_cases hstep
  rw [hw.wireTx_eq, hwire]
  obtain ⟨hok, hsent⟩ | ⟨hbad, m, hm, hsent, hstage⟩ := hw.ends_send hf hfit hs ht
  · exact .inl ⟨hok, by rw [hsent]⟩
  · exact .inr ⟨hbad, m, hm, by rw [hsent], hstage⟩

end Sys2Proof.Machine
end

section
/-! PROOF. What a RECV_TOKEN takes from its stream (R139): O57.

The idea: a stage that ended complete has consumed what the next phase counts as consumed when it starts, so RD's own steps keep
`consumed`, and a moved attempt alone grows it, by the bytes it takes. A command ends in a step of RD's own, or for want of memory,
and with it nothing is taken: the counts of the stage in progress are those of its result. -/

namespace Sys2Proof.Machine

variable {e : Event} {s t : State}

/-! ## What a stage has consumed -/

theorem consumed_of_r_eq (h : t.r = s.r) : consumed t = consumed s := by
  simp [consumed, headerSize, h]

theorem EngineFits.cnt_of_complete {busy : Prop} {x : Engine} (h : EngineFits busy x) (hk : x.kind = .kComplete) :
    x.cnt = x.req := by
  obtain ⟨-, -, -, -, -, hcomplete, -⟩ := h
  exact hcomplete hk

/-- A first-byte stage that ended complete has consumed one byte. -/
theorem consumed_of_first (hs : ReaderFits s) (hr : s.r.ph = .first) (hk : s.r.rx.kind = .kComplete) : consumed s = 1 := by
  obtain ⟨x, p⟩ := readerFits_iff.1 hs
  simp [consumed, hr, x.fits.cnt_of_complete hk, p.first hr]

/-- A length stage that ended complete has consumed the header. -/
theorem consumed_of_length (hs : ReaderFits s) (hr : s.r.ph = .len) (hk : s.r.rx.kind = .kComplete) :
    consumed s = headerSize s := by
  obtain ⟨x, p⟩ := readerFits_iff.1 hs
  cases hz : s.r.zf <;> simp [consumed, headerSize, hr, x.fits.cnt_of_complete hk, p.lengthStage hr, hz]

/-- A payload stage that ended complete has consumed the frame. -/
theorem consumed_of_payload (hs : ReaderFits s) (hr : s.r.ph = .pay) (hk : s.r.rx.kind = .kComplete) :
    consumed s = headerSize s + s.r.len32.toNat := by
  obtain ⟨x, p⟩ := readerFits_iff.1 hs
  simp [consumed, hr, x.fits.cnt_of_complete hk, p.payloadStage hr]

/-- RD's own steps keep the count, from stage to stage. -/
theorem ReaderStepped.consumed_eq (h : ReaderStepped s t) (hs : ReaderFits s) (hbusy : s.r.ph ≠ .idle)
    (ht : t.r.ph ≠ .idle) : consumed t = consumed s := by
  cases h with
  | idle | allocating | waits | overrun | completes | arms | asks => rfl
  | receives _ _ hr | rejects _ _ hr | releases _ _ _ hr | releasesNothing _ _ _ hr => exact absurd hr hbusy
  | zeroByte hr _ hk | flagByte hr _ hk => exact (consumed_of_first hs hr hk).symm
  | allocates hr _ hk => exact (consumed_of_length hs hr hk).symm
  | full | received => exact absurd rfl ht
  | fails | frees => exact absurd (by rw [fail_rd_eq]) ht

theorem onTick_consumed (s : State) : consumed (onTick s) = consumed s := by
  obtain ⟨-, -, -, ⟨-, h⟩ | ⟨-, h⟩⟩ | ⟨-, h⟩ := onTick_cases s <;> rw [h] <;> rfl

/-- A moved attempt of a stage adds what it moved. -/
theorem Sunk.consumed_moved {d : List Byte} (h : Sunk s d t) (hm : readerMoving s) {k : Nat} (hk : k ≤ s.r.rx.left) :
    consumed { t with r := { t.r with rx := s.r.rx.moved k } } = consumed s + k := by
  have hcnt := Engine.toNat_cnt_moved hk
  cases h with
  | first hr | length hr | payload _ hr => simp [consumed, headerSize, hr, hcnt, Nat.add_assoc]
  | nowhere hr => exact absurd hm (not_readerMoving hr)

/-! ## A command goes on -/

/-- The bytes gone from the front of WIRE_RX are those by which the count has grown. -/
def Accounted (s t : State) : Prop :=
  ∃ taken : List Byte, s.env.wireRx = taken ++ t.env.wireRx ∧ consumed t = consumed s + taken.length

theorem accounted_of_eq (hw : t.env.wireRx = s.env.wireRx) (hn : consumed t = consumed s) : Accounted s t :=
  ⟨[], hw.symm, hn⟩

theorem RxAnswered.accounted {a : RxAnswer} (h : RxAnswered s a t) (hs : ReaderFits s) (hatt : s.r.rx.ph = .att) :
    Accounted s t := by
  obtain ⟨hm, -⟩ := (readerFits_iff.1 hs).1.fits.open_of_att hatt
  cases h with
  | failed | closed => exact accounted_of_eq rfl rfl
  | moved k u _ hk hw hu =>
    have hlen : (s.env.wireRx.take k).length = k := List.length_take_of_le hw
    exact ⟨s.env.wireRx.take k, (List.take_append_drop k _).symm, hlen.symm ▸ hu.consumed_moved hm hk⟩

theorem AllocAnswered.accounted {a : AllocAnswer} (h : AllocAnswered s a t) (hr : s.r.ph = .alloc)
    (ht : t.r.ph ≠ .idle) : Accounted s t := by
  cases h with
  | noMem => exact absurd rfl ht
  | ok => exact accounted_of_eq rfl (by simp [consumed, headerSize, hr, Engine.start])

/-- The environment touches neither the counts nor, but for bytes that arrive or a late answer, the stream. -/
theorem EnvStepped.accounted (h : EnvStepped s e t) (harrive : ∀ b, e ≠ .arrive b) (hlate : ∀ i a, e ≠ .lateAnswer i a) :
    Accounted s t := by
  cases h with
  | arrives bytes => exact absurd rfl (harrive bytes)
  | late i a => exact absurd rfl (hlate i a)
  | _ => exact accounted_of_eq rfl rfl

theorem handle_accounted (h : handle e s = .next t) (hs : ReaderFits s) (hbusy : s.r.ph ≠ .idle) (hne : e ≠ .reset)
    (harrive : ∀ b, e ≠ .arrive b) (hlate : ∀ i a, e ≠ .lateAnswer i a) (ht : t.r.ph ≠ .idle) : Accounted s t := by
  cases handle_cases h with
  | writes _ hw =>
    rw [hw.frame]
    exact accounted_of_eq rfl rfl
  | txAnswered _ _ _ ha =>
    rw [ha.frame]
    exact accounted_of_eq rfl rfl
  | reads _ hr => exact accounted_of_eq hr.wireRx_eq (hr.consumed_eq hs hbusy ht)
  | rxAnswered _ _ hatt ha => exact ha.accounted hs hatt
  | allocAnswered _ _ hr ha => exact ha.accounted hr ht
  | ticks => exact accounted_of_eq (by rw [onTick_env]) (onTick_consumed s)
  | resets => exact absurd rfl hne
  | acts _ _ henv => exact henv.accounted harrive hlate
  | discards => exact accounted_of_eq rfl rfl

/-! ## A command ends -/

/-- Where a failed stage's result puts the bytes it consumed: those of the stages before, and `R_GOT`. -/
def FailureAccounted (s t : State) : Prop :=
  (t.r.stage = .stgFlag ∧ consumed s = 0 ∧ t.r.got = 0#32 ∧ t.r.exp = 1#32) ∨
  (t.r.stage = .stgLength ∧ consumed s = 1 + t.r.got.toNat ∧ t.r.got < t.r.exp) ∨
  (t.r.stage = .stgPayload ∧ consumed s = headerSize s + t.r.got.toNat ∧ t.r.got < t.r.exp)

/-- What a RECV_TOKEN that ends between the two states has consumed, by its result. -/
def EndAccounted (s t : State) : Prop :=
  (t.r.status = .stOk → consumed s = headerSize s + t.r.tok.length.toNat) ∧
  (t.r.status = .stAllocFailure → consumed s = headerSize s) ∧
  (failedR s t = true → FailureAccounted s t)

theorem endAccounted_of_ok (hst : t.r.status = .stOk) (hn : consumed s = headerSize s + t.r.tok.length.toNat) :
    EndAccounted s t :=
  ⟨fun _ => hn, by simp [hst], by simp [failedR, hst]⟩

theorem endAccounted_of_allocFailure (hst : t.r.status = .stAllocFailure) (hn : consumed s = headerSize s) :
    EndAccounted s t :=
  ⟨by simp [hst], fun _ => hn, by simp [failedR, hst]⟩

theorem endAccounted_of_failed {k : XKind} (hst : t.r.status = failStatus k) (hf : FailureAccounted s t) :
    EndAccounted s t := by
  obtain hk | hk := failStatus_cases k <;> exact ⟨by simp [hst, hk], by simp [hst, hk], fun _ => hf⟩

/-- A first-byte stage that failed has consumed nothing: it asked for one byte. -/
theorem cnt_of_first_failed (hs : ReaderFits s) (hr : s.r.ph = .first) (hn : s.r.rx.cnt < s.r.rx.req) :
    s.r.rx.cnt = 0#32 := by
  rw [(readerFits_iff.1 hs).2.first hr] at hn
  bv_omega

theorem ReaderStepped.ends_recv (h : ReaderStepped s t) (hs : ReaderFits s) (hbusy : s.r.ph ≠ .idle)
    (ht : t.r.ph = .idle) : EndAccounted s t := by
  obtain ⟨x, p⟩ := readerFits_iff.1 hs
  cases h with
  | idle | allocating | waits | overrun | completes | arms | asks => exact absurd ht hbusy
  | receives _ _ hr | rejects _ _ hr | releases _ _ _ hr | releasesNothing _ _ _ hr => exact absurd hr hbusy
  | zeroByte | flagByte | allocates => cases ht
  | full hr _ hk => exact endAccounted_of_allocFailure rfl (consumed_of_length hs hr hk)
  | received hr _ hk => exact endAccounted_of_ok rfl (consumed_of_payload hs hr hk)
  | fails stage exp he hk hstage =>
    rw [fail_rd_eq]
    refine endAccounted_of_failed rfl ?_
    obtain ⟨hr, rfl, rfl⟩ | ⟨hr, rfl, rfl⟩ := hstage
    · have hn := cnt_of_first_failed hs hr (x.fits.cnt_lt_of_failed (.inl hr) he hk)
      exact .inl ⟨rfl, by simp [consumed, hr, hn], hn, rfl⟩
    · have hn := x.fits.cnt_lt_of_failed (.inr (.inl hr)) he hk
      exact .inr (.inl ⟨rfl, by simp [consumed, hr], p.lengthStage hr ▸ hn⟩)
  | frees hr he hk =>
    have hn := x.fits.cnt_lt_of_failed (.inr (.inr hr)) he hk
    rw [fail_rd_eq]
    exact endAccounted_of_failed rfl (.inr (.inr ⟨rfl, by simp [consumed, hr], p.payloadStage hr ▸ hn⟩))

theorem AllocAnswered.ends_recv {a : AllocAnswer} (h : AllocAnswered s a t) (hr : s.r.ph = .alloc) (ht : t.r.ph = .idle) :
    t.env.wireRx = s.env.wireRx ∧ EndAccounted s t := by
  cases h with
  | noMem => exact ⟨rfl, endAccounted_of_allocFailure rfl (by simp [consumed, hr])⟩
  | ok => cases ht

/-- A command ends in a step of RD's own or in the allocator's answer, and no byte goes with it. -/
theorem handle_ends_recv (h : handle e s = .next t) (hs : ReaderFits s) (hbusy : s.r.ph ≠ .idle) (hne : e ≠ .reset)
    (ht : t.r.ph = .idle) : t.env.wireRx = s.env.wireRx ∧ EndAccounted s t := by
  cases handle_readerHandled h with
  | steps _ hr => exact ⟨hr.wireRx_eq, hr.ends_recv hs hbusy ht⟩
  | answered _ _ _ ha => exact absurd (ha.ph_eq.symm.trans ht) hbusy
  | allocAnswered _ _ hr ha => exact ha.ends_recv hr ht
  | ticks | expires => exact absurd ht hbusy
  | resets => exact absurd rfl hne
  | untouched _ _ hr => exact absurd (hr ▸ ht) hbusy

/-- Settles O57: an event takes the bytes by which the counts grow, and one that ends the command takes none. -/
theorem streamBytesAccounted : Obligations.StreamBytesAccounted := by
  unfold Obligations.StreamBytesAccounted
  exact fun e s t hs hbusy h hne harrive hlate =>
    ⟨handle_accounted h hs hbusy hne harrive hlate, handle_ends_recv h hs hbusy hne⟩

end Sys2Proof.Machine
end

section
/-! PROOF. What the reader's rule makes of a sent frame (R60, R64, R138): O5.

The idea: the reader takes the first byte sent for a flag or for the top length byte, whichever it was sent as. Where the two sides
differ, the bytes that follow shift by one place: the length read is the length sent, one base-256 digit on or back. -/

namespace Sys2Proof.Machine

theorem frameBytes_zero (p : List Byte) :
    frameBytes 0#32 p = (encBytes (BitVec.ofNat 32 p.length)).toList ++ p := rfl

theorem frameBytes_nonzero {f : FlagIn} (hf : f ≠ 0#32) (p : List Byte) :
    frameBytes f p = f.extractLsb' 0 8 :: (encBytes (BitVec.ofNat 32 p.length)).toList ++ p := by
  rw [frameBytes, flagBytes_of_ne_zero hf, BitVec.setWidth_eq_extractLsb' (by decide)]
  rfl

/-- Length bytes whose first is not 0, read with that byte for the flag: the byte after them is the last of the length. -/
theorem decodeHeader_length_as_flag {l : Be4} (hl : l.b0 ≠ 0#8) (b : Byte) (q : List Byte) :
    decodeHeader (l.toList ++ b :: q) = .ok (.frameNonzeroFlag l.b0 (decBytes ⟨l.b1, l.b2, l.b3, b⟩), q) :=
  decodeHeader_nonzero hl ⟨l.b1, l.b2, l.b3, b⟩ q

/-- A zero flag byte, read for the first of the length: the last length byte is left to the payload. -/
theorem decodeHeader_flag_as_length (l : Be4) (p : List Byte) :
    decodeHeader (0#8 :: l.toList ++ p) = .ok (.frameZeroFlag (decBytes ⟨0#8, l.b0, l.b1, l.b2⟩), l.b3 :: p) :=
  decodeHeader_zero (l := ⟨0#8, l.b0, l.b1, l.b2⟩) rfl (l.b3 :: p)

/-- The digits of a length that fits. -/
theorem encBytes_ofNat_toNat {n : Nat} (hn : n < 2 ^ 32) :
    (encBytes (BitVec.ofNat 32 n)).b0.toNat = n / 2 ^ 24 ∧ (encBytes (BitVec.ofNat 32 n)).b1.toNat = n / 2 ^ 16 % 256 ∧
    (encBytes (BitVec.ofNat 32 n)).b2.toNat = n / 2 ^ 8 % 256 ∧ (encBytes (BitVec.ofNat 32 n)).b3.toNat = n % 256 := by
  have h := encBytes_toNat (BitVec.ofNat 32 n)
  rwa [BitVec.toNat_ofNat, Nat.mod_eq_of_lt hn] at h

section
variable {n : Nat} (hn : n < 2 ^ 32)
include hn

theorem encBytes_b0_eq : (encBytes (BitVec.ofNat 32 n)).b0 = BitVec.ofNat 8 (n / 2 ^ 24) := by
  obtain ⟨h0, -, -, -⟩ := encBytes_ofNat_toNat hn
  refine BitVec.eq_of_toNat_eq ?_
  rw [h0, BitVec.toNat_ofNat]
  omega

theorem encBytes_b3_eq : (encBytes (BitVec.ofNat 32 n)).b3 = BitVec.ofNat 8 n := by
  obtain ⟨-, -, -, h3⟩ := encBytes_ofNat_toNat hn
  exact BitVec.eq_of_toNat_eq (by rw [h3, BitVec.toNat_ofNat])

/-- The length read one byte late: the top digit is lost, and the byte after the length is the last digit. -/
theorem decBytes_read_late (b : Byte) :
    decBytes ⟨(encBytes (BitVec.ofNat 32 n)).b1, (encBytes (BitVec.ofNat 32 n)).b2, (encBytes (BitVec.ofNat 32 n)).b3, b⟩ =
      BitVec.ofNat 32 (n % 2 ^ 24 * 256 + b.toNat) := by
  obtain ⟨-, h1, h2, h3⟩ := encBytes_ofNat_toNat hn
  have hb := b.isLt
  refine BitVec.eq_of_toNat_eq ?_
  simp only [decBytes_toNat, h1, h2, h3, BitVec.toNat_ofNat]
  omega

/-- The length read one byte early, after a zero byte: the last digit is left behind. -/
theorem decBytes_read_early :
    decBytes ⟨0#8, (encBytes (BitVec.ofNat 32 n)).b0, (encBytes (BitVec.ofNat 32 n)).b1, (encBytes (BitVec.ofNat 32 n)).b2⟩ =
      BitVec.ofNat 32 (n / 256) := by
  obtain ⟨h0, h1, h2, -⟩ := encBytes_ofNat_toNat hn
  refine BitVec.eq_of_toNat_eq ?_
  simp only [decBytes_toNat, h0, h1, h2, BitVec.toNat_ofNat]
  omega

end

/-- The top digit is 0 exactly for a length below 2^24. -/
theorem ofNat_top_digit_eq_zero_iff {n : Nat} (hn : n < 2 ^ 32) : BitVec.ofNat 8 (n / 2 ^ 24) = 0#8 ↔ n < 2 ^ 24 := by
  rw [← BitVec.toNat_inj, BitVec.toNat_ofNat, BitVec.toNat_ofNat]
  omega

/-- Settles O5: rows 1 and 2 read the bytes as they were sent, row 3 takes the top length byte for a flag, and row 4 a zero flag
for the top length byte. -/
theorem sentFrameReadBack : Obligations.SentFrameReadBack := by
  unfold Obligations.SentFrameReadBack
  intro f p hp
  refine ⟨fun hlow => ?_, ?_, ?_, fun hf hlow => ?_⟩
  · have hf : f ≠ 0#32 := by
      rintro rfl
      exact hlow rfl
    rw [frameBytes_nonzero hf, decodeHeader_nonzero hlow, decBytes_encBytes]
  · rintro rfl hshort
    have htop : (encBytes (BitVec.ofNat 32 p.length)).b0 = 0#8 :=
      (encBytes_b0_eq hp).trans ((ofNat_top_digit_eq_zero_iff hp).2 hshort)
    rw [frameBytes_zero, decodeHeader_zero htop, decBytes_encBytes]
  · intro b q hf hlong hcons
    have htop : (encBytes (BitVec.ofNat 32 p.length)).b0 ≠ 0#8 := fun h =>
      Nat.not_lt.2 hlong ((ofNat_top_digit_eq_zero_iff hp).1 ((encBytes_b0_eq hp).symm.trans h))
    have hread := decodeHeader_length_as_flag htop b q
    rwa [decBytes_read_late hp, encBytes_b0_eq hp, ← hcons, ← frameBytes_zero, ← hf] at hread
  · rw [frameBytes_nonzero hf, hlow, decodeHeader_flag_as_length, decBytes_read_early hp, encBytes_b3_eq hp]

end Sys2Proof.Machine
end

section
/-! PROOF. The Frame Reader's own steps one by one (R131 to R136): O10, O29, O30, O31, O32 and O33.

The idea: with its engine done, RD's step in a stage is the stage's end, and each end has one equation of states. -/

namespace Sys2Proof.Machine

variable {s : State}

/-! ## The accept (R131) -/

/-- Settles O10: an idle RD takes `acceptRecv`. -/
theorem recvTokenAccepted : Obligations.RecvTokenAccepted := by
  unfold Obligations.RecvTokenAccepted
  exact fun s hf hr => acceptR_of_ready hf hr

/-! ## The end of a stage -/

/-- With the engine done, RD's step in a stage is the stage's end. -/
theorem handle_rd_of_done (hf : s.fatal = false) (hd : s.r.rx.ph = .done) :
    (s.r.ph = .first → handle .rd s = .next (firstEnded s)) ∧
    (s.r.ph = .len → handle .rd s = lengthStageEnded s) ∧
    (s.r.ph = .pay → handle .rd s = .next (payloadStageEnded s)) := by
  rw [handle, readerStep, running_of_not_fatal hf]
  refine ⟨fun hr => ?_, fun hr => ?_, fun hr => ?_⟩ <;> simp only [hr, rxStage, hd]

/-! ## The first byte (R132) -/

/-- Settles O29: the end of the stage is `firstEnded`, whose tests are the statement's. -/
theorem firstByteDecidesFormat : Obligations.FirstByteDecidesFormat := by
  unfold Obligations.FirstByteDecidesFormat
  intro s hf hr hd
  obtain ⟨hended, -, -⟩ := handle_rd_of_done hf hd
  rw [hended hr]
  refine ⟨fun hk => congrArg _ (if_pos hk), fun hk hb => congrArg _ ?_, fun hk hb => congrArg _ ?_⟩
  · exact (if_neg (not_not.2 hk)).trans (if_pos (beq_iff_eq.2 hb))
  · exact (if_neg (not_not.2 hk)).trans (if_neg (mt beq_iff_eq.1 hb))

/-! ## The length (R64, R133) -/

theorem headerDone_iff (hr : s.r.ph = .len) (hd : s.r.rx.ph = .done) :
    headerDone s = true ↔ s.r.rx.kind = .kComplete := by
  simp [headerDone, hr, hd]

/-- The header's bytes, in the staging registers, are read as the instruction that runs. -/
theorem decodeHeader_staged (h : HeaderFits s.r.zf s.r.flag s.r.lenbuf) :
    decodeHeader ((if s.r.zf = true then [] else [s.r.flag]) ++ s.r.lenbuf.toList) = .ok (headerInstr s, []) := by
  obtain ⟨hzero, hnonzero⟩ := h
  unfold headerInstr
  split
  · next hz => simpa using decodeHeader_zero (hzero hz).2 []
  · next hz => simpa using decodeHeader_nonzero (hnonzero (Bool.not_eq_true _ ▸ hz)) s.r.lenbuf []

/-- Settles O30: the end of the stage is `lengthStageEnded`, and its instruction is read from the header's bytes. -/
theorem headerRunsWhenComplete : Obligations.HeaderRunsWhenComplete := by
  unfold Obligations.HeaderRunsWhenComplete
  intro s hf hr hd
  obtain ⟨-, hended, -⟩ := handle_rd_of_done hf hd
  rw [hended hr]
  refine ⟨fun hk => if_neg (mt (headerDone_iff hr hd).1 hk), fun hk hs => ⟨headerInstr s, ?_, ?_⟩⟩
  · exact if_pos ((headerDone_iff hr hd).2 hk)
  · have hread := decodeHeader_staged ((readerFits_iff.1 hs).2.header (.inl hr))
    exact ⟨Sys2Proof.Laws.DecodedWellFormed.decodeHeader_wellFormed hread, decode_wire_eq_ok.2 hread⟩

/-! ## The allocator's answer (R47, R134) -/

theorem onAllocAnswer_of_alloc (hf : s.fatal = false) (hr : s.r.ph = .alloc) (a : AllocAnswer) :
    onAllocAnswer a s = allocAnswered a s :=
  if_pos ⟨hf, hr⟩

theorem toNat_allocSize (n : Len) : (allocSize n).toNat = max n.toNat 1 := by
  unfold allocSize
  split
  · next h => simp [h]
  · bv_omega

theorem allocAnswered_fresh {h : Handle} (hp : poolSize s.env.pool h = none) (hl : h ∉ s.live) :
    allocAnswered (.ok h) s = .next { s with
      r := { s.r with h := h, hv := true, rx := s.r.rx.start s.r.len32, ph := .pay }
      env := { s.env with
        pool := (h, max s.r.len32.toNat 1) :: s.env.pool, rxbuf := Memory.drop s.env.rxbuf h } } := by
  rw [← toNat_allocSize]
  exact if_neg (by simp [hp, hl])

/-- Settles O31: a fresh handle's storage has lost its contents, and no other's. -/
theorem allocatorAnswered : Obligations.AllocatorAnswered := by
  unfold Obligations.AllocatorAnswered
  intro s hf hr
  refine ⟨fun h hp hl => ⟨Memory.drop s.env.rxbuf h, ?_, Memory.read_drop_same _ h, fun g i hg =>
    Memory.read_drop_other _ i hg⟩, ?_⟩
  · exact (onAllocAnswer_of_alloc hf hr _).trans (allocAnswered_fresh hp hl)
  · exact (onAllocAnswer_of_alloc hf hr _).trans (congrArg Host.Outcome.next (allocFail_eq s (allocSize s.r.len32)))

/-! ## The payload (R135, R136) -/

theorem mem_liveInsert {live : List Handle} {g h : Handle} : g ∈ liveInsert live h ↔ g ∈ live ∨ g = h := by
  unfold liveInsert
  split
  · next hl =>
    refine ⟨.inl, ?_⟩
    rintro (hg | rfl)
    · exact hg
    · exact hl
  · simp

/-- Settles O32: the end of the stage is `payloadReceived`. -/
theorem payloadPassesToHost : Obligations.PayloadPassesToHost := by
  unfold Obligations.PayloadPassesToHost
  intro s hf hr hd hk
  obtain ⟨-, -, hended⟩ := handle_rd_of_done hf hd
  refine ⟨liveInsert s.live s.r.h, ?_, fun g => mem_liveInsert⟩
  exact (hended hr).trans (congrArg _ (if_pos hk))

theorem failStatus_eq (k : XKind) : failStatus k = if k = .kError then .stTransportError else .stShortTransfer := by
  cases k <;> rfl

theorem payloadFailed_eq (s : State) :
    payloadFailed s = { s with
      r := { s.r with
        hv := false
        status := if s.r.rx.kind = .kError then .stTransportError else .stShortTransfer
        errcode := if s.r.rx.kind = .kError then s.r.rx.code else 0#32
        stage := .stgPayload, got := s.r.rx.cnt, exp := s.r.len32, ph := .idle }
      env := { s.env with
        pool := poolFree s.env.pool s.r.h, rxbuf := Memory.drop s.env.rxbuf s.r.h
        out := s.env.out ++ .free s.r.h ::
          (if s.diagEn = true then [.report .rd .stgPayload s.r.rx.cnt s.r.len32] else []) ++
          [.resultR (if s.r.rx.kind = .kError then .stTransportError else .stShortTransfer) .stgPayload s.r.rx.cnt
            s.r.len32 (if s.r.rx.kind = .kError then s.r.rx.code else 0#32) s.r.flagOut s.r.tok] } } := by
  simp [payloadFailed, fail_rd_eq, free_eq, failStatus_eq, failCode]

/-- Settles O33: the end of the stage is `payloadFailed`, which frees the buffer and takes `Fail`. -/
theorem failedPayloadIsFreed : Obligations.FailedPayloadIsFreed := by
  unfold Obligations.FailedPayloadIsFreed
  intro s hf hr hd hk
  obtain ⟨-, -, hended⟩ := handle_rd_of_done hf hd
  refine ⟨payloadFailed s, (hended hr).trans (congrArg _ (if_neg hk)), ?_⟩
  rw [payloadFailed_eq]
  exact ⟨rfl, rfl, rfl, rfl, rfl, rfl, rfl, rfl, rfl, poolSize_free_same _ _,
    fun g hg => poolSize_free_other _ hg, fun g i hg => Memory.read_drop_other _ i hg⟩

end Sys2Proof.Machine
end

section
/-! PROOF. The token release (R150 to R156): O11 and O12.

The idea: an idle RD takes `releaseStep`, which has one equation of states for a live handle and one for no live handle. -/

namespace Sys2Proof.Machine

variable {s : State} {handle : Handle}

/-- R150: an idle RD takes the whole release; its length is not read. -/
theorem exec_releaseToken_of_ready (hf : s.fatal = false) (hr : s.r.ph = .idle) (valid : Bool) (handle : Handle)
    (length : Len) : exec (.releaseToken valid handle length) s = .next (releaseStep valid handle s) :=
  acceptR_of_ready hf hr

/-! ## A live handle (R152) -/

theorem releaseStep_of_live (hl : handle ∈ s.live) :
    releaseStep true handle s = { s with
      live := liveErase s.live handle
      r := s.r.cleared .stOk
      env := { s.env with
        pool := poolFree s.env.pool handle, rxbuf := Memory.drop s.env.rxbuf handle
        out := s.env.out ++ [.free handle, .resultR .stOk .stgNone 0#32 0#32 0#32 0#8 Descriptor.empty] } } := by
  simp [releaseStep, hl, free_eq, releaseEnd_eq]

theorem mem_liveErase {live : List Handle} {g h : Handle} : g ∈ liveErase live h ↔ g ∈ live ∧ g ≠ h := by
  simp [liveErase]

/-- Settles O12: the release of a live handle drops it from LIVE, and its storage from the pool and the memory. -/
theorem releaseOfLiveFrees : Obligations.ReleaseOfLiveFrees := by
  unfold Obligations.ReleaseOfLiveFrees
  intro h l s hf hr hl
  refine ⟨liveErase s.live h, poolFree s.env.pool h, Memory.drop s.env.rxbuf h, ?_, fun g => mem_liveErase,
    poolSize_free_same _ _, fun g hg => poolSize_free_other _ hg, fun g i hg => Memory.read_drop_other _ i hg⟩
  exact (exec_releaseToken_of_ready hf hr true h l).trans (congrArg _ (releaseStep_of_live hl))

/-! ## No live handle (R151, R153) -/

theorem releaseStep_of_not_live {valid : Bool} (hl : valid = true → handle ∉ s.live) :
    releaseStep valid handle s = releaseEnd (if valid = true then .stReleaseError else .stOk) s := by
  cases valid with
  | false => rfl
  | true => exact if_neg (hl rfl)

/-- Settles O11: with no live handle the release is its end alone. -/
theorem releaseWithoutFree : Obligations.ReleaseWithoutFree := by
  unfold Obligations.ReleaseWithoutFree
  intro valid h l s hf hr hl
  exact (exec_releaseToken_of_ready hf hr valid h l).trans
    (congrArg _ ((releaseStep_of_not_live hl).trans (releaseEnd_eq s _)))

end Sys2Proof.Machine
end

section
/-! PROOF. The failure procedure and its Reports (R166, R172): O26 and O45.

The idea of the second: of all that an agent can do, `fail` alone issues a Report and `fail` alone ends a command in one of the
two statuses by which a failure is told (`failedW`, `failedR`). -/

namespace Sys2Proof.Machine

variable {e : Event} {s t : State}

/-! ## Fail (R166) -/

/-- Settles O26: `fail` of either unit is one equation of states. -/
theorem failRecordsAndReturnsToIdle : Obligations.FailRecordsAndReturnsToIdle := by
  unfold Obligations.FailRecordsAndReturnsToIdle
  intro k stage got exp code s
  rw [fail_wr_eq, fail_rd_eq, failStatus_eq, failCode]
  exact ⟨rfl, rfl⟩

theorem reports_fail (u : UnitId) (k : XKind) (stage : Stage) (got exp : Len) (code : ErrCode) (s : State) :
    reports (fail u k stage got exp code s) = reports s + if s.diagEn = true then 1 else 0 := by
  unfold reports
  cases u with
  | wr => rw [fail_wr_eq]; cases s.diagEn <;> simp [List.countP_cons, Issue.isReport]
  | rd => rw [fail_rd_eq]; cases s.diagEn <;> simp [List.countP_cons, Issue.isReport]

section Ends

variable (k : XKind) (stage : Stage) (got exp : Len) (code : ErrCode) (u : State)

theorem failedW_fail (hw : s.w.ph ≠ .idle) : failedW s (fail .wr k stage got exp code u) = true := by
  obtain hk | hk := failStatus_cases k <;> simp [failedW, fail_wr_eq, hw, hk]

theorem failedR_fail (hr : s.r.ph ≠ .idle) : failedR s (fail .rd k stage got exp code u) = true := by
  obtain hk | hk := failStatus_cases k <;> simp [failedR, fail_rd_eq, hr, hk]

end Ends

/-! ## No failure -/

theorem failedW_of_ph_eq (h : t.w.ph = s.w.ph) : failedW s t = false := by
  simp +contextual [failedW, h]

theorem failedR_of_ph_eq (h : t.r.ph = s.r.ph) : failedR s t = false := by
  simp +contextual [failedR, h]

theorem failedW_of_idle (h : s.w.ph = .idle) : failedW s t = false := by simp [failedW, h]

theorem failedR_of_idle (h : s.r.ph = .idle) : failedR s t = false := by simp [failedR, h]

theorem failedW_of_busy (h : t.w.ph ≠ .idle) : failedW s t = false := by simp [failedW, h]

theorem failedR_of_busy (h : t.r.ph ≠ .idle) : failedR s t = false := by simp [failedR, h]

/-! ## Reports (R172) -/

/-- One Report is issued between the two states if DIAG_EN = 1 and a command failed, and none otherwise. -/
def ReportedOnce (s t : State) (failed : Bool) : Prop :=
  reports t = reports s + if s.diagEn = true ∧ failed = true then 1 else 0

theorem ReportedOnce.of_fail {failed : Bool} (hf : failed = true)
    (h : reports t = reports s + if s.diagEn = true then 1 else 0) : ReportedOnce s t failed := by
  simpa [ReportedOnce, hf] using h

theorem ReportedOnce.of_not_fail {failed : Bool} (hf : failed = false) (h : reports t = reports s) :
    ReportedOnce s t failed := by
  simpa [ReportedOnce, hf] using h

theorem reports_of_out_eq (h : t.env.out = s.env.out) : reports t = reports s := by
  rw [reports, h, reports]

/-- What is issued besides Reports is not counted. -/
theorem reports_of_out_append {issued : List Issue} (h : t.env.out = s.env.out ++ issued)
    (hn : issued.countP Issue.isReport = 0) : reports t = reports s := by
  rw [reports, h, List.countP_append, hn, Nat.add_zero, reports]

theorem WriterStepped.reportedOnce (h : WriterStepped s t) : ReportedOnce s t (failedW s t) := by
  cases h with
  | idle | halted | waits | overrun | completes => exact .of_not_fail (failedW_of_ph_eq rfl) rfl
  | sends _ _ _ _ _ hw =>
    refine .of_not_fail (failedW_of_idle hw) (reports_of_out_eq ?_)
    unfold acceptSend
    split <;> rfl
  | rejects _ _ hw => exact .of_not_fail (failedW_of_idle hw) (reports_of_out_append rfl rfl)
  | offers => exact .of_not_fail (failedW_of_ph_eq rfl) (reports_of_out_append rfl rfl)
  | flagSent | encodes | lengthSent => exact .of_not_fail (failedW_of_busy nofun) rfl
  | oversized => exact .of_not_fail (failedW_of_busy nofun) (reports_of_out_append rfl rfl)
  | payloadSent => exact .of_not_fail (by simp [failedW]) (reports_of_out_append rfl rfl)
  | fails _ _ _ _ hs =>
    have hbusy : s.w.ph ≠ .idle := by
      obtain ⟨hw, -⟩ | ⟨hw, -⟩ | ⟨hw, -⟩ := hs <;> simp [hw]
    exact .of_fail (failedW_fail _ _ _ _ _ s hbusy) (reports_fail ..)

theorem ReaderStepped.reportedOnce (h : ReaderStepped s t) : ReportedOnce s t (failedR s t) := by
  cases h with
  | idle | allocating | waits | overrun | completes | arms => exact .of_not_fail (failedR_of_ph_eq rfl) rfl
  | receives _ _ hr => exact .of_not_fail (failedR_of_idle hr) rfl
  | rejects _ _ hr | releasesNothing _ _ _ hr =>
    exact .of_not_fail (failedR_of_idle hr) (reports_of_out_append rfl rfl)
  | releases _ _ _ hr =>
    exact .of_not_fail (failedR_of_idle hr) (reports_of_out_append (List.append_assoc ..) rfl)
  | asks => exact .of_not_fail (failedR_of_ph_eq rfl) (reports_of_out_append rfl rfl)
  | zeroByte | flagByte => exact .of_not_fail (failedR_of_busy nofun) rfl
  | allocates => exact .of_not_fail (failedR_of_busy nofun) (reports_of_out_append rfl rfl)
  | full => exact .of_not_fail (by simp [failedR, allocFail_eq]) (reports_of_out_append rfl rfl)
  | received => exact .of_not_fail (by simp [failedR, payloadReceived, result_rd_eq]) (reports_of_out_append rfl rfl)
  | fails _ _ _ _ hs =>
    have hbusy : s.r.ph ≠ .idle := by
      obtain ⟨hr, -⟩ | ⟨hr, -⟩ := hs <;> simp [hr]
    exact .of_fail (failedR_fail _ _ _ _ _ s hbusy) (reports_fail ..)
  | frees hr =>
    refine .of_fail (failedR_fail _ _ _ _ _ _ (by simp [hr])) ((reports_fail ..).trans ?_)
    simp [reports, Issue.isReport]

/-- R134: the allocator's refusal ends the command without a Report. -/
theorem AllocAnswered.reportedOnce {a : AllocAnswer} (h : AllocAnswered s a t) : ReportedOnce s t (failedR s t) := by
  cases h with
  | noMem => exact .of_not_fail (by simp [failedR, allocFail_eq]) (reports_of_out_append rfl rfl)
  | ok => exact .of_not_fail (failedR_of_busy nofun) rfl

/-- An event that leaves both phases and issues nothing. -/
theorem ReportedOnce.of_quiet (hw : t.w.ph = s.w.ph) (hr : t.r.ph = s.r.ph) (hout : t.env.out = s.env.out) :
    ReportedOnce s t (failedW s t || failedR s t) :=
  .of_not_fail (by rw [failedW_of_ph_eq hw, failedR_of_ph_eq hr]; rfl) (reports_of_out_eq hout)

/-- A step in which WR keeps its phase reports for RD's failure. -/
theorem ReportedOnce.of_reader (h : ReportedOnce s t (failedR s t)) (hw : t.w.ph = s.w.ph) :
    ReportedOnce s t (failedW s t || failedR s t) := by
  rwa [failedW_of_ph_eq hw, Bool.false_or]

/-- A step in which RD keeps its phase reports for WR's failure. -/
theorem ReportedOnce.of_writer (h : ReportedOnce s t (failedW s t)) (hr : t.r.ph = s.r.ph) :
    ReportedOnce s t (failedW s t || failedR s t) := by
  rwa [failedR_of_ph_eq hr, Bool.or_false]

theorem handle_reportedOnce (h : handle e s = .next t) (hne : e ≠ .reset) :
    ReportedOnce s t (failedW s t || failedR s t) := by
  cases handle_cases h with
  | writes _ hw => exact hw.reportedOnce.of_writer (by rw [hw.frame]; rfl)
  | txAnswered _ _ _ ha => cases ha <;> exact .of_quiet rfl rfl rfl
  | reads _ hr => exact hr.reportedOnce.of_reader (by rw [hr.frame]; rfl)
  | rxAnswered _ _ _ ha => exact .of_quiet (by rw [ha.frame]; rfl) ha.ph_eq ha.out_eq
  | allocAnswered _ _ _ ha => exact ha.reportedOnce.of_reader (by rw [ha.frame]; rfl)
  | ticks => exact .of_quiet (by rw [onTick_frame]; rfl) (onTick_ph s) (by rw [onTick_env])
  | resets => exact absurd rfl hne
  | acts _ _ henv =>
    obtain ⟨-, -, hw, hr, hout, -⟩ := henv.registers
    exact .of_quiet (by rw [hw]) (by rw [hr]) hout
  | discards => exact .of_quiet rfl rfl rfl

/-- Settles O45: WR's step may fail WR's command and RD's step RD's, each with its Report; no other event fails a command or
issues a Report. -/
theorem reportsOnlyFromFail : Obligations.ReportsOnlyFromFail := by
  unfold Obligations.ReportsOnlyFromFail
  intro e s t h hne
  simpa [ReportedOnce] using handle_reportedOnce h hne

end Sys2Proof.Machine
end

section
/-! PROOF. The reset step (R190, R192): O35.

The idea: after a reset no engine is in an attempt and RD waits for no allocator, so that an answer, whoever gives it, answers
nothing and is discarded. -/

namespace Sys2Proof.Machine

variable {s : State}

theorem onTxAnswer_of_not_att (he : s.w.wx.ph ≠ .att) (a : TxAnswer) : onTxAnswer a s = .next s :=
  if_neg fun hc => he hc.2

theorem onRxAnswer_of_not_att (he : s.r.rx.ph ≠ .att) (a : RxAnswer) : onRxAnswer a s = .next s :=
  if_neg fun hc => he hc.2

theorem onAllocAnswer_of_not_alloc (hr : s.r.ph ≠ .alloc) (a : AllocAnswer) : onAllocAnswer a s = .next s :=
  if_neg fun hc => hr hc.2

@[simp] theorem resetBlock_w (s : State) : (resetBlock s).w = Writer.reset := rfl

@[simp] theorem resetBlock_r (s : State) : (resetBlock s).r = Reader.reset := rfl

/-- R190: the answer to a request made before the reset is discarded. -/
theorem resetBlock_discards_answers (s : State) (a : TxAnswer) (b : RxAnswer) (c : AllocAnswer) :
    handle (.txAnswer a) (resetBlock s) = .next (resetBlock s) ∧
    handle (.rxAnswer b) (resetBlock s) = .next (resetBlock s) ∧
    handle (.allocAnswer c) (resetBlock s) = .next (resetBlock s) :=
  ⟨onTxAnswer_of_not_att (by rw [resetBlock_w]; decide) a, onRxAnswer_of_not_att (by rw [resetBlock_r]; decide) b,
    onAllocAnswer_of_not_alloc (by rw [resetBlock_r]; decide) c⟩

/-- Settles O35: the state after is `resetBlock s`, whose registers are those of `State.reset`, and it discards every answer. -/
theorem resetStepRestoresRegisters : Obligations.ResetStepRestoresRegisters := by
  unfold Obligations.ResetStepRestoresRegisters
  exact fun s =>
    ⟨resetBlock s, rfl, rfl, rfl, rfl, resetBlock_w s, resetBlock_r s, rfl, resetBlock_discards_answers s⟩

end Sys2Proof.Machine
end
